-- ==== Sys2Proof/Word.lean ====
section
/-! DEFINITION. The widths of the engine's values (00_scope.md R13, R14): bytes, register words and the fields of a command. -/

namespace Sys2Proof

/-- A field value, and an element of every storage space but LOG (R13 `FIELD_BITS`, R21). -/
abbrev Byte := BitVec 8

/-- A scalar register, a control and status register, or a command word (R31, R37, R90). -/
abbrev Word := BitVec 32

/-- A scalar register number, `s0` to `s15` (R92). -/
abbrev Reg := BitVec 4

/-- The immediate of a format I command, unsigned (R93). -/
abbrev Imm16 := BitVec 16

end Sys2Proof
end

