-- ==== Sys2Proof/Syntax.lean ====
section
/-! DEFINITION. The 30 commands of GFE-1 with the fields each one uses (30_encoding.md R95). -/

namespace Sys2Proof

/-- One constructor per row of the opcode map (R95); the operands are the fields in its "uses" column,
in the order `rd, ra, rb, rc, imm16`. -/
inductive Instr where
  /-- `NOP` (R230) -/
  | nop
  /-- `LI rd, imm16` (R231) -/
  | li (rd : Reg) (imm : Imm16)
  /-- `MOV rd, ra` (R232) -/
  | mov (rd ra : Reg)
  /-- `RDCSR rd, imm16` (R233) -/
  | rdcsr (rd : Reg) (csr : Imm16)
  /-- `GFBUILD imm16` (R123) -/
  | gfbuild (idx : Imm16)
  /-- `MDBUILD` (R128) -/
  | mdbuild
  /-- `INVBUILD` (R130) -/
  | invbuild
  /-- `WTBUILD` (R131) -/
  | wtbuild
  /-- `GFADD rd, ra, rb` (R148) -/
  | gfadd (rd ra rb : Reg)
  /-- `GFDBL rd, ra` (R149) -/
  | gfdbl (rd ra : Reg)
  /-- `GFLOG rd, ra` (R150) -/
  | gflog (rd ra : Reg)
  /-- `GFEXP rd, ra` (R151) -/
  | gfexp (rd ra : Reg)
  /-- `GFMUL rd, ra, rb` (R152) -/
  | gfmul (rd ra rb : Reg)
  /-- `GFDIV rd, ra, rb` (R153) -/
  | gfdiv (rd ra rb : Reg)
  /-- `GFINV rd, ra` (R155) -/
  | gfinv (rd ra : Reg)
  /-- `GFMULL rd, ra, rb` (R156) -/
  | gfmull (rd ra rb : Reg)
  /-- `GFDIVL rd, ra, rb` (R157) -/
  | gfdivl (rd ra rb : Reg)
  /-- `POPC rd, ra` (R173) -/
  | popc (rd ra : Reg)
  /-- `BWCALC rd, ra` (R174) -/
  | bwcalc (rd ra : Reg)
  /-- `BWLUT rd, ra` (R175) -/
  | bwlut (rd ra : Reg)
  /-- `SETDIM k, m` (R186) -/
  | setdim (imm : Imm16)
  /-- `LDX rd, ra` (R187) -/
  | ldx (rd ra : Reg)
  /-- `STX ra, rb` (R188) -/
  | stx (ra rb : Reg)
  /-- `LDY rd, ra` (R189) -/
  | ldy (rd ra : Reg)
  /-- `STY ra, rb` (R190) -/
  | sty (ra rb : Reg)
  /-- `LDM rd, ra, rb` (R191) -/
  | ldm (rd ra rb : Reg)
  /-- `STM ra, rb, rc` (R192) -/
  | stm (ra rb rc : Reg)
  /-- `CMRAW` (R206) -/
  | cmraw
  /-- `CMCANON` (R210) -/
  | cmcanon
  /-- `CMONES rd, ra` (R215) -/
  | cmones (rd ra : Reg)
  deriving DecidableEq, Repr

end Sys2Proof
end

