-- ==== Sys2Proof/WellFormed.lean ====
section
/-! DEFINITION. Which terms of `Instr` are commands (30_encoding.md R99). -/

namespace Sys2Proof

/-- The largest assigned CSR number (10_state.md R37): 7 to 65535 are reserved. -/
def lastCsr : Nat := 6

/-- A term is a command unless it is an RDCSR of a reserved CSR number: by R99 that is the only case in
which the value of a used field makes a word illegal.  Register numbers and immediates carry their widths
in their types. -/
def Instr.wellFormed : Instr → Bool
  | .rdcsr _ csr => csr.toNat ≤ lastCsr
  | .nop | .li _ _ | .mov _ _ | .gfbuild _ | .mdbuild | .invbuild | .wtbuild => true
  | .gfadd _ _ _ | .gfdbl _ _ | .gflog _ _ | .gfexp _ _ | .gfmul _ _ _ | .gfdiv _ _ _ => true
  | .gfinv _ _ | .gfmull _ _ _ | .gfdivl _ _ _ | .popc _ _ | .bwcalc _ _ | .bwlut _ _ => true
  | .setdim _ | .ldx _ _ | .stx _ _ | .ldy _ _ | .sty _ _ | .ldm _ _ _ | .stm _ _ _ => true
  | .cmraw | .cmcanon | .cmones _ _ => true

end Sys2Proof
end

