-- ==== Sys2Proof/Decode.lean ====
section
/-! DEFINITION. The decoder, total on 32-bit words (30_encoding.md R100), the encoder of the same tables
(R91, R95), the little-endian byte form of a word (R73, R103), the pseudo-instruction GFINIT (R102) and the
assembler text of a command (R101). -/

namespace Sys2Proof

/-- Why a word is illegal.  All three raise IllegalCmd (R97 to R100). -/
inductive Illegal where
  /-- The opcode byte is none of the 30 of R95 (R98). -/
  | unassignedOpcode
  /-- A "zero" field or a register field the command does not use is not 0 (R97). -/
  | unusedFieldNonzero
  /-- RDCSR names a CSR number above 6 (R99). -/
  | reservedCsr
  deriving DecidableEq, Repr

/-! ### The fields of a command word (R91) -/

/-- Bits 31:24. -/
def opField (w : Word) : BitVec 8 := w.extractLsb' 24 8
/-- Bits 23:20. -/
def rdField (w : Word) : Reg := w.extractLsb' 20 4
/-- Bits 19:16. -/
def raField (w : Word) : Reg := w.extractLsb' 16 4
/-- Bits 15:12. -/
def rbField (w : Word) : Reg := w.extractLsb' 12 4
/-- Bits 11:8. -/
def rcField (w : Word) : Reg := w.extractLsb' 8 4
/-- Bits 7:0, the zero field of format R. -/
def lowField (w : Word) : BitVec 8 := w.extractLsb' 0 8
/-- Bits 15:0. -/
def immField (w : Word) : Imm16 := w.extractLsb' 0 16

/-! ### The formats: each answers the command if every unused field is 0 (R97) -/

/-- The command if `ok`, the refusal of R97 otherwise. -/
def ifUnusedZero (ok : Bool) (i : Instr) : Except Illegal Instr :=
  if ok then .ok i else .error .unusedFieldNonzero

/-- Format Z: bits 23:0 are 0. -/
def asZ (w : Word) (i : Instr) : Except Illegal Instr :=
  ifUnusedZero (w.extractLsb' 0 24 == 0) i

/-- Format I with `rd` and `imm16`: bits 19:16 are 0. -/
def asRdImm (w : Word) (f : Reg → Imm16 → Instr) : Except Illegal Instr :=
  ifUnusedZero (raField w == 0) (f (rdField w) (immField w))

/-- Format I with `imm16` alone: bits 19:16 and the unused `rd` are 0. -/
def asImm (w : Word) (f : Imm16 → Instr) : Except Illegal Instr :=
  ifUnusedZero (raField w == 0 && rdField w == 0) (f (immField w))

/-- Format R with `rd`, `ra`. -/
def asRdRa (w : Word) (f : Reg → Reg → Instr) : Except Illegal Instr :=
  ifUnusedZero (lowField w == 0 && rbField w == 0 && rcField w == 0) (f (rdField w) (raField w))

/-- Format R with `rd`, `ra`, `rb`. -/
def asRdRaRb (w : Word) (f : Reg → Reg → Reg → Instr) : Except Illegal Instr :=
  ifUnusedZero (lowField w == 0 && rcField w == 0) (f (rdField w) (raField w) (rbField w))

/-- Format R with `ra`, `rb` (STX, STY). -/
def asRaRb (w : Word) (f : Reg → Reg → Instr) : Except Illegal Instr :=
  ifUnusedZero (lowField w == 0 && rdField w == 0 && rcField w == 0) (f (raField w) (rbField w))

/-- Format R with `ra`, `rb`, `rc` (STM). -/
def asRaRbRc (w : Word) (f : Reg → Reg → Reg → Instr) : Except Illegal Instr :=
  ifUnusedZero (lowField w == 0 && rdField w == 0) (f (raField w) (rbField w) (rcField w))

/-- The last check of R100: an RDCSR whose CSR number is reserved is illegal. -/
def checkCsr (i : Instr) : Except Illegal Instr :=
  if i.wellFormed then .ok i else .error .reservedCsr

/-- `decode(w)` of R100, by the opcode map of R95. -/
def decode (w : Word) : Except Illegal Instr :=
  match (opField w).toNat with
  | 0x00 => asZ w .nop
  | 0x01 => asRdImm w .li
  | 0x02 => asRdRa w .mov
  | 0x03 => (asRdImm w .rdcsr).bind checkCsr
  | 0x10 => asImm w .gfbuild
  | 0x11 => asZ w .mdbuild
  | 0x12 => asZ w .invbuild
  | 0x13 => asZ w .wtbuild
  | 0x20 => asRdRaRb w .gfadd
  | 0x21 => asRdRa w .gfdbl
  | 0x22 => asRdRa w .gflog
  | 0x23 => asRdRa w .gfexp
  | 0x24 => asRdRaRb w .gfmul
  | 0x25 => asRdRaRb w .gfdiv
  | 0x26 => asRdRa w .gfinv
  | 0x27 => asRdRaRb w .gfmull
  | 0x28 => asRdRaRb w .gfdivl
  | 0x30 => asRdRa w .popc
  | 0x31 => asRdRa w .bwcalc
  | 0x32 => asRdRa w .bwlut
  | 0x40 => asImm w .setdim
  | 0x41 => asRdRa w .ldx
  | 0x42 => asRaRb w .stx
  | 0x43 => asRdRa w .ldy
  | 0x44 => asRaRb w .sty
  | 0x45 => asRdRaRb w .ldm
  | 0x46 => asRaRbRc w .stm
  | 0x50 => asZ w .cmraw
  | 0x51 => asZ w .cmcanon
  | 0x52 => asRdRa w .cmones
  | _ => .error .unassignedOpcode

/-! ### The encoder -/

/-- Format R: `op || rd || ra || rb || rc || 0` (R91). -/
def packR (op : BitVec 8) (rd ra rb rc : Reg) : Word := op ++ rd ++ ra ++ rb ++ rc ++ 0#8

/-- Format I: `op || rd || 0 || imm16` (R91). -/
def packI (op : BitVec 8) (rd : Reg) (imm : Imm16) : Word := op ++ rd ++ 0#4 ++ imm

/-- Format Z: `op || 0` (R91). -/
def packZ (op : BitVec 8) : Word := op ++ 0#24

/-- The word of a command: the opcode of R95, its fields where R91 puts them, 0 everywhere else. -/
def encode : Instr → Word
  | .nop => packZ 0x00
  | .li rd imm => packI 0x01 rd imm
  | .mov rd ra => packR 0x02 rd ra 0 0
  | .rdcsr rd csr => packI 0x03 rd csr
  | .gfbuild idx => packI 0x10 0 idx
  | .mdbuild => packZ 0x11
  | .invbuild => packZ 0x12
  | .wtbuild => packZ 0x13
  | .gfadd rd ra rb => packR 0x20 rd ra rb 0
  | .gfdbl rd ra => packR 0x21 rd ra 0 0
  | .gflog rd ra => packR 0x22 rd ra 0 0
  | .gfexp rd ra => packR 0x23 rd ra 0 0
  | .gfmul rd ra rb => packR 0x24 rd ra rb 0
  | .gfdiv rd ra rb => packR 0x25 rd ra rb 0
  | .gfinv rd ra => packR 0x26 rd ra 0 0
  | .gfmull rd ra rb => packR 0x27 rd ra rb 0
  | .gfdivl rd ra rb => packR 0x28 rd ra rb 0
  | .popc rd ra => packR 0x30 rd ra 0 0
  | .bwcalc rd ra => packR 0x31 rd ra 0 0
  | .bwlut rd ra => packR 0x32 rd ra 0 0
  | .setdim imm => packI 0x40 0 imm
  | .ldx rd ra => packR 0x41 rd ra 0 0
  | .stx ra rb => packR 0x42 0 ra rb 0
  | .ldy rd ra => packR 0x43 rd ra 0 0
  | .sty ra rb => packR 0x44 0 ra rb 0
  | .ldm rd ra rb => packR 0x45 rd ra rb 0
  | .stm ra rb rc => packR 0x46 0 ra rb rc
  | .cmraw => packZ 0x50
  | .cmcanon => packZ 0x51
  | .cmones rd ra => packR 0x52 rd ra 0 0

/-! ### Words stored as bytes (R73, R103) -/

/-- The four bytes of a stored word, little-endian: byte 0 is bits 7:0. -/
def wordBytes (w : Word) : List Byte :=
  [w.extractLsb' 0 8, w.extractLsb' 8 8, w.extractLsb' 16 8, w.extractLsb' 24 8]

/-- The word that four bytes in storage order stand for; a command is exactly four bytes (R90). -/
def wordOfBytes : List Byte → Option Word
  | [b0, b1, b2, b3] => some (b3 ++ b2 ++ b1 ++ b0)
  | _ => none

/-- The command stored as four bytes in storage order. -/
def decodeBytes (bs : List Byte) : Option Instr :=
  (wordOfBytes bs).bind fun w => (decode w).toOption

/-- The host's reading of an opcode-table row: bits above `nbits` are 0, the one word is stored in the
byte order of R103 and given to the decoder. -/
def decodeTableWord (nbits w : Nat) : Option Instr :=
  decodeBytes (wordBytes (BitVec.ofNat 32 (w % 2 ^ nbits)))

/-! ### Assembler (R101, R102) -/

/-- `GFINIT idx` (R102): the document's one-time initialisation as four commands. -/
def gfinit (idx : Imm16) : List Instr := [.gfbuild idx, .mdbuild, .invbuild, .wtbuild]

/-- A scalar register as assembler text. -/
def Instr.regText (r : Reg) : String := "s" ++ toString r.toNat

/-- One line of assembler text (R101): the mnemonic, then the operands the command uses, in the order
`rd, ra, rb, rc, imm`; SETDIM is written with `k` and `m`. -/
def Instr.text : Instr → String
  | .nop => "NOP"
  | .li rd imm => "LI " ++ regText rd ++ ", " ++ toString imm.toNat
  | .mov rd ra => "MOV " ++ regText rd ++ ", " ++ regText ra
  | .rdcsr rd csr => "RDCSR " ++ regText rd ++ ", " ++ toString csr.toNat
  | .gfbuild idx => "GFBUILD " ++ toString idx.toNat
  | .mdbuild => "MDBUILD"
  | .invbuild => "INVBUILD"
  | .wtbuild => "WTBUILD"
  | .gfadd rd ra rb => "GFADD " ++ regText rd ++ ", " ++ regText ra ++ ", " ++ regText rb
  | .gfdbl rd ra => "GFDBL " ++ regText rd ++ ", " ++ regText ra
  | .gflog rd ra => "GFLOG " ++ regText rd ++ ", " ++ regText ra
  | .gfexp rd ra => "GFEXP " ++ regText rd ++ ", " ++ regText ra
  | .gfmul rd ra rb => "GFMUL " ++ regText rd ++ ", " ++ regText ra ++ ", " ++ regText rb
  | .gfdiv rd ra rb => "GFDIV " ++ regText rd ++ ", " ++ regText ra ++ ", " ++ regText rb
  | .gfinv rd ra => "GFINV " ++ regText rd ++ ", " ++ regText ra
  | .gfmull rd ra rb => "GFMULL " ++ regText rd ++ ", " ++ regText ra ++ ", " ++ regText rb
  | .gfdivl rd ra rb => "GFDIVL " ++ regText rd ++ ", " ++ regText ra ++ ", " ++ regText rb
  | .popc rd ra => "POPC " ++ regText rd ++ ", " ++ regText ra
  | .bwcalc rd ra => "BWCALC " ++ regText rd ++ ", " ++ regText ra
  | .bwlut rd ra => "BWLUT " ++ regText rd ++ ", " ++ regText ra
  | .setdim imm => "SETDIM " ++ toString (imm.toNat % 256) ++ ", " ++ toString (imm.toNat / 256)
  | .ldx rd ra => "LDX " ++ regText rd ++ ", " ++ regText ra
  | .stx ra rb => "STX " ++ regText ra ++ ", " ++ regText rb
  | .ldy rd ra => "LDY " ++ regText rd ++ ", " ++ regText ra
  | .sty ra rb => "STY " ++ regText ra ++ ", " ++ regText rb
  | .ldm rd ra rb => "LDM " ++ regText rd ++ ", " ++ regText ra ++ ", " ++ regText rb
  | .stm ra rb rc => "STM " ++ regText ra ++ ", " ++ regText rb ++ ", " ++ regText rc
  | .cmraw => "CMRAW"
  | .cmcanon => "CMCANON"
  | .cmones rd ra => "CMONES " ++ regText rd ++ ", " ++ regText ra

end Sys2Proof
end

