-- ==== Sys2Proof/Config.lean ====
section
/-! DEFINITION. The implementation parameters (00_scope.md R13) and the free values: what the spec calls
unspecified is an opaque constant here, so that nothing in Lean can know it. -/

namespace Sys2Proof.Config

/-- The number of scalar registers, `NSREG`. -/
abbrev numRegs : Nat := 16

/-- The sentinel stored at `LOG[0]`, `LOG0` (R13, R49). -/
def logZero : BitVec 16 := 512#16

/-- `ANTILOG_LEN`: the entries of ANTILOG (R13, R50). -/
def antilogLen : Nat := 1025

/-- `VEC_LEN`: the entries of X and of Y (R13, R58, R59); also the entries of LOG, INV and WEIGHT and the
rows and columns of MUL and DIV. -/
def vecLen : Nat := 256

/-- `MAT_LEN`: the bytes of the matrix buffer (R13, R61). -/
def matLen : Nat := 16384

/-- The default value of the open parameters `NPOLY` and `CATALOG` (R122): the 16 entries that pass
GFBUILD, in ascending order.  A machine's own catalog is the field `catalog` of `State`; its length is
`NPOLY`.  DESIGN CHOICE (log entry 3). -/
def defaultCatalog : List Byte :=
  [0x8E, 0x95, 0x96, 0xA6, 0xAF, 0xB1, 0xB2, 0xB4, 0xB8, 0xC3, 0xC6, 0xD4, 0xE1, 0xE7, 0xF3, 0xFA]

/-- `DEFAULT_POLY_INDEX` (R13, D13): open, and used by no command; only host software names it.  DESIGN CHOICE
(log entry 10). -/
opaque defaultPolyIndex : Imm16

/-- The nine storage spaces (20_memory.md R70). -/
inductive Space where
  | log | antilog | mul | div | inv | weight | x | y | mat
  deriving DecidableEq, Repr

/-- FREE VALUE.  What an element of a byte-wide space holds while nothing specified stands there (R53, R57,
R66, R67): any byte, the same at every read until the era changes.  Arguments: the space, the era (a
counter of `State`) and the element index.  DESIGN CHOICE (log entry 1). -/
opaque unspecifiedByte : Space → Nat → Nat → Byte

/-- FREE VALUE.  The same for an element of LOG, which is 16 bits wide.  Arguments: the era, the index.
DESIGN CHOICE (log entry 1). -/
opaque unspecifiedLog : Nat → Nat → BitVec 16

end Sys2Proof.Config
end

