-- ==== Sys2Proof/Machine/State.lean ====
section
/-! DEFINITION. The state of the engine as plain data (10_state.md R30 to R67), what the host has yet to
present to it (R10, R11, R34), the six faults of 60_exceptions.md R271, and the reasons a step of the model
can stop. -/

namespace Sys2Proof.Machine

/-- A storage space: the elements written so far, as (index, value) pairs in one canonical form, indices
strictly rising.  An index that is not listed has no stored value; a read there answers the free value of
`Config` (R66, R67).  `Memory 8` is a list of `Host.Cell`.  DESIGN CHOICE (log entry 8). -/
abbrev Memory (w : Nat) := List (Nat × BitVec w)

/-- The engine's six faults (R271).  Raising one is no stop of the model: fault entry (R275) is a next state. -/
inductive EngineFault where
  /-- code 1, GFBUILD: the catalog index, or the polynomial it names, is unusable (R124) -/
  | cfgPoly
  /-- code 2, SETDIM: `K` or `M` is 0 or `K + M > 256` (R186) -/
  | cfgDim
  /-- code 3, GFDIV, GFDIVL, GFINV, CMRAW, CMCANON: a divisor is 0 -/
  | divZero
  /-- code 4: a ready flag the command requires is 0 (R273) -/
  | notReady
  /-- code 5: a register operand is outside the range the command accepts (R274) -/
  | operandRange
  /-- code 6: the word does not decode (R97 to R99) -/
  | illegalCmd
  deriving DecidableEq, Repr

/-- Why a step of the MODEL stops with a fault. -/
inductive Fault where
  /-- A matrix command (LDM, STM, CMRAW, CMCANON, CMONES) would access an element of MAT at index 16384 or
  above, which does not exist (R61, R70).  Raised only in a state whose DIM is ready but is not a legal pair
  (R48 excludes it), so in no state a run reaches.  SAFE: the model stops where the spec describes no machine.
  DESIGN CHOICE (log entry 5). -/
  | noSuchElement
  deriving DecidableEq, Repr

/-- Why an instruction has no meaning. -/
inductive Refusal where
  /-- The instruction is not modelled.  Raised by no arm of `exec`.  SAFE: nothing is claimed of it. -/
  | notModelled (mnemonic : String)
  deriving DecidableEq, Repr

/-- Why the rule of a command ends early: it raises a fault of the engine, or the model stops. -/
inductive Stop where
  | engine (f : EngineFault)
  | model (f : Fault)
  deriving DecidableEq, Repr

/-- What the host does to the engine (R11): it presents one command word, or it asserts reset (R300). -/
inductive HostInput where
  | command (w : Word)
  | reset
  deriving DecidableEq, Repr

/-- The architectural state of R30, the parameter `CATALOG` of R13, and what belongs to the model alone. -/
structure State where
  /-- `s0` to `s15` (R31) -/
  regs : Vector Word Config.numRegs
  /-- CSR 0, STATUS (R38) -/
  status : Word
  /-- CSR 1, POLYSEL (R39) -/
  polysel : Word
  /-- CSR 2, POLY (R40) -/
  poly : Word
  /-- CSR 3, DIM (R48) -/
  dim : Word
  /-- CSR 4, SCORE (R41) -/
  score : Word
  /-- CSR 5, FCODE (R42) -/
  fcode : Word
  /-- CSR 6, FCMD (R43) -/
  fcmd : Word
  /-- LOG (R49) -/
  log : Memory 16
  /-- ANTILOG (R50) -/
  antilog : Memory 8
  /-- MUL (R51), row by row: element `y*256 + x` is entry `x` of row `y` (R16) -/
  mul : List (Memory 8)
  /-- DIV (R52), row by row -/
  div : List (Memory 8)
  /-- INV (R53) -/
  inv : Memory 8
  /-- WEIGHT (R54) -/
  weight : Memory 8
  /-- X (R58) -/
  x : Memory 8
  /-- Y (R59) -/
  y : Memory 8
  /-- MAT (R61) -/
  mat : Memory 8
  /-- The open parameters `NPOLY` and `CATALOG` (R13, R65): nothing changes them (DESIGN CHOICE, log entry 3) -/
  catalog : List Byte
  /-- What the host has yet to present, the next first (R10, R34).  Not engine state (DESIGN CHOICE, log entry 2) -/
  pending : List HostInput
  /-- The model's own: the era of the free values in X, Y and MAT, the number of resets so far (R300; DESIGN
  CHOICE, log entry 1) -/
  resets : Nat
  /-- The model's own: the era of the free values in the tables, advanced by a reset and by a GFBUILD (R57; DESIGN
  CHOICE, log entry 1) -/
  tableEra : Nat
  deriving DecidableEq, Repr

/-- The machine right after reset (R66, R300): every register and CSR 0, no element of any space written,
the default catalog (R122), nothing presented yet. -/
def State.reset : State where
  regs := Vector.replicate Config.numRegs 0
  status := 0
  polysel := 0
  poly := 0
  dim := 0
  score := 0
  fcode := 0
  fcmd := 0
  log := []
  antilog := []
  mul := []
  div := []
  inv := []
  weight := []
  x := []
  y := []
  mat := []
  catalog := Config.defaultCatalog
  pending := []
  resets := 0
  tableEra := 0

end Sys2Proof.Machine
end

