-- ==== Sys2Proof/Machine/Flags.lean ====
section
/-! DEFINITION. STATUS (10_state.md R38): its fields, reading and writing one of them.  The engine has no
arithmetic flags and no condition codes (R36). -/

namespace Sys2Proof.Machine

/-- The fields of STATUS (R38). -/
inductive Flag where
  | fieldRdy | mulDivRdy | invRdy | weightRdy | dimRdy | fault
  deriving DecidableEq, Repr

/-- The bit of STATUS that holds a field (R38). -/
def Flag.bit : Flag → Nat
  | .fieldRdy => 0
  | .mulDivRdy => 1
  | .invRdy => 2
  | .weightRdy => 3
  | .dimRdy => 4
  | .fault => 7

/-- Bit `i` of a word becomes `b`; the other bits stay. -/
def writeBit (w : Word) (i : Nat) (b : Bool) : Word :=
  if b then w ||| (1#32 <<< i) else w &&& ~~~(1#32 <<< i)

/-- `STATUS.<f>`. -/
def State.flag (s : State) (f : Flag) : Bool := s.status.getLsbD f.bit

/-- `STATUS.<f> <- b`; no other bit of STATUS changes. -/
def State.setFlag (s : State) (f : Flag) (b : Bool) : State :=
  { s with status := writeBit s.status f.bit b }

end Sys2Proof.Machine
end

