-- ==== Sys2Proof/Machine/Ops.lean ====
section
/-! DEFINITION. The named operations: the storage spaces (20_memory.md R70 to R79), the scalar registers
(10_state.md R31, R32), the dimensions (R48), fault entry (60_exceptions.md R275) and reset
(70_reset_and_hazards.md R300). -/

namespace Sys2Proof.Machine

/-- The outcome of a step. -/
abbrev Result := Host.Outcome State Fault Refusal

/-! ### Storage spaces -/

/-- The stored value at an index, if anything was written there. -/
def Memory.read? {w : Nat} : Memory w → Nat → Option (BitVec w)
  | [], _ => none
  | (j, v) :: rest, i => if j = i then some v else Memory.read? rest i

/-- `MemWrite` of consecutive elements (R16, R74): index `start` takes the first value of `vs`, and so on;
every other index keeps what it had.  One element is `m.store i [v]`. -/
def Memory.store {w : Nat} (m : Memory w) (start : Nat) (vs : List (BitVec w)) : Memory w :=
  m.filter (fun c => c.1 < start) ++ (List.range' start vs.length).zip vs
    ++ m.filter (fun c => start + vs.length ≤ c.1)

/-- The canonical form of a space of `size` elements: indices strictly rising, none outside the space. -/
def Memory.wf {w : Nat} (size : Nat) : Memory w → Bool
  | [] => true
  | [c] => c.1 < size
  | c :: d :: rest => c.1 < d.1 && Memory.wf size (d :: rest)

/-- `LOG[v]`. -/
def State.logAt (s : State) (v : Byte) : BitVec 16 :=
  (Memory.read? s.log v.toNat).getD (Config.unspecifiedLog s.tableEra v.toNat)

/-- `ANTILOG[i]`. -/
def State.antilogAt (s : State) (i : Nat) : Byte :=
  (Memory.read? s.antilog i).getD (Config.unspecifiedByte .antilog s.tableEra i)

/-- Element `[y][x]` of a table kept row by row. -/
def readRow? (rows : List (Memory 8)) (y x : Byte) : Option Byte :=
  (rows[y.toNat]?).bind fun row => Memory.read? row x.toNat

/-- `MUL[y][x]`, element `y*256 + x` of MUL (R16, R19). -/
def State.mulAt (s : State) (y x : Byte) : Byte :=
  (readRow? s.mul y x).getD (Config.unspecifiedByte .mul s.tableEra (y.toNat * 256 + x.toNat))

/-- `DIV[y][x]`, element `y*256 + x` of DIV: the quotient `x / y` (R16, R19). -/
def State.divAt (s : State) (y x : Byte) : Byte :=
  (readRow? s.div y x).getD (Config.unspecifiedByte .div s.tableEra (y.toNat * 256 + x.toNat))

/-- `INV[x]`. -/
def State.invAt (s : State) (x : Byte) : Byte :=
  (Memory.read? s.inv x.toNat).getD (Config.unspecifiedByte .inv s.tableEra x.toNat)

/-- `WEIGHT[v]`. -/
def State.weightAt (s : State) (v : Byte) : Byte :=
  (Memory.read? s.weight v.toNat).getD (Config.unspecifiedByte .weight s.tableEra v.toNat)

/-- `X[i]`. -/
def State.xAt (s : State) (i : Nat) : Byte :=
  (Memory.read? s.x i).getD (Config.unspecifiedByte .x s.resets i)

/-- `Y[i]`. -/
def State.yAt (s : State) (i : Nat) : Byte :=
  (Memory.read? s.y i).getD (Config.unspecifiedByte .y s.resets i)

/-- `MAT[i]`, element `i` of the flat buffer. -/
def State.matAt (s : State) (i : Nat) : Byte :=
  (Memory.read? s.mat i).getD (Config.unspecifiedByte .mat s.resets i)

/-- `X[i] <- v`. -/
def State.setX (s : State) (i : Nat) (v : Byte) : State := { s with x := s.x.store i [v] }

/-- `Y[i] <- v`. -/
def State.setY (s : State) (i : Nat) (v : Byte) : State := { s with y := s.y.store i [v] }

/-- `MAT[start] <- ` the first of `vs`, and so on. -/
def State.storeMat (s : State) (start : Nat) (vs : List Byte) : State :=
  { s with mat := s.mat.store start vs }

/-- GFBUILD's writes to LOG and ANTILOG from index 0 on, with the polynomial they are built from (R123).  The
tables derived from the old ones hold unspecified values from here on (R57): a new era. -/
def State.putField (s : State) (log : List (BitVec 16)) (antilog : List Byte) (polysel poly : Word) : State :=
  { s with
    log := s.log.store 0 log
    antilog := s.antilog.store 0 antilog
    polysel := polysel
    poly := poly
    tableEra := s.tableEra + 1 }

/-- All of MUL and DIV, row by row (R128). -/
def State.putMulDiv (s : State) (mul div : List (Memory 8)) : State := { s with mul := mul, div := div }

/-- INV from index 1 on; `INV[0]` keeps what it had (R130). -/
def State.putInv (s : State) (entries : List Byte) : State := { s with inv := s.inv.store 1 entries }

/-- WEIGHT from index 0 on (R131). -/
def State.putWeight (s : State) (entries : List Byte) : State := { s with weight := s.weight.store 0 entries }

/-! ### Scalar registers -/

/-- `s[r]`, all 32 bits (R16, R32). -/
def State.reg (s : State) (r : Reg) : Word := s.regs[r.toNat]'r.isLt

/-- `s[r] <- v` (R32).  No register is hard-wired (R31). -/
def State.setReg (s : State) (r : Reg) (v : Word) : State :=
  { s with regs := s.regs.set r.toNat v r.isLt }

/-! ### Dimensions -/

/-- `DIM.K`, bits 7:0: the number of columns (R48). -/
def State.k (s : State) : Nat := (s.dim.extractLsb' 0 8).toNat

/-- `DIM.M`, bits 15:8: the number of rows (R48). -/
def State.m (s : State) : Nat := (s.dim.extractLsb' 8 8).toNat

/-- `DIM <- v` (R186). -/
def State.setDim (s : State) (v : Word) : State := { s with dim := v }

/-- `SCORE <- v` (R210). -/
def State.setScore (s : State) (v : Word) : State := { s with score := v }

/-- `MAT[r][c]` is element `r*K + c` (R16, R61, R77). -/
def State.matIndex (s : State) (r c : Nat) : Nat := r * s.k + c

/-! ### Fault entry (R275) -/

/-- The code of a fault, as FCODE shows it (R271). -/
def EngineFault.code : EngineFault → Word
  | .cfgPoly => 1
  | .cfgDim => 2
  | .divZero => 3
  | .notReady => 4
  | .operandRange => 5
  | .illegalCmd => 6

/-- `raise f(cmd)`: exactly these three writes (R275); no vector, no handler, no saved program counter. -/
def raise (f : EngineFault) (cmd : Word) (s : State) : State :=
  { s with fcode := f.code, fcmd := cmd }.setFlag .fault true

/-- The end of a command: its effects, or the fault entry it raises, or a stop of the model.  `r` is what the
command's rule answers from `s`, and `cmd` its word. -/
def finish (cmd : Word) (s : State) : Except Stop State → Result
  | .ok t => .next t
  | .error (.engine f) => .next (raise f cmd s)
  | .error (.model f) => .fault f

/-- A check of a command's rule: if it fails, the command raises `f`. -/
def check (ok : Bool) (f : EngineFault) : Except Stop Unit :=
  if ok then .ok () else .error (.engine f)

/-- NotReady unless the condition on the ready flags holds (R273). -/
def needReady (ready : Bool) : Except Stop Unit := check ready .notReady

/-- An access to MAT at indices below `bound` exists only if `bound ≤ 16384` (R61, R72). -/
def needElements (bound : Nat) : Except Stop Unit :=
  if bound ≤ Config.matLen then .ok () else .error (.model .noSuchElement)

/-! ### The way out of a fault (R278): reset (R300) -/

/-- Reset of the engine: registers and CSRs 0, every space unspecified.  The catalog is a parameter (R65), and
what the host has yet to present is the host's. -/
def State.resetEngine (s : State) : State :=
  { State.reset with
    catalog := s.catalog
    pending := s.pending
    resets := s.resets + 1
    tableEra := s.tableEra + 1 }

/-! ### What the host has yet to present -/

/-- The inputs that remain to be presented. -/
def State.withPending (s : State) (rest : List HostInput) : State := { s with pending := rest }

/-- A command word laid before everything the host has yet to present. -/
def State.presentNext (s : State) (cmd : Word) : State := s.withPending (.command cmd :: s.pending)

end Sys2Proof.Machine
end

