-- ==== Sys2Proof/Machine/Operands.lean ====
section
/-! DEFINITION. The operand forms: a field value (41_field_ops.md R140), an index (43_vector_matrix_access.md
R187, R193), a number with an upper bound (R151, R215), a row and column (R191), the two halves of SETDIM's
immediate (30_encoding.md R93).  Every register operand is the full 32-bit content (R94, R165 (f)). -/

namespace Sys2Proof.Machine

/-- A register operand in `0..bound`, else OperandRange (R274). -/
def State.upTo (s : State) (r : Reg) (bound : Nat) : Except Stop Nat := do
  check ((s.reg r).toNat ≤ bound) .operandRange
  pure (s.reg r).toNat

/-- `fv(r)`: a field value, `0..255`, else OperandRange (R140). -/
def State.fv (s : State) (r : Reg) : Except Stop Byte := do
  let n ← s.upTo r 255
  pure (BitVec.ofNat 8 n)

/-- A row and a column, `0..M-1` and `0..K-1`, else OperandRange (R191, R192). -/
def State.rowCol (s : State) (ra rb : Reg) : Except Stop (Nat × Nat) := do
  check ((s.reg ra).toNat < s.m && (s.reg rb).toNat < s.k) .operandRange
  pure ((s.reg ra).toNat, (s.reg rb).toNat)

/-- `imm16[7:0]`, SETDIM's `K` (R93). -/
def immK (imm : Imm16) : Byte := imm.extractLsb' 0 8

/-- `imm16[15:8]`, SETDIM's `M` (R93). -/
def immM (imm : Imm16) : Byte := imm.extractLsb' 8 8

end Sys2Proof.Machine
end

