-- ==== Sys2Proof/Machine/Access.lean ====
section
/-! DEFINITION. Dimensions, vectors and matrix: SETDIM, LDX, STX, LDY, STY, LDM, STM
(43_vector_matrix_access.md). -/

namespace Sys2Proof.Machine

/-- A legal pair of dimensions: `K, M ≥ 1` and `K + M ≤ 256` (R48, R186). -/
def legalDims (k m : Nat) : Bool := 1 ≤ k && 1 ≤ m && k + m ≤ 256

/-- SETDIM (R186): an illegal pair raises CfgDim; MAT, X, Y and SCORE stay as they are. -/
def execSetdim (imm : Imm16) (s : State) : Result :=
  finish (encode (.setdim imm)) s do
    check (legalDims (immK imm).toNat (immM imm).toNat) .cfgDim
    pure ((s.setDim ((immM imm ++ immK imm).setWidth 32)).setFlag .dimRdy true)

/-- LDX (R187). -/
def execLdx (rd ra : Reg) (s : State) : Result :=
  finish (encode (.ldx rd ra)) s do
    let i ← s.upTo ra 255
    pure (s.setReg rd ((s.xAt i).setWidth 32))

/-- STX (R188): `X[s[ra]] <- s[rb]`. -/
def execStx (ra rb : Reg) (s : State) : Result :=
  finish (encode (.stx ra rb)) s do
    let i ← s.upTo ra 255
    let v ← s.fv rb
    pure (s.setX i v)

/-- LDY (R189). -/
def execLdy (rd ra : Reg) (s : State) : Result :=
  finish (encode (.ldy rd ra)) s do
    let i ← s.upTo ra 255
    pure (s.setReg rd ((s.yAt i).setWidth 32))

/-- STY (R190): `Y[s[ra]] <- s[rb]`. -/
def execSty (ra rb : Reg) (s : State) : Result :=
  finish (encode (.sty ra rb)) s do
    let i ← s.upTo ra 255
    let v ← s.fv rb
    pure (s.setY i v)

/-- LDM (R191): the element at row `s[ra]`, column `s[rb]`. -/
def execLdm (rd ra rb : Reg) (s : State) : Result :=
  finish (encode (.ldm rd ra rb)) s do
    needReady (s.flag .dimRdy)
    let (r, c) ← s.rowCol ra rb
    needElements (s.matIndex r c + 1)
    pure (s.setReg rd ((s.matAt (s.matIndex r c)).setWidth 32))

/-- STM (R192): `MAT[s[ra]][s[rb]] <- s[rc]`. -/
def execStm (ra rb rc : Reg) (s : State) : Result :=
  finish (encode (.stm ra rb rc)) s do
    needReady (s.flag .dimRdy)
    let (r, c) ← s.rowCol ra rb
    let v ← s.fv rc
    needElements (s.matIndex r c + 1)
    pure (s.storeMat (s.matIndex r c) [v])

end Sys2Proof.Machine
end

