-- ==== Sys2Proof/Machine/FieldTables.lean ====
section
/-! DEFINITION. Table construction: GFBUILD, MDBUILD, INVBUILD, WTBUILD (40_field_tables.md), with the doubling
of 41_field_ops.md R142 and the weight function of 42_bitweight.md R171, which they use. -/

namespace Sys2Proof.Machine

/-! ### Doubling and the polynomial (R120, R142) -/

/-- `P = (E << 1) OR 1` of catalog entry `E`, 9 bits (R120). -/
def polyOf (e : Byte) : BitVec 9 := (e.setWidth 9 <<< 1) ||| 1#9

/-- Doubling of `a` with the 9-bit polynomial `p`: shift left one bit, and if the result exceeds 255, XOR
with `p` (R142).  Nine bits: the result is a field value whenever bit 8 of `p` is 1. -/
def dbl (p : BitVec 9) (a : Byte) : BitVec 9 :=
  let t := a.setWidth 9 <<< 1
  if t > 255#9 then t ^^^ p else t

/-- The byte that doubling leaves. -/
def dblByte (p : BitVec 9) (a : Byte) : Byte := (dbl p a).setWidth 8

/-- `a`, its double, the double of that, …: `n` values. -/
def doublings (p : BitVec 9) : Nat → Byte → List Byte
  | 0, _ => []
  | n + 1, a => a :: doublings p n (dblByte p a)

/-- `A[0..254]` of R123: 1 doubled 0 to 254 times. -/
def cycle (p : BitVec 9) : List Byte := doublings p 255 1#8

/-- The set of values in a list of bytes, as the bits of a number. -/
def valuesSeen (a : List Byte) : Nat := a.foldl (fun seen v => seen ||| (1 <<< v.toNat)) 0

/-- R124 (c): the values seen in `A[0..254]` are exactly 1..255.  `A` has 255 entries, so each value occurs
exactly once (`isFullCycle_iff_count` in Laws). -/
def isFullCycle (a : List Byte) : Bool := valuesSeen a == 2 ^ 256 - 2

/-! ### The tables (R49 to R54) -/

/-- The 256 entries GFBUILD leaves in LOG: the sentinel at 0, and `LOG[A[j]] = j` (R123). -/
def logEntries (a : List Byte) : List (BitVec 16) :=
  (List.range 256).map fun v =>
    if v = 0 then Config.logZero else BitVec.ofNat 16 (a.idxOf (BitVec.ofNat 8 v))

/-- The 1025 entries GFBUILD leaves in ANTILOG: the cycle, its wrap at 255..509, and zeros (R50, R123). -/
def antilogEntries (a : List Byte) : List Byte :=
  a ++ a ++ List.replicate (Config.antilogLen - (a.length + a.length)) 0#8

/-- A row of a two-dimensional table from its 256 entries. -/
def tableRow (f : Nat → Byte) : Memory 8 :=
  Memory.store [] 0 ((List.range 256).map f)

/-- The rows MDBUILD leaves in MUL (R128): `MUL[y][x] = ANTILOG[LOG[x] + LOG[y]]`, and 0 where `y` or `x` is 0. -/
def State.mulRows (s : State) : List (Memory 8) :=
  (List.range 256).map fun y => tableRow fun x =>
    if y = 0 ∨ x = 0 then 0#8
    else s.antilogAt ((s.logAt (BitVec.ofNat 8 x)).toNat + (s.logAt (BitVec.ofNat 8 y)).toNat)

/-- The rows MDBUILD leaves in DIV (R128): `DIV[y][x] = ANTILOG[LOG[x] + (255 - LOG[y])]`, and 0 where `y` or
`x` is 0. -/
def State.divRows (s : State) : List (Memory 8) :=
  (List.range 256).map fun y => tableRow fun x =>
    if y = 0 ∨ x = 0 then 0#8
    else s.antilogAt ((s.logAt (BitVec.ofNat 8 x)).toNat + (255 - (s.logAt (BitVec.ofNat 8 y)).toNat))

/-- `popcount(b)` (R170). -/
def popcount (b : Byte) : Nat := ((List.range 8).map fun i => (b.getLsbD i).toNat).sum

/-- `n` rounds of the loop of R171: add the popcount of `cur`, then `cur <- MUL[2][cur]`. -/
def State.weightLoop (s : State) : Nat → Byte → Nat
  | 0, _ => 0
  | n + 1, cur => popcount cur + s.weightLoop n (s.mulAt 2 cur)

/-- `weight(v)` (R171): the popcounts of `v, 2v, …, 128v`. -/
def State.weightOf (s : State) (v : Byte) : Nat := s.weightLoop 8 v

/-! ### The commands -/

/-- GFBUILD (R123, R124): the checks in order, then LOG, ANTILOG, POLYSEL, POLY and the flags.  POLYSEL takes the low
8 bits of the index: R39 gives it no more (DEDUCED, log entry 4). -/
def execGfbuild (idx : Imm16) (s : State) : Result :=
  finish (encode (.gfbuild idx)) s <|
    match s.catalog[idx.toNat]? with
    | none => .error (.engine .cfgPoly)
    | some e => do
      let p := polyOf e
      let a := cycle p
      check (p.getLsbD 8) .cfgPoly
      check (isFullCycle a) .cfgPoly
      let t := s.putField (logEntries a) (antilogEntries a) ((idx.setWidth 8).setWidth 32) (p.setWidth 32)
      pure ((((t.setFlag .fieldRdy true).setFlag .mulDivRdy false).setFlag .invRdy false).setFlag .weightRdy false)

/-- MDBUILD (R128). -/
def execMdbuild (s : State) : Result :=
  finish (encode .mdbuild) s do
    needReady (s.flag .fieldRdy)
    pure ((s.putMulDiv s.mulRows s.divRows).setFlag .mulDivRdy true)

/-- INVBUILD (R130): `INV[x] <- DIV[x][1]` for `x` in 1..255; `INV[0]` is not written. -/
def execInvbuild (s : State) : Result :=
  finish (encode .invbuild) s do
    needReady (s.flag .mulDivRdy)
    let entries := (List.range' 1 255).map fun x => s.divAt (BitVec.ofNat 8 x) 1
    pure ((s.putInv entries).setFlag .invRdy true)

/-- WTBUILD (R131): `WEIGHT[v] <- weight(v)` for every `v`. -/
def execWtbuild (s : State) : Result :=
  finish (encode .wtbuild) s do
    needReady (s.flag .mulDivRdy)
    let entries := (List.range 256).map fun v => BitVec.ofNat 8 (s.weightOf (BitVec.ofNat 8 v))
    pure ((s.putWeight entries).setFlag .weightRdy true)

end Sys2Proof.Machine
end

