-- ==== Sys2Proof/Machine/BitWeight.lean ====
section
/-! DEFINITION. The BitWeight unit: POPC, BWCALC, BWLUT (42_bitweight.md). -/

namespace Sys2Proof.Machine

/-- POPC (R173): the popcount of a byte; needs no table. -/
def execPopc (rd ra : Reg) (s : State) : Result :=
  finish (encode (.popc rd ra)) s do
    let a ← s.fv ra
    pure (s.setReg rd (BitVec.ofNat 32 (popcount a)))

/-- BWCALC (R174): the weight, computed by the loop of R171 through row `MUL[2]`. -/
def execBwcalc (rd ra : Reg) (s : State) : Result :=
  finish (encode (.bwcalc rd ra)) s do
    needReady (s.flag .mulDivRdy)
    let v ← s.fv ra
    pure (s.setReg rd (BitVec.ofNat 32 (s.weightOf v)))

/-- BWLUT (R175): the weight, read from WEIGHT. -/
def execBwlut (rd ra : Reg) (s : State) : Result :=
  finish (encode (.bwlut rd ra)) s do
    needReady (s.flag .weightRdy)
    let v ← s.fv ra
    pure (s.setReg rd ((s.weightAt v).setWidth 32))

end Sys2Proof.Machine
end

