-- ==== Sys2Proof/Machine/Cauchy.lean ====
section
/-! DEFINITION. The CauchyMatrixBuilder: CMRAW, CMCANON, CMONES (44_cauchy_builder.md). -/

namespace Sys2Proof.Machine

/-! ### CMRAW -/

/-- R208: some live `X[x]` equals some live `Y[y]`, row 0 included. -/
def State.vectorsMeet (s : State) : Bool :=
  (List.range s.m).any fun y => (List.range s.k).any fun x => s.xAt x == s.yAt y

/-- The cell CMRAW writes at row `y ≥ 1`, column `x` (R206): `MUL[D][q]` with `D = Y[0] XOR X[x]` and
`q = INV[X[x] XOR Y[y]]`. -/
def State.rawCell (s : State) (y x : Nat) : Byte :=
  s.mulAt (s.yAt 0 ^^^ s.xAt x) (s.invAt (s.xAt x ^^^ s.yAt y))

/-- Row `y` of the raw matrix; row 0 is all 1 (R206). -/
def State.rawRow (s : State) (y : Nat) : List Byte :=
  (List.range s.k).map fun x => if y = 0 then 1#8 else s.rawCell y x

/-- CMRAW (R206): `MAT[0 .. M*K-1]`, every byte of it, and nothing else. -/
def execCmraw (s : State) : Result :=
  finish (encode .cmraw) s do
    needReady (s.flag .mulDivRdy && s.flag .invRdy && s.flag .dimRdy)
    check (!s.vectorsMeet) .divZero
    needElements (s.m * s.k)
    pure (s.storeMat 0 ((List.range s.m).flatMap s.rawRow))

/-! ### CMCANON -/

/-- Row `y` of MAT, columns `0..K-1`. -/
def State.matRow (s : State) (y : Nat) : List Byte :=
  (List.range s.k).map fun x => s.matAt (s.matIndex y x)

/-- `row[z] / p` for all `z` (R210): a simultaneous assignment, `p` latched before it. -/
def State.scaleRow (s : State) (p : Byte) (row : List Byte) : List Byte :=
  row.map (s.divAt p)

/-- The sum of the weights of a row. -/
def State.rowWeight (s : State) (row : List Byte) : Nat :=
  (row.map fun v => (s.weightAt v).toNat).sum

/-- A candidate pivot: the cell value and the total weight of the row divided by it. -/
structure Pivot where
  value : Byte
  total : Nat
  deriving DecidableEq, Repr

/-- The pivot chosen among candidates in ascending column order: a later one replaces the best so far only if
its total is strictly smaller, so the first minimum wins (R210, R212). -/
def bestPivot : Option Pivot → List Pivot → Option Pivot
  | best, [] => best
  | none, c :: cs => bestPivot (some c) cs
  | some b, c :: cs => bestPivot (some (if c.total < b.total then c else b)) cs

/-- Every cell of the row as a candidate pivot (R210, R213). -/
def State.candidates (s : State) (row : List Byte) : List Pivot :=
  row.map fun p => { value := p, total := s.rowWeight (s.scaleRow p row) }

/-- A row rescaled by its chosen pivot, with the total the pivot has (R210).  A row of no cells stays. -/
def State.canonRow (s : State) (row : List Byte) : List Byte × Nat :=
  match bestPivot none (s.candidates row) with
  | none => (row, 0)
  | some b => (s.scaleRow b.value row, b.total)

/-- The rows `1..M-1` of MAT (R210). -/
def State.lowerRows (s : State) : List (List Byte) :=
  (List.range' 1 (s.m - 1)).map s.matRow

/-- CMCANON (R210, R211): rows `1..M-1` rescaled, their totals summed in SCORE; row 0 neither read nor written. -/
def execCmcanon (s : State) : Result :=
  finish (encode .cmcanon) s do
    needReady (s.flag .mulDivRdy && s.flag .weightRdy && s.flag .dimRdy)
    needElements (s.m * s.k)
    check (s.lowerRows.all fun row => row.all fun v => v != 0) .divZero
    let rows := s.lowerRows.map s.canonRow
    let t := s.storeMat s.k (rows.flatMap fun r => r.1)
    pure (t.setScore (BitVec.ofNat 32 (rows.map fun r => r.2).sum))

/-! ### CMONES -/

/-- CMONES (R215): the weights of the first `s[ra]` columns of every row, row 0 included. -/
def execCmones (rd ra : Reg) (s : State) : Result :=
  finish (encode (.cmones rd ra)) s do
    needReady (s.flag .weightRdy && s.flag .dimRdy)
    let c ← s.upTo ra s.k
    needElements (s.m * s.k)
    let sum := ((List.range s.m).map fun r => s.rowWeight ((s.matRow r).take c)).sum
    pure (s.setReg rd (BitVec.ofNat 32 sum))

end Sys2Proof.Machine
end

