-- ==== Sys2Proof/Machine/FieldOps.lean ====
section
/-! DEFINITION. Field arithmetic: GFADD, GFDBL, GFLOG, GFEXP, GFMUL, GFDIV, GFINV, GFMULL, GFDIVL
(41_field_ops.md).  Checks stand in the order of 60_exceptions.md R272. -/

namespace Sys2Proof.Machine

/-- GFADD (R148): XOR of two field values. -/
def execGfadd (rd ra rb : Reg) (s : State) : Result :=
  finish (encode (.gfadd rd ra rb)) s do
    let a ← s.fv ra
    let b ← s.fv rb
    pure (s.setReg rd ((a ^^^ b).setWidth 32))

/-- GFDBL (R149): doubling with the polynomial in POLY. -/
def execGfdbl (rd ra : Reg) (s : State) : Result :=
  finish (encode (.gfdbl rd ra)) s do
    needReady (s.flag .fieldRdy)
    let a ← s.fv ra
    pure (s.setReg rd ((dbl (s.poly.setWidth 9) a).setWidth 32))

/-- GFLOG (R150): the entry of LOG, the sentinel for 0. -/
def execGflog (rd ra : Reg) (s : State) : Result :=
  finish (encode (.gflog rd ra)) s do
    needReady (s.flag .fieldRdy)
    let a ← s.fv ra
    pure (s.setReg rd ((s.logAt a).setWidth 32))

/-- GFEXP (R151): the entry of ANTILOG at an index up to 1024. -/
def execGfexp (rd ra : Reg) (s : State) : Result :=
  finish (encode (.gfexp rd ra)) s do
    needReady (s.flag .fieldRdy)
    let i ← s.upTo ra 1024
    pure (s.setReg rd ((s.antilogAt i).setWidth 32))

/-- GFMUL (R152): the product by table. -/
def execGfmul (rd ra rb : Reg) (s : State) : Result :=
  finish (encode (.gfmul rd ra rb)) s do
    needReady (s.flag .mulDivRdy)
    let a ← s.fv ra
    let b ← s.fv rb
    pure (s.setReg rd ((s.mulAt b a).setWidth 32))

/-- GFDIV (R153): the quotient by table; a zero divisor raises DivZero. -/
def execGfdiv (rd ra rb : Reg) (s : State) : Result :=
  finish (encode (.gfdiv rd ra rb)) s do
    needReady (s.flag .mulDivRdy)
    let a ← s.fv ra
    let b ← s.fv rb
    check (b != 0) .divZero
    pure (s.setReg rd ((s.divAt b a).setWidth 32))

/-- GFINV (R155): the inverse by table; 0 raises DivZero. -/
def execGfinv (rd ra : Reg) (s : State) : Result :=
  finish (encode (.gfinv rd ra)) s do
    needReady (s.flag .invRdy)
    let a ← s.fv ra
    check (a != 0) .divZero
    pure (s.setReg rd ((s.invAt a).setWidth 32))

/-- GFMULL (R156): the product by log and antilog. -/
def execGfmull (rd ra rb : Reg) (s : State) : Result :=
  finish (encode (.gfmull rd ra rb)) s do
    needReady (s.flag .fieldRdy)
    let a ← s.fv ra
    let b ← s.fv rb
    pure (s.setReg rd ((s.antilogAt ((s.logAt a).toNat + (s.logAt b).toNat)).setWidth 32))

/-- GFDIVL (R157): the quotient by log and antilog; a zero divisor raises DivZero. -/
def execGfdivl (rd ra rb : Reg) (s : State) : Result :=
  finish (encode (.gfdivl rd ra rb)) s do
    needReady (s.flag .fieldRdy)
    let a ← s.fv ra
    let b ← s.fv rb
    check (b != 0) .divZero
    pure (s.setReg rd ((s.antilogAt ((s.logAt a).toNat + (255 - (s.logAt b).toNat))).setWidth 32))

end Sys2Proof.Machine
end

