-- ==== Sys2Proof/Machine/System.lean ====
section
/-! DEFINITION. The system and move commands NOP, LI, MOV, RDCSR (45_system.md). -/

namespace Sys2Proof.Machine

/-- NOP (R230): no effect. -/
def execNop (s : State) : Result := finish (encode .nop) s (pure s)

/-- LI (R231): the immediate, zero-extended. -/
def execLi (rd : Reg) (imm : Imm16) (s : State) : Result :=
  finish (encode (.li rd imm)) s (pure (s.setReg rd (imm.setWidth 32)))

/-- MOV (R232): all 32 bits, no range check. -/
def execMov (rd ra : Reg) (s : State) : Result :=
  finish (encode (.mov rd ra)) s (pure (s.setReg rd (s.reg ra)))

/-- The control and status registers by number (R37); 7 to 65535 are reserved. -/
def State.csr (s : State) (n : Nat) : Option Word :=
  match n with
  | 0 => some s.status
  | 1 => some s.polysel
  | 2 => some s.poly
  | 3 => some s.dim
  | 4 => some s.score
  | 5 => some s.fcode
  | 6 => some s.fcmd
  | _ => none

/-- RDCSR (R233): read a control and status register; a reserved number raises IllegalCmd. -/
def execRdcsr (rd : Reg) (csr : Imm16) (s : State) : Result :=
  finish (encode (.rdcsr rd csr)) s <|
    match s.csr csr.toNat with
    | some v => pure (s.setReg rd v)
    | none => .error (.engine .illegalCmd)

end Sys2Proof.Machine
end

