-- ==== Sys2Proof/Machine/Dispatch.lean ====
section
/-! DEFINITION. `execute(state, d)` of 60_exceptions.md R276: one arm per command. -/

namespace Sys2Proof.Machine

def exec (i : Instr) (s : State) : Host.Outcome State Fault Refusal :=
  match i with
  | .nop => Sys2Proof.Machine.execNop s
  | .li rd imm => Sys2Proof.Machine.execLi rd imm s
  | .mov rd ra => Sys2Proof.Machine.execMov rd ra s
  | .rdcsr rd csr => Sys2Proof.Machine.execRdcsr rd csr s
  | .gfbuild idx => Sys2Proof.Machine.execGfbuild idx s
  | .mdbuild => Sys2Proof.Machine.execMdbuild s
  | .invbuild => Sys2Proof.Machine.execInvbuild s
  | .wtbuild => Sys2Proof.Machine.execWtbuild s
  | .gfadd rd ra rb => Sys2Proof.Machine.execGfadd rd ra rb s
  | .gfdbl rd ra => Sys2Proof.Machine.execGfdbl rd ra s
  | .gflog rd ra => Sys2Proof.Machine.execGflog rd ra s
  | .gfexp rd ra => Sys2Proof.Machine.execGfexp rd ra s
  | .gfmul rd ra rb => Sys2Proof.Machine.execGfmul rd ra rb s
  | .gfdiv rd ra rb => Sys2Proof.Machine.execGfdiv rd ra rb s
  | .gfinv rd ra => Sys2Proof.Machine.execGfinv rd ra s
  | .gfmull rd ra rb => Sys2Proof.Machine.execGfmull rd ra rb s
  | .gfdivl rd ra rb => Sys2Proof.Machine.execGfdivl rd ra rb s
  | .popc rd ra => Sys2Proof.Machine.execPopc rd ra s
  | .bwcalc rd ra => Sys2Proof.Machine.execBwcalc rd ra s
  | .bwlut rd ra => Sys2Proof.Machine.execBwlut rd ra s
  | .setdim imm => Sys2Proof.Machine.execSetdim imm s
  | .ldx rd ra => Sys2Proof.Machine.execLdx rd ra s
  | .stx ra rb => Sys2Proof.Machine.execStx ra rb s
  | .ldy rd ra => Sys2Proof.Machine.execLdy rd ra s
  | .sty ra rb => Sys2Proof.Machine.execSty ra rb s
  | .ldm rd ra rb => Sys2Proof.Machine.execLdm rd ra rb s
  | .stm ra rb rc => Sys2Proof.Machine.execStm ra rb rc s
  | .cmraw => Sys2Proof.Machine.execCmraw s
  | .cmcanon => Sys2Proof.Machine.execCmcanon s
  | .cmones rd ra => Sys2Proof.Machine.execCmones rd ra s

end Sys2Proof.Machine
end

