-- ==== Sys2Proof/Machine/Present.lean ====
section
/-! DEFINITION. What the engine does with what the host presents: the step function of 60_exceptions.md R276,
reset (70_reset_and_hazards.md R300), a whole run of a host's program (R308, 10_state.md R35), and the host's
direct read of the state (00_scope.md R11, 10_state.md R57). -/

namespace Sys2Proof.Machine

/-- `step(state, cmd)` of R276: a faulted engine refuses the word undecoded and unchanged; an undecodable word
raises IllegalCmd; any other is executed. -/
def present (cmd : Word) (s : State) : Result :=
  if s.flag .fault then .next s
  else
    match decode cmd with
    | .error _ => .next (raise .illegalCmd cmd s)
    | .ok i => exec i s

/-- The engine's answer to one thing the host does: a command word, or reset (R10, R11). -/
def State.accept (s : State) : HostInput → Result
  | .command cmd => present cmd s
  | .reset => .next s.resetEngine

/-- A command leaves state `t` from state `s` and records a fault doing so: FAULT goes from 0 to 1.  A faulted
engine refuses its words (R276), so none of them records a fault. -/
def recordsFault (s t : State) : Bool := !s.flag .fault && t.flag .fault

/-- A run of the host's program from a given start state (R35, R308): the words in order, ending when every command
has been stepped or right after the first command that records a fault.  The answer is the end state and
`cmd_index`: the length of the program, or the position of the faulting command. -/
def runProgram : List Word → Nat → State → Host.Outcome (State × Nat) Fault Refusal
  | [], idx, s => .next (s, idx)
  | cmd :: rest, idx, s =>
    match present cmd s with
    | .next t => if recordsFault s t then .next (t, idx) else runProgram rest (idx + 1) t
    | .fault f => .fault f
    | .refused r => .refused r

/-! ### The host's direct read (R11, R44, R57): between two commands, of every piece of state -/

/-- The number of elements of a space (R70). -/
def spaceSize : Config.Space → Nat
  | .log | .inv | .weight | .x | .y => 256
  | .antilog => Config.antilogLen
  | .mul | .div => 65536
  | .mat => Config.matLen

/-- The ready flag that says a table is built; X, Y and MAT have none (R38, R57). -/
def spaceFlag : Config.Space → Option Flag
  | .log | .antilog => some .fieldRdy
  | .mul | .div => some .mulDivRdy
  | .inv => some .invRdy
  | .weight => some .weightRdy
  | .x | .y | .mat => none

/-- What stands at an index of a space that is readable, 16 bits wide for every space. -/
def State.element (s : State) (sp : Config.Space) (i : Nat) : BitVec 16 :=
  match sp with
  | .log => s.logAt (BitVec.ofNat 8 i)
  | .antilog => (s.antilogAt i).setWidth 16
  | .mul => (s.mulAt (BitVec.ofNat 8 (i / 256)) (BitVec.ofNat 8 (i % 256))).setWidth 16
  | .div => (s.divAt (BitVec.ofNat 8 (i / 256)) (BitVec.ofNat 8 (i % 256))).setWidth 16
  | .inv => (s.invAt (BitVec.ofNat 8 i)).setWidth 16
  | .weight => (s.weightAt (BitVec.ofNat 8 i)).setWidth 16
  | .x => (s.xAt i).setWidth 16
  | .y => (s.yAt i).setWidth 16
  | .mat => (s.matAt i).setWidth 16

/-- The unspecified value of an element of a table whose ready flag is 0 (R57, U10). -/
def State.unbuiltElement (s : State) (sp : Config.Space) (i : Nat) : BitVec 16 :=
  match sp with
  | .log => Config.unspecifiedLog s.tableEra i
  | _ => (Config.unspecifiedByte sp s.tableEra i).setWidth 16

/-- The host's direct read of element `i` of a space: an index outside the space names nothing (R70); a table
whose ready flag is 0 answers an unspecified value (R57). -/
def State.hostRead (s : State) (sp : Config.Space) (i : Nat) : Option (BitVec 16) :=
  if i < spaceSize sp then
    match spaceFlag sp with
    | some f => some (if s.flag f then s.element sp i else s.unbuiltElement sp i)
    | none => some (s.element sp i)
  else none

/-- The host's direct read of a CSR, also while the engine is faulted (R44). -/
def State.hostReadCsr (s : State) (n : Nat) : Option Word := s.csr n

/-- The "matrix value object" the engine exposes (R77): `K`, `M` and the row-major bytes. -/
def State.matrixValue (s : State) : Nat × Nat × List Byte :=
  (s.k, s.m, (List.range (s.m * s.k)).map s.matAt)

end Sys2Proof.Machine
end

