-- ==== Sys2Proof/Machine/Step.lean ====
section
/-! DEFINITION. One step of the machine: the engine takes the next thing the host presents. -/

namespace Sys2Proof.Machine

/-- One step: the first pending input is taken and answered (R10, R34).  With nothing presented the engine is
idle and its state does not change (60_exceptions.md R295). -/
def step (s : State) : Host.Outcome State Fault Refusal :=
  match s.pending with
  | [] => .next s
  | input :: rest => (s.withPending rest).accept input

/-- The word whose low `nbits` bits are those of `w`, presented next. -/
def State.withFetchWord (s : State) (nbits w : Nat) : State :=
  s.presentNext (BitVec.ofNat 32 (w % 2 ^ nbits))

end Sys2Proof.Machine
end

