-- ==== Sys2Proof/Safety.lean ====
section
/-! DEFINITION. What the engine promises of every reachable state, and what "nothing else changes" means: the
words the statements are made of. -/

namespace Sys2Proof.Machine

/-! ### Invariants -/

/-- R45: a derived table is ready only over the tables it was derived from. -/
structure ReadyOrder (s : State) : Prop where
  mulDiv : s.flag .mulDivRdy = true → s.flag .fieldRdy = true
  inv : s.flag .invRdy = true → s.flag .mulDivRdy = true
  weight : s.flag .weightRdy = true → s.flag .mulDivRdy = true

/-- R46: FAULT is 0 exactly when FCODE is 0, and then FCMD is 0. -/
structure FaultRecord (s : State) : Prop where
  code : s.flag .fault = false ↔ s.fcode = 0
  cmd : s.flag .fault = false → s.fcmd = 0

/-- R48: while DIM_RDY is 1, `1 ≤ K`, `1 ≤ M`, `K + M ≤ 256`. -/
def DimsLegal (s : State) : Prop :=
  s.flag .dimRdy = true → 1 ≤ s.k ∧ 1 ≤ s.m ∧ s.k + s.m ≤ 256

/-- R38 to R42, R48 (93_implementation_defined.md U23, U24): the reserved bits read 0, and FCODE is a code of
R271. -/
structure ReservedZero (s : State) : Prop where
  status : ∀ i, (i = 5 ∨ i = 6 ∨ 8 ≤ i) → s.status.getLsbD i = false
  polysel : s.polysel.toNat < 2 ^ 8
  poly : s.poly.toNat < 2 ^ 9
  dim : s.dim.toNat < 2 ^ 16
  fcode : s.fcode.toNat ≤ 6

/-- Every space is in its canonical form, with no element outside its bounds (R70, R78). -/
structure StorageWf (s : State) : Prop where
  log : Memory.wf 256 s.log = true
  antilog : Memory.wf Config.antilogLen s.antilog = true
  mulRows : s.mul.length ≤ 256
  mul : ∀ row ∈ s.mul, Memory.wf 256 row = true
  divRows : s.div.length ≤ 256
  div : ∀ row ∈ s.div, Memory.wf 256 row = true
  inv : Memory.wf 256 s.inv = true
  weight : Memory.wf 256 s.weight = true
  x : Memory.wf Config.vecLen s.x = true
  y : Memory.wf Config.vecLen s.y = true
  mat : Memory.wf Config.matLen s.mat = true

/-- The polynomial in POLY, 9 bits (R40). -/
def State.poly9 (s : State) : BitVec 9 := s.poly.setWidth 9

/-- R49, R50, and R40's form of POLY: what LOG and ANTILOG hold for the polynomial in POLY. -/
structure FieldTables (s : State) : Prop where
  polyTop : s.poly9.getLsbD 8 = true
  polyLow : s.poly9.getLsbD 0 = true
  polyWidth : s.poly.toNat < 2 ^ 9
  first : s.antilogAt 0 = 1
  doubles : ∀ j, 1 ≤ j → j ≤ 254 → s.antilogAt j = dblByte s.poly9 (s.antilogAt (j - 1))
  wraps : ∀ i, 255 ≤ i → i ≤ 509 → s.antilogAt i = s.antilogAt (i - 255)
  pads : ∀ i, 510 ≤ i → i ≤ 1024 → s.antilogAt i = 0
  logLt : ∀ v, v ≠ 0 → (s.logAt v).toNat ≤ 254
  antilogLog : ∀ v, v ≠ 0 → s.antilogAt (s.logAt v).toNat = v
  logAntilog : ∀ e, e ≤ 254 → (s.logAt (s.antilogAt e)).toNat = e
  logZero : s.logAt 0 = 512

/-- R51, R52: what MUL and DIV hold for the current LOG and ANTILOG. -/
structure MulDivTables (s : State) : Prop where
  mulZero : ∀ y x, y = 0 ∨ x = 0 → s.mulAt y x = 0
  mul : ∀ y x, y ≠ 0 → x ≠ 0 → s.mulAt y x = s.antilogAt ((s.logAt x).toNat + (s.logAt y).toNat)
  divZero : ∀ y x, y = 0 ∨ x = 0 → s.divAt y x = 0
  div : ∀ y x, y ≠ 0 → x ≠ 0 →
    s.divAt y x = s.antilogAt ((s.logAt x).toNat + (255 - (s.logAt y).toNat))

/-- R38, R49 to R54: each table whose ready flag is 1 holds what the flag says.  `INV[0]` is unspecified (R53). -/
structure TablesHold (s : State) : Prop where
  order : ReadyOrder s
  field : s.flag .fieldRdy = true → FieldTables s
  mulDiv : s.flag .mulDivRdy = true → MulDivTables s
  inv : s.flag .invRdy = true → ∀ x, x ≠ 0 → s.invAt x = s.divAt x 1
  weight : s.flag .weightRdy = true → ∀ v, (s.weightAt v).toNat = s.weightOf v

/-- R39, R40: the polynomial of a ready field is the catalog's entry that POLYSEL names, and with no field ready
POLY and POLYSEL hold their reset value.  R39 gives the index 8 bits, so the catalog has at most 256 entries. -/
structure PolyFromCatalog (s : State) : Prop where
  ready : s.flag .fieldRdy = true →
    ∃ e, s.catalog[s.polysel.toNat]? = some e ∧ s.poly = (e.setWidth 32 <<< 1) ||| 1
  unready : s.flag .fieldRdy = false → s.poly = 0 ∧ s.polysel = 0

/-! ### Frames -/

/-- Every scalar register but `rd` reads as before. -/
def SameRegsBut (rd : Option Reg) (s t : State) : Prop := ∀ r, rd ≠ some r → t.reg r = s.reg r

/-- All seven control and status registers but those numbered in `except` (R37) read as before. -/
def SameCsrsBut (except : List Nat) (s t : State) : Prop := ∀ n, n ∉ except → t.csr n = s.csr n

/-- Every element of every space reads as before, but those that `written` names. -/
def SameElementsBut (written : Config.Space → Nat → Prop) (s t : State) : Prop :=
  ∀ sp i, i < spaceSize sp → ¬ written sp i → t.element sp i = s.element sp i

/-- No element of any space is written. -/
def nothingWritten : Config.Space → Nat → Prop := fun _ _ => False

/-- The catalog, what the host has yet to present, and the eras of the free values are as before. -/
structure SameRest (s t : State) : Prop where
  catalog : t.catalog = s.catalog
  pending : t.pending = s.pending
  resets : t.resets = s.resets
  tableEra : t.tableEra = s.tableEra

/-- From `s` the command `i` entered a fault, and `t` is the state that left (R275). -/
def EntersFault (i : Instr) (s t : State) : Prop := ∃ f, t = raise f (encode i) s

end Sys2Proof.Machine
end

