-- ==== Sys2Proof/Certificates/Slice0/Obligations.lean ====
section
/-! DEFINITION. The statements for the provers, `def Obligations.<Name> : Prop`, and the spec's tables they are
stated with, written from the spec and not from the meanings. -/

namespace Sys2Proof.Claims

open Sys2Proof.Machine

/-- The rows of the opcode map R95 as spec/opcode_table.json gives them: `match` and `mask`. -/
def opcodeRows : List (Word × Word) :=
  [(0x00000000, 0xFFFFFFFF), (0x01000000, 0xFF0F0000), (0x02000000, 0xFF00FFFF), (0x03000000, 0xFF0F0000),
   (0x10000000, 0xFFFF0000), (0x11000000, 0xFFFFFFFF), (0x12000000, 0xFFFFFFFF), (0x13000000, 0xFFFFFFFF),
   (0x20000000, 0xFF000FFF), (0x21000000, 0xFF00FFFF), (0x22000000, 0xFF00FFFF), (0x23000000, 0xFF00FFFF)] ++
  [(0x24000000, 0xFF000FFF), (0x25000000, 0xFF000FFF), (0x26000000, 0xFF00FFFF), (0x27000000, 0xFF000FFF),
   (0x28000000, 0xFF000FFF), (0x30000000, 0xFF00FFFF), (0x31000000, 0xFF00FFFF), (0x32000000, 0xFF00FFFF)] ++
  [(0x40000000, 0xFFFF0000), (0x41000000, 0xFF00FFFF), (0x42000000, 0xFFF00FFF), (0x43000000, 0xFF00FFFF),
   (0x44000000, 0xFFF00FFF), (0x45000000, 0xFF000FFF), (0x46000000, 0xFFF000FF), (0x50000000, 0xFFFFFFFF),
   (0x51000000, 0xFFFFFFFF), (0x52000000, 0xFF00FFFF)]

/-- A legal word: it matches a row (so its opcode is assigned and its unused fields are 0, R97, R98), and if it is
an RDCSR its CSR number is at most 6 (R99). -/
def legalWord (w : Word) : Prop :=
  (∃ row ∈ opcodeRows, w &&& row.2 = row.1) ∧ (w &&& 0xFF000000 = 0x03000000 → (w &&& 0xFFFF).toNat ≤ 6)

/-- The table of R273: the ready flags each command requires. -/
def requiredFlags : Instr → List Flag
  | .mdbuild | .gfdbl _ _ | .gflog _ _ | .gfexp _ _ | .gfmull _ _ _ | .gfdivl _ _ _ => [.fieldRdy]
  | .invbuild | .wtbuild | .gfmul _ _ _ | .gfdiv _ _ _ | .bwcalc _ _ => [.mulDivRdy]
  | .gfinv _ _ => [.invRdy]
  | .bwlut _ _ => [.weightRdy]
  | .ldm _ _ _ | .stm _ _ _ => [.dimRdy]
  | .cmraw => [.mulDivRdy, .invRdy, .dimRdy]
  | .cmcanon => [.mulDivRdy, .weightRdy, .dimRdy]
  | .cmones _ _ => [.weightRdy, .dimRdy]
  | .nop | .li _ _ | .mov _ _ | .rdcsr _ _ | .gfbuild _ | .gfadd _ _ _ | .popc _ _ | .setdim _ => []
  | .ldx _ _ | .stx _ _ | .ldy _ _ | .sty _ _ => []

/-- Every ready flag the command requires is 1. -/
def ready (i : Instr) (s : State) : Prop := ∀ f ∈ requiredFlags i, s.flag f = true

/-- The table of R274: the register operands each command accepts. -/
def operandsAccepted (s : State) : Instr → Prop
  | .gfadd _ ra rb | .gfmul _ ra rb | .gfdiv _ ra rb | .gfmull _ ra rb | .gfdivl _ ra rb =>
    (s.reg ra).toNat ≤ 255 ∧ (s.reg rb).toNat ≤ 255
  | .gfdbl _ ra | .gflog _ ra | .gfinv _ ra | .popc _ ra | .bwcalc _ ra | .bwlut _ ra =>
    (s.reg ra).toNat ≤ 255
  | .gfexp _ ra => (s.reg ra).toNat ≤ 1024
  | .ldx _ ra | .ldy _ ra => (s.reg ra).toNat ≤ 255
  | .stx ra rb | .sty ra rb => (s.reg ra).toNat ≤ 255 ∧ (s.reg rb).toNat ≤ 255
  | .ldm _ ra rb => (s.reg ra).toNat < s.m ∧ (s.reg rb).toNat < s.k
  | .stm ra rb rc => (s.reg ra).toNat < s.m ∧ (s.reg rb).toNat < s.k ∧ (s.reg rc).toNat ≤ 255
  | .cmones _ ra => (s.reg ra).toNat ≤ s.k
  | .nop | .li _ _ | .mov _ _ | .rdcsr _ _ | .gfbuild _ | .mdbuild | .invbuild | .wtbuild | .setdim _ => True
  | .cmraw | .cmcanon => True

/-- Where a command divides by zero (R271, code 3): the divisor of GFDIV, GFDIVL and GFINV, a live X entry equal
to a live Y entry (R208), a 0 in rows `1..M-1` of MAT (R211). -/
def dividesByZero (s : State) : Instr → Prop
  | .gfdiv _ _ rb | .gfdivl _ _ rb => s.reg rb = 0
  | .gfinv _ ra => s.reg ra = 0
  | .cmraw => ∃ x y, x < s.k ∧ y < s.m ∧ s.xAt x = s.yAt y
  | .cmcanon => ∃ y x, 1 ≤ y ∧ y < s.m ∧ x < s.k ∧ s.matAt (y * s.k + x) = 0
  | .nop | .li _ _ | .mov _ _ | .rdcsr _ _ | .gfbuild _ | .mdbuild | .invbuild | .wtbuild => False
  | .gfadd _ _ _ | .gfdbl _ _ | .gflog _ _ | .gfexp _ _ | .gfmul _ _ _ | .gfmull _ _ _ => False
  | .popc _ _ | .bwcalc _ _ | .bwlut _ _ | .setdim _ | .ldx _ _ | .stx _ _ | .ldy _ _ | .sty _ _ => False
  | .ldm _ _ _ | .stm _ _ _ | .cmones _ _ => False

/-- The table of R47: the flags of STATUS a command that completes writes, and what it writes there. -/
def flagWrites : Instr → List (Flag × Bool)
  | .gfbuild _ => [(.fieldRdy, true), (.mulDivRdy, false), (.invRdy, false), (.weightRdy, false)]
  | .mdbuild => [(.mulDivRdy, true)]
  | .invbuild => [(.invRdy, true)]
  | .wtbuild => [(.weightRdy, true)]
  | .setdim _ => [(.dimRdy, true)]
  | .nop | .li _ _ | .mov _ _ | .rdcsr _ _ | .gfadd _ _ _ | .gfdbl _ _ | .gflog _ _ | .gfexp _ _ => []
  | .gfmul _ _ _ | .gfdiv _ _ _ | .gfinv _ _ | .gfmull _ _ _ | .gfdivl _ _ _ | .popc _ _ | .bwcalc _ _ => []
  | .bwlut _ _ | .ldx _ _ | .stx _ _ | .ldy _ _ | .sty _ _ | .ldm _ _ _ | .stm _ _ _ => []
  | .cmraw | .cmcanon | .cmones _ _ => []

/-- What a command that completes does to a flag of STATUS; `none` is "unchanged". -/
def flagWritten (i : Instr) (f : Flag) : Option Bool := (flagWrites i).lookup f

/-- The list of R32: the commands that write a scalar register, and the register. -/
def destination : Instr → Option Reg
  | .li rd _ | .mov rd _ | .rdcsr rd _ | .gfadd rd _ _ | .gfdbl rd _ | .gflog rd _ | .gfexp rd _ => some rd
  | .gfmul rd _ _ | .gfdiv rd _ _ | .gfinv rd _ | .gfmull rd _ _ | .gfdivl rd _ _ => some rd
  | .popc rd _ | .bwcalc rd _ | .bwlut rd _ | .ldx rd _ | .ldy rd _ | .ldm rd _ _ | .cmones rd _ => some rd
  | .nop | .gfbuild _ | .mdbuild | .invbuild | .wtbuild | .setdim _ | .stx _ _ | .sty _ _ => none
  | .stm _ _ _ | .cmraw | .cmcanon => none

/-- `A[j]` of R123: 1 doubled `j` times with the polynomial of catalog entry `e`. -/
def orbit (e : Byte) (j : Nat) : Byte := (dblByte (polyOf e))^[j] 1

/-- R124 (c): each value in 1..255 occurs exactly once in `A[0..254]`. -/
def primitive (e : Byte) : Prop := ∀ v : Byte, v ≠ 0 → ∃! j, j < 255 ∧ orbit e j = v

/-- The number of 1 bits of a byte (R170). -/
def ones (b : Byte) : Nat := (Finset.univ.filter fun i : Fin 8 => b.getLsbD i.val = true).card

/-- The field value a register holds. -/
def byteOf (s : State) (r : Reg) : Byte := (s.reg r).setWidth 8

/-- The total weight of row `y` of MAT if every cell were divided by its cell in column `x` (R210). -/
def pivotTotal (s : State) (y x : Nat) : Nat :=
  ∑ z ∈ Finset.range s.k,
    (s.weightAt (s.divAt (s.matAt (y * s.k + x)) (s.matAt (y * s.k + z)))).toNat

/-- The pivot column R210 and R212 choose in row `y`: the first of the least total. -/
def isPivot (s : State) (y x : Nat) : Prop :=
  x < s.k ∧ (∀ z < s.k, pivotTotal s y x ≤ pivotTotal s y z) ∧ ∀ z < x, pivotTotal s y x < pivotTotal s y z

/-- CMCANON's operands are in order: its flags are 1, and no cell of rows `1..M-1` is 0. -/
structure canonReady (s : State) : Prop where
  mulDiv : s.flag .mulDivRdy = true
  weight : s.flag .weightRdy = true
  dim : s.flag .dimRdy = true
  nonzero : ∀ y x, 1 ≤ y → y < s.m → x < s.k → s.matAt (y * s.k + x) ≠ 0

/-- CMRAW's operands are in order: its flags are 1, and no live X entry equals a live Y entry. -/
structure rawReady (s : State) : Prop where
  mulDiv : s.flag .mulDivRdy = true
  inv : s.flag .invRdy = true
  dim : s.flag .dimRdy = true
  disjoint : ∀ x y, x < s.k → y < s.m → s.xAt x ≠ s.yAt y

/-- The words, presented in order from `s` (R276), take the engine to `t`, and every one of them leaves it
running: FAULT is 0 in `s` and after each word. -/
def leavesRunning : List Word → State → State → Prop
  | [], s, t => s.flag .fault = false ∧ t = s
  | w :: ws, s, t => s.flag .fault = false ∧ ∃ u, present w s = .next u ∧ leavesRunning ws u t

end Sys2Proof.Claims

open Sys2Proof Sys2Proof.Machine Sys2Proof.Claims

/-! ### Encoding -/

/-- Every command is what the decoder reads from its word (R91, R95, R100): no bit of an encoding is dropped. -/
def Obligations.DecodeOfEncodeIsTheCommand : Prop :=
  ∀ i : Instr, i.wellFormed = true → decode (encode i) = .ok i

/-- A word the decoder accepts is the word of the command it reads: no two words mean one command, and the word
fault entry records by re-encoding is the word presented (R43, R100). -/
def Obligations.EncodeOfDecodeIsTheWord : Prop :=
  ∀ (w : Word) (i : Instr), decode w = .ok i → encode i = w ∧ i.wellFormed = true

/-- The words of the table in R101, and words of R97, R98 and R99 that are illegal. -/
def Obligations.SampleWordsDecodeAsListed : Prop :=
  decode 0x00000000 = .ok .nop ∧ decode 0x0130001D = .ok (.li 3 0x1D) ∧ decode 0x02120000 = .ok (.mov 1 2) ∧
  decode 0x03400004 = .ok (.rdcsr 4 4) ∧ decode 0x10000000 = .ok (.gfbuild 0) ∧
  decode 0x24201000 = .ok (.gfmul 2 0 1) ∧ decode 0x32920000 = .ok (.bwlut 9 2) ∧
  decode 0x40000303 = .ok (.setdim 0x0303) ∧ decode 0x42001000 = .ok (.stx 0 1) ∧
  decode 0x46001200 = .ok (.stm 0 1 2) ∧ decode 0x50000000 = .ok .cmraw ∧
  decode 0x02120300 = .error .unusedFieldNonzero ∧ decode 0x04000000 = .error .unassignedOpcode ∧
  decode 0x03000007 = .error .reservedCsr

/-- The decoder accepts exactly the words of the opcode map: some row's match under its mask, and for RDCSR a CSR
number up to 6. -/
def Obligations.DecoderAcceptsExactlyTheOpcodeMap : Prop :=
  ∀ w : Word, (∃ i, decode w = .ok i) ↔ legalWord w

/-! ### A step -/

/-- A command presented to a running engine that decodes is executed (R276); the step takes it off what the host
has yet to present and does nothing else. -/
def Obligations.StepExecutesTheDecodedCommand : Prop :=
  ∀ (s : State) (w : Word) (rest : List HostInput) (i : Instr),
    s.pending = .command w :: rest → s.flag .fault = false → decode w = .ok i →
      step s = exec i (s.withPending rest)

/-- R97, R98, R99: a word that is not legal raises IllegalCmd: FCODE 6, FCMD the word, STATUS.FAULT 1. -/
def Obligations.IllegalWordsRaiseIllegalCmd : Prop :=
  ∀ (s : State) (w : Word) (rest : List HostInput),
    s.pending = .command w :: rest → s.flag .fault = false → ¬ legalWord w →
      ∃ t, step s = .next t ∧ t = raise .illegalCmd w (s.withPending rest) ∧
        t.fcode = 6 ∧ t.fcmd = w ∧ t.flag .fault = true

/-- R276: while STATUS.FAULT is 1, whatever word is presented, nothing changes but that the host has presented it. -/
def Obligations.FaultedEngineRefusesEveryCommand : Prop :=
  ∀ (s : State) (w : Word) (rest : List HostInput),
    s.pending = .command w :: rest → s.flag .fault = true → step s = .next (s.withPending rest)

/-- R300: reset, asserted in any state, makes every register and CSR 0 and every element of every space the
unspecified value of a new era; nothing is listed as written.  That the eras are counters is the model's choice
(log entry 1). -/
def Obligations.ResetMakesStorageUnspecifiedAndTheRestZero : Prop :=
  ∀ (s : State) (rest : List HostInput), s.pending = .reset :: rest →
    ∃ t, step s = .next t ∧ (∀ r, t.reg r = 0) ∧ (∀ n, n ≤ 6 → t.csr n = some 0) ∧
      (∀ f, t.flag f = false) ∧
      t.resets = s.resets + 1 ∧ t.tableEra = s.tableEra + 1 ∧
      (∀ i < 256, t.xAt i = Config.unspecifiedByte .x t.resets i) ∧
      (∀ i < 256, t.yAt i = Config.unspecifiedByte .y t.resets i) ∧
      (∀ i < 16384, t.matAt i = Config.unspecifiedByte .mat t.resets i) ∧
      (∀ v, t.logAt v = Config.unspecifiedLog t.tableEra v.toNat) ∧
      (∀ i ≤ 1024, t.antilogAt i = Config.unspecifiedByte .antilog t.tableEra i) ∧
      (∀ y x, t.mulAt y x = Config.unspecifiedByte .mul t.tableEra (y.toNat * 256 + x.toNat)) ∧
      (∀ y x, t.divAt y x = Config.unspecifiedByte .div t.tableEra (y.toNat * 256 + x.toNat)) ∧
      (∀ v, t.invAt v = Config.unspecifiedByte .inv t.tableEra v.toNat) ∧
      (∀ v, t.weightAt v = Config.unspecifiedByte .weight t.tableEra v.toNat) ∧
      t.catalog = s.catalog ∧ t.pending = rest

/-- With nothing presented the engine is idle (R295). -/
def Obligations.IdleEngineDoesNotChange : Prop :=
  ∀ s : State, s.pending = [] → step s = .next s

/-- The state after reset has every scalar register and every CSR at 0 (R66, R38 to R41), and meets every
invariant.  Two parts are the model's choice: its default catalog, the 16 entries of R122 (the bound on its length
and PolyFromCatalog; log entry 3), and the strictly rising lists of StorageWf (log entry 8). -/
def Obligations.ResetStateIsZeroAndMeetsTheInvariants : Prop :=
  (∀ r, State.reset.reg r = 0) ∧ (∀ n, n ≤ 6 → State.reset.csr n = some 0) ∧
  ReadyOrder State.reset ∧ FaultRecord State.reset ∧ DimsLegal State.reset ∧ ReservedZero State.reset ∧
  StorageWf State.reset ∧ TablesHold State.reset ∧ PolyFromCatalog State.reset ∧
  State.reset.catalog.length ≤ 256 ∧ State.reset.score.toNat ≤ 2 ^ 20

/-- R308, R35: a run of the host's program.  From a running engine it ends with no fault recorded, every word having
been presented in order; or right after the first word that records a fault: the words before its position,
presented in order, leave a running engine, presenting it from there leaves the end state, and FCMD holds it.  From a
faulted engine every word is refused (R276): nothing changes, and every word has been stepped.  The position is the
model's reading (DEDUCED, log entry 13): R35's increment is not made for the word that records the fault, and from a
faulted engine the position is the length of the program. -/
def Obligations.RunEndsAtTheFirstFault : Prop :=
  ∀ (words : List Word) (s : State), DimsLegal s →
    ∃ t idx, runProgram words 0 s = .next (t, idx) ∧
      (s.flag .fault = true → t = s ∧ idx = words.length) ∧
      (s.flag .fault = false → t.flag .fault = false → idx = words.length ∧ leavesRunning words s t) ∧
      (s.flag .fault = false → t.flag .fault = true →
        ∃ w u, words[idx]? = some w ∧ leavesRunning (words.take idx) s u ∧ present w u = .next t ∧ t.fcmd = w)

/-- R11, R44, R57: the host reads every CSR, and every element of X, Y, MAT and of a table whose ready flag is 1, as
it stands, faulted engine or not; an element of a table whose flag is 0 reads as an unspecified value; outside a
space there is nothing.  The spec gives that unspecified value no form: that it is one free constant applied to the
space, the era and the index is the model's choice (log entry 1). -/
def Obligations.HostReadsElementsThatAreReady : Prop :=
  ∀ (s : State) (sp : Config.Space) (i n : Nat),
    s.hostReadCsr n = s.csr n ∧
    (¬ i < spaceSize sp → s.hostRead sp i = none) ∧
    (i < spaceSize sp → ∀ f, spaceFlag sp = some f → s.flag f = true → s.hostRead sp i = some (s.element sp i)) ∧
    (i < spaceSize sp → ∀ f, spaceFlag sp = some f → s.flag f = false →
      s.hostRead sp i = some (s.unbuiltElement sp i)) ∧
    (i < spaceSize sp → spaceFlag sp = none → s.hostRead sp i = some (s.element sp i))

/-! ### Faults -/

/-- The codes of R271, and what fault entry leaves (R275): FCODE, FCMD and STATUS.FAULT written, every other bit
of STATUS, every register, CSR and element as before. -/
def Obligations.FaultEntryMakesExactlyThreeWrites : Prop :=
  (EngineFault.code .cfgPoly = 1 ∧ EngineFault.code .cfgDim = 2 ∧ EngineFault.code .divZero = 3 ∧
    EngineFault.code .notReady = 4 ∧ EngineFault.code .operandRange = 5 ∧ EngineFault.code .illegalCmd = 6) ∧
  ∀ (f : EngineFault) (cmd : Word) (s : State),
    (raise f cmd s).fcode = f.code ∧ (raise f cmd s).fcmd = cmd ∧ (raise f cmd s).flag .fault = true ∧
    (∀ i, i ≠ 7 → (raise f cmd s).status.getLsbD i = s.status.getLsbD i) ∧
    SameRegsBut none s (raise f cmd s) ∧ SameCsrsBut [0, 5, 6] s (raise f cmd s) ∧
    SameElementsBut nothingWritten s (raise f cmd s) ∧ SameRest s (raise f cmd s)

/-- R275: faults are precise.  A step that leaves a running engine faulted has done nothing but take the word off
the host's list and enter the fault, with FCMD the word presented, decodable or not. -/
def Obligations.FaultsArePrecise : Prop :=
  ∀ (s t : State) (w : Word) (rest : List HostInput),
    s.pending = .command w :: rest → s.flag .fault = false → step s = .next t → t.flag .fault = true →
      ∃ f : EngineFault, t = raise f w (s.withPending rest)

/-- R273: NotReady is raised exactly when a required flag is 0, whatever the operands hold. -/
def Obligations.NotReadyExactlyWhenARequiredFlagIsZero : Prop :=
  ∀ (i : Instr) (s : State), s.flag .fault = false →
    (exec i s = .next (raise .notReady (encode i) s) ↔ ¬ ready i s)

/-- R274: of a command that is ready, OperandRange is raised exactly when an operand is outside its range. -/
def Obligations.OperandRangeExactlyWhenAnOperandIsOutside : Prop :=
  ∀ (i : Instr) (s : State), s.flag .fault = false → ready i s →
    (exec i s = .next (raise .operandRange (encode i) s) ↔ ¬ operandsAccepted s i)

/-- Of a command that is ready with operands in range, DivZero is raised exactly where it would divide by zero:
R208 for CMRAW, R211 for CMCANON, R153, R155 and R157 for the field commands. -/
def Obligations.DivZeroExactlyWhereADivisorIsZero : Prop :=
  ∀ (i : Instr) (s : State), s.flag .fault = false → DimsLegal s → ready i s → operandsAccepted s i →
    (exec i s = .next (raise .divZero (encode i) s) ↔ dividesByZero s i)

/-- R124: GFBUILD raises CfgPoly exactly when the index names no entry, bit 7 of the entry is 0, or the doubling
sequence does not meet each of 1..255 exactly once. -/
def Obligations.CfgPolyExactlyWhenTheEntryIsUnusable : Prop :=
  ∀ (idx : Imm16) (s : State), s.flag .fault = false →
    (exec (.gfbuild idx) s = .next (raise .cfgPoly (encode (.gfbuild idx)) s) ↔
      s.catalog.length ≤ idx.toNat ∨
      ∃ e, s.catalog[idx.toNat]? = some e ∧ (e.getLsbD 7 = false ∨ ¬ primitive e))

/-! ### What each command does -/

/-- NOP (R230) changes nothing; LI (R231) writes the zero-extended immediate; MOV (R232) copies all 32 bits.  A
write reaches the register named, each of the 16, and no other (R31, R32). -/
def Obligations.NopLiMovComplete : Prop :=
  ∀ (s : State) (rd ra : Reg) (imm : Imm16),
    exec .nop s = .next s ∧
    exec (.li rd imm) s = .next (s.setReg rd (imm.setWidth 32)) ∧
    exec (.mov rd ra) s = .next (s.setReg rd (s.reg ra)) ∧
    ∀ (v : Word) (q : Reg), (s.setReg rd v).reg q = if q = rd then v else s.reg q

/-- RDCSR (R233): CSR numbers 0 to 6 are STATUS, POLYSEL, POLY, DIM, SCORE, FCODE, FCMD (R37); a number above 6
raises IllegalCmd. -/
def Obligations.RdcsrReadsTheNumberedRegister : Prop :=
  ∀ (s : State) (rd : Reg),
    exec (.rdcsr rd 0) s = .next (s.setReg rd s.status) ∧
    exec (.rdcsr rd 1) s = .next (s.setReg rd s.polysel) ∧
    exec (.rdcsr rd 2) s = .next (s.setReg rd s.poly) ∧
    exec (.rdcsr rd 3) s = .next (s.setReg rd s.dim) ∧
    exec (.rdcsr rd 4) s = .next (s.setReg rd s.score) ∧
    exec (.rdcsr rd 5) s = .next (s.setReg rd s.fcode) ∧
    exec (.rdcsr rd 6) s = .next (s.setReg rd s.fcmd) ∧
    ∀ csr : Imm16, 6 < csr.toNat →
      exec (.rdcsr rd csr) s = .next (raise .illegalCmd (encode (.rdcsr rd csr)) s)

/-- GFBUILD (R123) of a usable entry: LOG, ANTILOG, POLYSEL, POLY and four flags; nothing else.  POLYSEL takes
the low 8 bits of the index, its width (R39; log entry 4). -/
def Obligations.GfbuildBuildsLogAndAntilog : Prop :=
  ∀ (s : State) (idx : Imm16) (e : Byte),
    s.catalog[idx.toNat]? = some e → e.getLsbD 7 = true → primitive e →
    ∃ t, exec (.gfbuild idx) s = .next t ∧
      t.polysel = (idx.setWidth 8).setWidth 32 ∧ t.poly = (e.setWidth 32 <<< 1) ||| 1 ∧
      t.logAt 0 = 512 ∧
      (∀ j < 255, t.antilogAt j = orbit e j ∧ (t.logAt (orbit e j)).toNat = j) ∧
      (∀ i, 255 ≤ i → i ≤ 509 → t.antilogAt i = orbit e (i - 255)) ∧
      (∀ i, 510 ≤ i → i ≤ 1024 → t.antilogAt i = 0) ∧
      t.flag .fieldRdy = true ∧ t.flag .mulDivRdy = false ∧ t.flag .invRdy = false ∧
      t.flag .weightRdy = false ∧ (∀ b, 4 ≤ b → t.status.getLsbD b = s.status.getLsbD b) ∧
      SameRegsBut none s t ∧ SameCsrsBut [0, 1, 2] s t ∧
      SameElementsBut (fun sp _ => sp ≠ .x ∧ sp ≠ .y ∧ sp ≠ .mat) s t ∧
      t.mul = s.mul ∧ t.div = s.div ∧ t.inv = s.inv ∧ t.weight = s.weight ∧
      t.catalog = s.catalog ∧ t.pending = s.pending ∧ t.resets = s.resets

/-- MDBUILD (R128): all of MUL and DIV from LOG and ANTILOG, and MULDIV_RDY; nothing else. -/
def Obligations.MdbuildBuildsMulAndDiv : Prop :=
  ∀ s : State, s.flag .fieldRdy = true →
    ∃ t, exec .mdbuild s = .next t ∧
      (∀ y x : Byte, y = 0 ∨ x = 0 → t.mulAt y x = 0 ∧ t.divAt y x = 0) ∧
      (∀ y x : Byte, y ≠ 0 → x ≠ 0 →
        t.mulAt y x = s.antilogAt ((s.logAt x).toNat + (s.logAt y).toNat) ∧
        t.divAt y x = s.antilogAt ((s.logAt x).toNat + (255 - (s.logAt y).toNat))) ∧
      t.flag .mulDivRdy = true ∧ (∀ b, b ≠ 1 → t.status.getLsbD b = s.status.getLsbD b) ∧
      SameRegsBut none s t ∧ SameCsrsBut [0] s t ∧
      SameElementsBut (fun sp _ => sp = .mul ∨ sp = .div) s t ∧ SameRest s t

/-- INVBUILD (R130): `INV[x] <- DIV[x][1]` for `x` in 1..255, and INV_RDY; nothing else.  `INV[0]` is not written. -/
def Obligations.InvbuildBuildsInv : Prop :=
  ∀ s : State, s.flag .mulDivRdy = true →
    ∃ t, exec .invbuild s = .next t ∧ (∀ x, x ≠ 0 → t.invAt x = s.divAt x 1) ∧
      t.flag .invRdy = true ∧ (∀ b, b ≠ 2 → t.status.getLsbD b = s.status.getLsbD b) ∧
      SameRegsBut none s t ∧ SameCsrsBut [0] s t ∧
      SameElementsBut (fun sp i => sp = .inv ∧ i ≠ 0) s t ∧ SameRest s t

/-- WTBUILD (R131): `WEIGHT[v]` is the sum of the popcounts of `v, 2v, …, 128v` for every `v` (R171), and
WEIGHT_RDY; nothing else. -/
def Obligations.WtbuildBuildsWeight : Prop :=
  ∀ s : State, s.flag .mulDivRdy = true →
    ∃ t, exec .wtbuild s = .next t ∧
      (∀ v, (t.weightAt v).toNat = ∑ j ∈ Finset.range 8, ones ((s.mulAt 2)^[j] v)) ∧
      t.flag .weightRdy = true ∧ (∀ b, b ≠ 3 → t.status.getLsbD b = s.status.getLsbD b) ∧
      SameRegsBut none s t ∧ SameCsrsBut [0] s t ∧
      SameElementsBut (fun sp _ => sp = .weight) s t ∧ SameRest s t

/-- GFADD (R148): bitwise XOR of two field values. -/
def Obligations.GfaddXorsFieldValues : Prop :=
  ∀ (s : State) (rd ra rb : Reg), (s.reg ra).toNat ≤ 255 → (s.reg rb).toNat ≤ 255 →
    exec (.gfadd rd ra rb) s = .next (s.setReg rd (s.reg ra ^^^ s.reg rb))

/-- GFDBL (R149): shift left one bit, and if the result exceeds 255, XOR with POLY. -/
def Obligations.GfdblDoublesWithPoly : Prop :=
  ∀ (s : State) (rd ra : Reg), s.flag .fieldRdy = true → s.poly.toNat < 2 ^ 9 → (s.reg ra).toNat ≤ 255 →
    exec (.gfdbl rd ra) s = .next (s.setReg rd
      (if 255 < (s.reg ra <<< 1).toNat then (s.reg ra <<< 1) ^^^ s.poly else s.reg ra <<< 1))

/-- GFLOG (R150) reads LOG, GFEXP (R151) reads ANTILOG at an index up to 1024. -/
def Obligations.GflogAndGfexpReadTheirTables : Prop :=
  ∀ (s : State) (rd ra : Reg), s.flag .fieldRdy = true →
    ((s.reg ra).toNat ≤ 255 →
      exec (.gflog rd ra) s = .next (s.setReg rd ((s.logAt (byteOf s ra)).setWidth 32))) ∧
    ((s.reg ra).toNat ≤ 1024 →
      exec (.gfexp rd ra) s = .next (s.setReg rd ((s.antilogAt (s.reg ra).toNat).setWidth 32)))

/-- GFMUL (R152) reads `MUL[b][a]`, GFDIV (R153) `DIV[b][a]` for a non-zero divisor, GFINV (R155) `INV[a]` for a
non-zero operand. -/
def Obligations.GfmulGfdivGfinvReadTheirTables : Prop :=
  ∀ (s : State) (rd ra rb : Reg), (s.reg ra).toNat ≤ 255 →
    (s.flag .mulDivRdy = true → (s.reg rb).toNat ≤ 255 →
      exec (.gfmul rd ra rb) s = .next (s.setReg rd ((s.mulAt (byteOf s rb) (byteOf s ra)).setWidth 32))) ∧
    (s.flag .mulDivRdy = true → (s.reg rb).toNat ≤ 255 → s.reg rb ≠ 0 →
      exec (.gfdiv rd ra rb) s = .next (s.setReg rd ((s.divAt (byteOf s rb) (byteOf s ra)).setWidth 32))) ∧
    (s.flag .invRdy = true → s.reg ra ≠ 0 →
      exec (.gfinv rd ra) s = .next (s.setReg rd ((s.invAt (byteOf s ra)).setWidth 32)))

/-- GFMULL (R156): ANTILOG at the sum of two LOG entries.  GFDIVL (R157), for a non-zero divisor: ANTILOG at
`LOG[a] + (255 - LOG[b])`. -/
def Obligations.GfmullAndGfdivlAddLogs : Prop :=
  ∀ (s : State) (rd ra rb : Reg), s.flag .fieldRdy = true →
    (s.reg ra).toNat ≤ 255 → (s.reg rb).toNat ≤ 255 →
    exec (.gfmull rd ra rb) s = .next (s.setReg rd
      ((s.antilogAt ((s.logAt (byteOf s ra)).toNat + (s.logAt (byteOf s rb)).toNat)).setWidth 32)) ∧
    (s.reg rb ≠ 0 → exec (.gfdivl rd ra rb) s = .next (s.setReg rd
      ((s.antilogAt ((s.logAt (byteOf s ra)).toNat + (255 - (s.logAt (byteOf s rb)).toNat))).setWidth 32)))

/-- POPC (R173) counts the 1 bits of a byte; BWCALC (R174) adds the popcounts of the operand and of its seven
successive products by 2 through `MUL[2]` (R171). -/
def Obligations.PopcAndBwcalcCountOnes : Prop :=
  ∀ (s : State) (rd ra : Reg), (s.reg ra).toNat ≤ 255 →
    exec (.popc rd ra) s = .next (s.setReg rd (BitVec.ofNat 32 (ones (byteOf s ra)))) ∧
    (s.flag .mulDivRdy = true → exec (.bwcalc rd ra) s =
      .next (s.setReg rd (BitVec.ofNat 32 (∑ j ∈ Finset.range 8, ones ((s.mulAt 2)^[j] (byteOf s ra))))))

/-- BWLUT (R175) reads WEIGHT. -/
def Obligations.BwlutReadsWeight : Prop :=
  ∀ (s : State) (rd ra : Reg), s.flag .weightRdy = true → (s.reg ra).toNat ≤ 255 →
    exec (.bwlut rd ra) s = .next (s.setReg rd ((s.weightAt (byteOf s ra)).setWidth 32))

/-- SETDIM (R186): with `1 ≤ K`, `1 ≤ M`, `K + M ≤ 256` DIM holds `M` in bits 15:8 and `K` in bits 7:0 and DIM_RDY
is 1, and nothing else changes; any other pair raises CfgDim. -/
def Obligations.SetdimSetsLegalDimensions : Prop :=
  ∀ (s : State) (k m : Nat) (imm : Imm16), k = imm.toNat % 256 → m = imm.toNat / 256 →
    (1 ≤ k → 1 ≤ m → k + m ≤ 256 → ∃ t, exec (.setdim imm) s = .next t ∧
      t.dim = imm.setWidth 32 ∧ t.k = k ∧ t.m = m ∧ t.flag .dimRdy = true ∧
      (∀ b, b ≠ 4 → t.status.getLsbD b = s.status.getLsbD b) ∧ SameRegsBut none s t ∧
      SameCsrsBut [0, 3] s t ∧ SameElementsBut nothingWritten s t ∧ SameRest s t) ∧
    (¬ (1 ≤ k ∧ 1 ≤ m ∧ k + m ≤ 256) →
      exec (.setdim imm) s = .next (raise .cfgDim (encode (.setdim imm)) s))

/-- LDX (R187) and LDY (R189) read one entry, live or not. -/
def Obligations.LdxAndLdyReadOneEntry : Prop :=
  ∀ (s : State) (rd ra : Reg), (s.reg ra).toNat ≤ 255 →
    exec (.ldx rd ra) s = .next (s.setReg rd ((s.xAt (s.reg ra).toNat).setWidth 32)) ∧
    exec (.ldy rd ra) s = .next (s.setReg rd ((s.yAt (s.reg ra).toNat).setWidth 32))

/-- STX (R188) and STY (R190) write one entry: it reads back, and no other element of any space, no register and
no CSR changes. -/
def Obligations.StxAndStyWriteOneEntry : Prop :=
  ∀ (s : State) (ra rb : Reg) (i : Nat), i = (s.reg ra).toNat → i ≤ 255 → (s.reg rb).toNat ≤ 255 →
    (∃ t, exec (.stx ra rb) s = .next t ∧ t.xAt i = byteOf s rb ∧
      SameElementsBut (fun sp j => sp = .x ∧ j = i) s t ∧ SameRegsBut none s t ∧ SameCsrsBut [] s t ∧
      SameRest s t) ∧
    (∃ t, exec (.sty ra rb) s = .next t ∧ t.yAt i = byteOf s rb ∧
      SameElementsBut (fun sp j => sp = .y ∧ j = i) s t ∧ SameRegsBut none s t ∧ SameCsrsBut [] s t ∧
      SameRest s t)

/-- LDM (R191): element `s[ra]*K + s[rb]` of MAT. -/
def Obligations.LdmReadsTheRowMajorElement : Prop :=
  ∀ (s : State) (rd ra rb : Reg), DimsLegal s → s.flag .dimRdy = true →
    (s.reg ra).toNat < s.m → (s.reg rb).toNat < s.k →
    exec (.ldm rd ra rb) s =
      .next (s.setReg rd ((s.matAt ((s.reg ra).toNat * s.k + (s.reg rb).toNat)).setWidth 32))

/-- STM (R192): element `s[ra]*K + s[rb]` of MAT takes the value, and no other element of any space, no register
and no CSR (SCORE among them) changes. -/
def Obligations.StmWritesTheRowMajorElement : Prop :=
  ∀ (s : State) (ra rb rc : Reg) (i : Nat), DimsLegal s → s.flag .dimRdy = true →
    (s.reg ra).toNat < s.m → (s.reg rb).toNat < s.k → (s.reg rc).toNat ≤ 255 →
    i = (s.reg ra).toNat * s.k + (s.reg rb).toNat →
    ∃ t, exec (.stm ra rb rc) s = .next t ∧ t.matAt i = byteOf s rc ∧
      SameElementsBut (fun sp j => sp = .mat ∧ j = i) s t ∧ SameRegsBut none s t ∧ SameCsrsBut [] s t ∧
      SameRest s t

/-- CMRAW (R206): row 0 is all 1, and cell `(y, x)` of rows `1..M-1` is `MUL[D][q]` with `D = Y[0] XOR X[x]` and
`q = INV[X[x] XOR Y[y]]`; nothing outside `MAT[0..M*K-1]` changes. -/
def Obligations.CmrawBuildsTheRawMatrix : Prop :=
  ∀ s : State, DimsLegal s → rawReady s →
    ∃ t, exec .cmraw s = .next t ∧
      (∀ x < s.k, t.matAt x = 1) ∧
      (∀ y x, 1 ≤ y → y < s.m → x < s.k →
        t.matAt (y * s.k + x) = s.mulAt (s.yAt 0 ^^^ s.xAt x) (s.invAt (s.xAt x ^^^ s.yAt y))) ∧
      SameElementsBut (fun sp i => sp = .mat ∧ i < s.m * s.k) s t ∧
      SameRegsBut none s t ∧ SameCsrsBut [] s t ∧ SameRest s t

/-- CMCANON (R210, R212): every row `1..M-1` is divided by its first cheapest pivot, SCORE is the sum of the
totals of the pivots, and nothing else changes, row 0 among it. -/
def Obligations.CmcanonDividesEachRowByItsFirstCheapestPivot : Prop :=
  ∀ s : State, DimsLegal s → canonReady s →
    ∃ t, exec .cmcanon s = .next t ∧ ∃ pivot : Nat → Nat,
      (∀ y, 1 ≤ y → y < s.m → isPivot s y (pivot y) ∧ ∀ z < s.k,
        t.matAt (y * s.k + z) = s.divAt (s.matAt (y * s.k + pivot y)) (s.matAt (y * s.k + z))) ∧
      t.score = BitVec.ofNat 32 (∑ y ∈ Finset.Ico 1 s.m, pivotTotal s y (pivot y)) ∧
      SameElementsBut (fun sp i => sp = .mat ∧ s.k ≤ i ∧ i < s.m * s.k) s t ∧
      SameRegsBut none s t ∧ SameCsrsBut [4] s t ∧ SameRest s t

/-- CMONES (R215): the weights of the first `s[ra]` columns of all rows, row 0 among them. -/
def Obligations.CmonesSumsAColumnPrefix : Prop :=
  ∀ (s : State) (rd ra : Reg), DimsLegal s → s.flag .weightRdy = true → s.flag .dimRdy = true →
    (s.reg ra).toNat ≤ s.k →
    exec (.cmones rd ra) s = .next (s.setReg rd (BitVec.ofNat 32
      (∑ r ∈ Finset.range s.m, ∑ x ∈ Finset.range (s.reg ra).toNat, (s.weightAt (s.matAt (r * s.k + x))).toNat)))

/-! ### Frames -/

/-- R32 and the "flags written: none" of every rule: a command with a destination register that answers a next
state has entered a fault, or has written that register and nothing else: no other register, no CSR, no element
of any space. -/
def Obligations.RegisterResultsChangeOneRegister : Prop :=
  ∀ (i : Instr) (rd : Reg) (s t : State), destination i = some rd → exec i s = .next t →
    EntersFault i s t ∨
      (SameRegsBut (some rd) s t ∧ SameCsrsBut [] s t ∧ SameElementsBut nothingWritten s t ∧ SameRest s t)

/-- R32's last clause: no other command writes a scalar register, faulting or not. -/
def Obligations.NoOtherCommandWritesARegister : Prop :=
  ∀ (i : Instr) (s t : State), destination i = none → exec i s = .next t → SameRegsBut none s t

/-- R47: the writers of STATUS.  From a running engine a command that faults sets FAULT and changes no ready
flag; one that completes writes the flags of its row and no other. -/
def Obligations.StatusWritersAreTheTable : Prop :=
  ∀ (i : Instr) (s t : State), s.flag .fault = false → exec i s = .next t →
    (EntersFault i s t ∧ t.flag .fault = true ∧ ∀ g, g ≠ .fault → t.flag g = s.flag g) ∨
    (¬ EntersFault i s t ∧ ∀ g, t.flag g = (flagWritten i g).getD (s.flag g))

/-- R55: the tables are written only by their build commands, and by no other command. -/
def Obligations.TablesAreWrittenOnlyByTheirBuilds : Prop :=
  ∀ (i : Instr) (s t : State), exec i s = .next t →
    ((∀ idx, i ≠ .gfbuild idx) → t.log = s.log ∧ t.antilog = s.antilog) ∧
    (i ≠ .mdbuild → t.mul = s.mul ∧ t.div = s.div) ∧
    (i ≠ .invbuild → t.inv = s.inv) ∧ (i ≠ .wtbuild → t.weight = s.weight)

/-! ### Invariants that every step keeps -/

/-- R45. -/
def Obligations.StepKeepsReadyOrder : Prop :=
  ∀ s t : State, ReadyOrder s → step s = .next t → ReadyOrder t

/-- R46. -/
def Obligations.StepKeepsFaultRecord : Prop :=
  ∀ s t : State, FaultRecord s → step s = .next t → FaultRecord t

/-- R48. -/
def Obligations.StepKeepsDimsLegal : Prop :=
  ∀ s t : State, DimsLegal s → step s = .next t → DimsLegal t

/-- R38 to R42 and R48: the reserved bits stay 0. -/
def Obligations.StepKeepsReservedBitsZero : Prop :=
  ∀ s t : State, ReservedZero s → step s = .next t → ReservedZero t

/-- Every space keeps its bounds (R70, R78) and its canonical form, a strictly rising list of the elements written,
which is the model's choice (log entry 8). -/
def Obligations.StepKeepsStorageCanonical : Prop :=
  ∀ s t : State, StorageWf s → step s = .next t → StorageWf t

/-- R49 to R54, R56: a table whose ready flag is 1 holds the table of the polynomial in POLY. -/
def Obligations.StepKeepsTablesHold : Prop :=
  ∀ s t : State, TablesHold s → step s = .next t → TablesHold t

/-- R39, R40, for a catalog of at most 256 entries, which POLYSEL can name (log entry 4); R65: the catalog itself
never changes. -/
def Obligations.StepKeepsPolyFromCatalog : Prop :=
  ∀ s t : State, s.catalog.length ≤ 256 → PolyFromCatalog s → step s = .next t →
    PolyFromCatalog t ∧ t.catalog = s.catalog

/-- R41: SCORE never exceeds `64 * 16384 = 2^20`, where the tables hold. -/
def Obligations.StepKeepsScoreBounded : Prop :=
  ∀ s t : State, TablesHold s → s.score.toNat ≤ 2 ^ 20 → step s = .next t → t.score.toNat ≤ 2 ^ 20

/-- R277: from a state with legal dimensions a step always answers a next state; there is no fourth outcome, and
the model's own stop is never reached. -/
def Obligations.StepAlwaysAnswersANextState : Prop :=
  ∀ s : State, DimsLegal s → ∃ t, step s = .next t

/-! ### The field and the matrices -/

/-- R158, which the spec marks as its own inference ([derived]): the log path and the table path of multiply and
divide agree on all field values. -/
def Obligations.LogPathEqualsTablePath : Prop :=
  ∀ s : State, TablesHold s → s.flag .mulDivRdy = true → ∀ a b : Byte,
    s.antilogAt ((s.logAt a).toNat + (s.logAt b).toNat) = s.mulAt b a ∧
    (b ≠ 0 → s.antilogAt ((s.logAt a).toNat + (255 - (s.logAt b).toNat)) = s.divAt b a)

/-- R159: the laws the document lists as testable; `mul(a, b)` is `MUL[b][a]` and `div(a, b)` is `DIV[b][a]`
(R145, R146). -/
def Obligations.DocumentedFieldLawsHold : Prop :=
  ∀ s : State, TablesHold s → s.flag .mulDivRdy = true → ∀ a b : Byte,
    s.mulAt b a = s.mulAt a b ∧ s.mulAt 1 a = a ∧ (b ≠ 0 → s.divAt b (s.mulAt b a) = a) ∧ s.mulAt 0 a = 0

/-- The further laws of R160, which the spec marks as its own inference ([derived], G3): a field, with `dbl` the product by 2, the log of a product, and ANTILOG the powers
of 2. -/
def Obligations.TheBytesAreAField : Prop :=
  ∀ s : State, TablesHold s → s.flag .mulDivRdy = true → s.flag .invRdy = true →
    (∀ a b c : Byte, s.mulAt c (s.mulAt b a) = s.mulAt (s.mulAt c b) a) ∧
    (∀ a b c : Byte, s.mulAt c (a ^^^ b) = s.mulAt c a ^^^ s.mulAt c b) ∧
    (∀ a : Byte, a ≠ 0 → s.mulAt (s.invAt a) a = 1) ∧
    (∀ a b : Byte, b ≠ 0 → s.divAt b a = s.mulAt (s.invAt b) a) ∧
    (∀ a b : Byte, s.mulAt b a = 0 → a = 0 ∨ b = 0) ∧
    (∀ a : Byte, dblByte s.poly9 a = s.mulAt 2 a) ∧
    (∀ a b : Byte, a ≠ 0 → b ≠ 0 →
      (s.logAt (s.mulAt b a)).toNat = ((s.logAt a).toNat + (s.logAt b).toNat) % 255) ∧
    (∀ e ≤ 254, s.antilogAt e = (s.mulAt 2)^[e] 1)

/-- R172 (a) to (d): `weight(0) = 0`, `weight(1) = 8`, `8 ≤ weight(v) ≤ 64` for `v ≠ 0`, and the weights of all
256 values sum to 8192, for every primitive polynomial. -/
def Obligations.WeightValuesAndBounds : Prop :=
  ∀ s : State, TablesHold s → s.flag .mulDivRdy = true →
    s.weightOf 0 = 0 ∧ s.weightOf 1 = 8 ∧ (∀ v, v ≠ 0 → 8 ≤ s.weightOf v ∧ s.weightOf v ≤ 64) ∧
    ∑ n ∈ Finset.range 256, s.weightOf (BitVec.ofNat 8 n) = 8192

/-- R176, which the spec marks as its own inference ([derived]): whenever both are ready, BWLUT and BWCALC do the same. -/
def Obligations.BwlutEqualsBwcalc : Prop :=
  ∀ (s : State) (rd ra : Reg), TablesHold s → s.flag .mulDivRdy = true → s.flag .weightRdy = true →
    (s.reg ra).toNat ≤ 255 → exec (.bwlut rd ra) s = exec (.bwcalc rd ra) s

/-- R209, whose (b) and (c) the spec marks as its own inference ([derived]): after a CMRAW that did not fault, row 0 is all 1, no cell of rows `1..M-1` is 0, and if the entries of Y
are distinct none of those cells is 1. -/
def Obligations.RawMatrixHasNoZeroCell : Prop :=
  ∀ s t : State, TablesHold s → DimsLegal s → rawReady s → exec .cmraw s = .next t →
    (∀ x < s.k, t.matAt x = 1) ∧
    (∀ y x, 1 ≤ y → y < s.m → x < s.k → t.matAt (y * s.k + x) ≠ 0) ∧
    ((∀ i j, i < j → j < s.m → s.yAt i ≠ s.yAt j) →
      ∀ y x, 1 ≤ y → y < s.m → x < s.k → t.matAt (y * s.k + x) ≠ 1)

/-- R214 (b), which the spec marks as its own inference ([derived]): a second CMCANON with no write to MAT between
leaves MAT and SCORE unchanged.  After a CMCANON that completed its operands are in order again, so the second one
completes (from a running engine, it enters no fault), and no register, no CSR and no element of any space changes. -/
def Obligations.CmcanonIsIdempotent : Prop :=
  ∀ s t : State, TablesHold s → DimsLegal s → canonReady s → exec .cmcanon s = .next t →
    canonReady t ∧ ∃ u, exec .cmcanon t = .next u ∧
      (s.flag .fault = false → u.flag .fault = false ∧ ¬ EntersFault .cmcanon t u) ∧
      (∀ i, u.matAt i = t.matAt i) ∧ u.score = t.score ∧
      SameElementsBut nothingWritten t u ∧ SameRegsBut none t u ∧ SameCsrsBut [] t u ∧ SameRest t u

/-- R216: directly after a CMCANON on a matrix whose row 0 is all 1, CMONES of all `K` columns is SCORE plus
`8*K`. -/
def Obligations.CmonesIsScorePlusEightPerColumn : Prop :=
  ∀ (s t : State) (rd ra : Reg), TablesHold s → DimsLegal s → canonReady s → (∀ x < s.k, s.matAt x = 1) →
    exec .cmcanon s = .next t → (t.reg ra).toNat = t.k →
    exec (.cmones rd ra) t = .next (t.setReg rd (t.score + BitVec.ofNat 32 (8 * t.k)))
end

