-- ==== Sys2Proof/Laws/Memory.lean ====
section
/-! SUPPORT. The storage spaces: reading after writing (20_memory.md R79), and the canonical form that every
operation keeps. -/

namespace Sys2Proof.Machine

variable {w : Nat}

@[simp] theorem read?_nil (i : Nat) : Memory.read? ([] : Memory w) i = none := rfl

theorem read?_append (m₁ m₂ : Memory w) (i : Nat) :
    Memory.read? (m₁ ++ m₂) i = (Memory.read? m₁ i).or (Memory.read? m₂ i) := by
  induction m₁ with
  | nil => simp
  | cons c m ih =>
    by_cases h : c.1 = i <;> simp [Memory.read?, h, ih]

theorem read?_filter (m : Memory w) (p : Nat → Bool) (i : Nat) :
    Memory.read? (m.filter fun c => p c.1) i = if p i then Memory.read? m i else none := by
  induction m with
  | nil => simp
  | cons c m ih =>
    by_cases hp : p c.1 <;> by_cases h : c.1 = i
    · subst h; simp [hp, Memory.read?]
    · simp [hp, Memory.read?, h, ih]
    · subst h; simp [hp, ih]
    · simp [hp, Memory.read?, h, ih]

theorem read?_zip (start : Nat) (vs : List (BitVec w)) (i : Nat) :
    Memory.read? ((List.range' start vs.length).zip vs) i = if start ≤ i then vs[i - start]? else none := by
  induction vs generalizing start with
  | nil => simp
  | cons v vs ih =>
    simp only [List.length_cons, List.range'_succ, List.zip_cons_cons, Memory.read?, ih]
    by_cases h : start = i
    · subst h; simp
    · by_cases hle : start ≤ i
      · have h1 : start + 1 ≤ i := by omega
        have h2 : i - start = (i - (start + 1)) + 1 := by omega
        simp [h, hle, h1, h2]
      · have h1 : ¬ start + 1 ≤ i := by omega
        simp [h, hle, h1]

/-- Reading after a write: the elements written hold the values written, every other element what it held
(R79). -/
theorem read?_store (m : Memory w) (start : Nat) (vs : List (BitVec w)) (i : Nat) :
    Memory.read? (m.store start vs) i =
      if start ≤ i ∧ i < start + vs.length then vs[i - start]? else Memory.read? m i := by
  unfold Memory.store
  rw [read?_append, read?_append, read?_zip,
    read?_filter m (fun j => decide (j < start)), read?_filter m (fun j => decide (start + vs.length ≤ j))]
  by_cases h1 : i < start
  · have h2 : ¬ start ≤ i := by omega
    have h3 : ¬ start + vs.length ≤ i := by omega
    simp [h1, h2, h3]
  · by_cases h2 : i < start + vs.length
    · have h3 : start ≤ i := by omega
      have h4 : ¬ start + vs.length ≤ i := by omega
      simp [h1, h2, h3, h4]
    · have h3 : start ≤ i := by omega
      have h4 : start + vs.length ≤ i := by omega
      have h5 : vs.length ≤ i - start := by omega
      simp [h1, h2, h3, h4, h5]

/-- Reading after a write of one element. -/
theorem read?_store_one (m : Memory w) (j i : Nat) (v : BitVec w) :
    Memory.read? (m.store j [v]) i = if i = j then some v else Memory.read? m i := by
  rw [read?_store]
  by_cases h : i = j
  · subst h; simp
  · have : ¬ (j ≤ i ∧ i < j + [v].length) := by simp only [List.length_singleton]; omega
    rw [if_neg this, if_neg h]

/-! ### The canonical form -/

/-- The canonical form, as order and bound. -/
theorem wf_iff (size : Nat) (m : Memory w) :
    m.wf size = true ↔ m.Pairwise (fun c d => c.1 < d.1) ∧ ∀ c ∈ m, c.1 < size := by
  induction m with
  | nil => simp [Memory.wf]
  | cons c m ih =>
    match m, ih with
    | [], _ => simp [Memory.wf]
    | d :: rest, ih =>
      simp only [Memory.wf, Bool.and_eq_true, decide_eq_true_eq, ih]
      constructor
      · rintro ⟨hcd, hp, hb⟩
        refine ⟨List.pairwise_cons.2 ⟨?_, hp⟩, ?_⟩
        · intro e he
          rcases List.mem_cons.1 he with rfl | he
          · exact hcd
          · exact lt_trans hcd ((List.pairwise_cons.1 hp).1 e he)
        · intro e he
          rcases List.mem_cons.1 he with rfl | he
          · exact lt_trans hcd (hb d (by simp))
          · exact hb e he
      · rintro ⟨hp, hb⟩
        obtain ⟨h1, h2⟩ := List.pairwise_cons.1 hp
        exact ⟨h1 d (by simp), h2, fun e he => hb e (by simp [he])⟩

theorem mem_zip_range' {start : Nat} {vs : List (BitVec w)} {c : Nat × BitVec w}
    (h : c ∈ (List.range' start vs.length).zip vs) : start ≤ c.1 ∧ c.1 < start + vs.length := by
  obtain ⟨i, v⟩ := c
  simpa [List.mem_range'_1] using (List.of_mem_zip h).1

/-- A write inside the space keeps the canonical form. -/
theorem wf_store {size : Nat} {m : Memory w} (start : Nat) (vs : List (BitVec w))
    (h : m.wf size = true) (hb : start + vs.length ≤ size) : (m.store start vs).wf size = true := by
  rw [wf_iff] at h ⊢
  obtain ⟨hp, hlt⟩ := h
  have hz : ((List.range' start vs.length).zip vs).Pairwise (fun c d => c.1 < d.1) := by
    have h1 : (((List.range' start vs.length).zip vs).map Prod.fst).Pairwise (· < ·) := by
      rw [List.map_fst_zip (by simp)]
      exact List.pairwise_lt_range'
    exact List.pairwise_map.1 h1
  unfold Memory.store
  refine ⟨List.pairwise_append.2 ⟨List.pairwise_append.2 ⟨hp.filter _, hz, ?_⟩, hp.filter _, ?_⟩, ?_⟩
  · intro c hc d hd
    have h1 := (List.mem_filter.1 hc).2
    have h2 := mem_zip_range' hd
    simp only [decide_eq_true_eq] at h1
    omega
  · intro c hc d hd
    have h2 := (List.mem_filter.1 hd).2
    simp only [decide_eq_true_eq] at h2
    rcases List.mem_append.1 hc with hc | hc
    · have h1 := (List.mem_filter.1 hc).2
      simp only [decide_eq_true_eq] at h1
      omega
    · have h1 := mem_zip_range' hc
      omega
  · intro c hc
    rcases List.mem_append.1 hc with hc | hc
    · rcases List.mem_append.1 hc with hc | hc
      · exact hlt c (List.mem_filter.1 hc).1
      · have := mem_zip_range' hc
        omega
    · exact hlt c (List.mem_filter.1 hc).1

/-- Two spaces in canonical form that read alike are equal. -/
theorem wf_ext {size : Nat} {m₁ m₂ : Memory w} (h₁ : m₁.wf size = true) (h₂ : m₂.wf size = true)
    (h : ∀ i, Memory.read? m₁ i = Memory.read? m₂ i) : m₁ = m₂ := by
  have read_none : ∀ {m : Memory w} {i : Nat}, (∀ c ∈ m, i < c.1) → Memory.read? m i = none := by
    intro m i hm
    induction m with
    | nil => rfl
    | cons c m ih =>
      have hc := hm c (by simp)
      have : c.1 ≠ i := by omega
      simp only [Memory.read?, this, if_false]
      exact ih fun d hd => hm d (by simp [hd])
  rw [wf_iff] at h₁ h₂
  obtain ⟨p₁, -⟩ := h₁
  obtain ⟨p₂, -⟩ := h₂
  induction m₁ generalizing m₂ with
  | nil =>
    match m₂ with
    | [] => rfl
    | d :: m₂ => have := h d.1; simp [Memory.read?] at this
  | cons c m₁ ih =>
    match m₂ with
    | [] => have := h c.1; simp [Memory.read?] at this
    | d :: m₂ =>
      obtain ⟨q₁, p₁⟩ := List.pairwise_cons.1 p₁
      obtain ⟨q₂, p₂⟩ := List.pairwise_cons.1 p₂
      have hkey : c.1 = d.1 := by
        rcases Nat.lt_trichotomy c.1 d.1 with hlt | heq | hlt
        · have h0 := h c.1
          have h1 : d.1 ≠ c.1 := by omega
          have h2 : Memory.read? m₂ c.1 = none := read_none fun e he => by have := q₂ e he; omega
          simp [Memory.read?, h1, h2] at h0
        · exact heq
        · have h0 := h d.1
          have h1 : c.1 ≠ d.1 := by omega
          have h2 : Memory.read? m₁ d.1 = none := read_none fun e he => by have := q₁ e he; omega
          simp [Memory.read?, h1, h2] at h0
      have hval : c.2 = d.2 := by
        have h0 := h c.1
        simpa [Memory.read?, hkey] using h0
      have htail : m₁ = m₂ := by
        refine ih (fun i => ?_) p₁ p₂
        have h0 := h i
        by_cases hi : c.1 = i
        · rw [read_none fun e he => by have := q₁ e he; omega,
            read_none fun e he => by have := q₂ e he; omega]
        · have hi' : d.1 ≠ i := by omega
          simpa [Memory.read?, hi, hi'] using h0
      rw [show c = d from Prod.ext hkey hval, htail]

end Sys2Proof.Machine
end

