-- ==== Sys2Proof/Laws/State.lean ====
section
/-! SUPPORT. Every field, and every accessor, after every update of the state: true by `rfl`, for `simp`.  The
field an update writes is what its definition says. -/

namespace Sys2Proof.Machine

/-! ### setReg -/

section
variable (s : State) (r : Reg) (v : Word)

@[simp] theorem setReg_status : (s.setReg r v).status = s.status := rfl
@[simp] theorem setReg_polysel : (s.setReg r v).polysel = s.polysel := rfl
@[simp] theorem setReg_poly : (s.setReg r v).poly = s.poly := rfl
@[simp] theorem setReg_dim : (s.setReg r v).dim = s.dim := rfl
@[simp] theorem setReg_score : (s.setReg r v).score = s.score := rfl
@[simp] theorem setReg_fcode : (s.setReg r v).fcode = s.fcode := rfl
@[simp] theorem setReg_fcmd : (s.setReg r v).fcmd = s.fcmd := rfl
@[simp] theorem setReg_log : (s.setReg r v).log = s.log := rfl
@[simp] theorem setReg_antilog : (s.setReg r v).antilog = s.antilog := rfl
@[simp] theorem setReg_mul : (s.setReg r v).mul = s.mul := rfl
@[simp] theorem setReg_div : (s.setReg r v).div = s.div := rfl
@[simp] theorem setReg_inv : (s.setReg r v).inv = s.inv := rfl
@[simp] theorem setReg_weight : (s.setReg r v).weight = s.weight := rfl
@[simp] theorem setReg_x : (s.setReg r v).x = s.x := rfl
@[simp] theorem setReg_y : (s.setReg r v).y = s.y := rfl
@[simp] theorem setReg_mat : (s.setReg r v).mat = s.mat := rfl
@[simp] theorem setReg_catalog : (s.setReg r v).catalog = s.catalog := rfl
@[simp] theorem setReg_pending : (s.setReg r v).pending = s.pending := rfl
@[simp] theorem setReg_resets : (s.setReg r v).resets = s.resets := rfl
@[simp] theorem setReg_tableEra : (s.setReg r v).tableEra = s.tableEra := rfl
@[simp] theorem setReg_flag (g : Flag) : (s.setReg r v).flag g = s.flag g := rfl
@[simp] theorem setReg_k : (s.setReg r v).k = s.k := rfl
@[simp] theorem setReg_m : (s.setReg r v).m = s.m := rfl
@[simp] theorem setReg_matIndex (a c : Nat) : (s.setReg r v).matIndex a c = s.matIndex a c := rfl
@[simp] theorem setReg_logAt (q : Byte) : (s.setReg r v).logAt q = s.logAt q := rfl
@[simp] theorem setReg_antilogAt (q : Nat) : (s.setReg r v).antilogAt q = s.antilogAt q := rfl
@[simp] theorem setReg_mulAt (a c : Byte) : (s.setReg r v).mulAt a c = s.mulAt a c := rfl
@[simp] theorem setReg_divAt (a c : Byte) : (s.setReg r v).divAt a c = s.divAt a c := rfl
@[simp] theorem setReg_invAt (q : Byte) : (s.setReg r v).invAt q = s.invAt q := rfl
@[simp] theorem setReg_weightAt (q : Byte) : (s.setReg r v).weightAt q = s.weightAt q := rfl
@[simp] theorem setReg_xAt (q : Nat) : (s.setReg r v).xAt q = s.xAt q := rfl
@[simp] theorem setReg_yAt (q : Nat) : (s.setReg r v).yAt q = s.yAt q := rfl
@[simp] theorem setReg_matAt (q : Nat) : (s.setReg r v).matAt q = s.matAt q := rfl

end

/-! ### setFlag -/

section
variable (s : State) (f : Flag) (b : Bool)

@[simp] theorem setFlag_regs : (s.setFlag f b).regs = s.regs := rfl
@[simp] theorem setFlag_polysel : (s.setFlag f b).polysel = s.polysel := rfl
@[simp] theorem setFlag_poly : (s.setFlag f b).poly = s.poly := rfl
@[simp] theorem setFlag_dim : (s.setFlag f b).dim = s.dim := rfl
@[simp] theorem setFlag_score : (s.setFlag f b).score = s.score := rfl
@[simp] theorem setFlag_fcode : (s.setFlag f b).fcode = s.fcode := rfl
@[simp] theorem setFlag_fcmd : (s.setFlag f b).fcmd = s.fcmd := rfl
@[simp] theorem setFlag_log : (s.setFlag f b).log = s.log := rfl
@[simp] theorem setFlag_antilog : (s.setFlag f b).antilog = s.antilog := rfl
@[simp] theorem setFlag_mul : (s.setFlag f b).mul = s.mul := rfl
@[simp] theorem setFlag_div : (s.setFlag f b).div = s.div := rfl
@[simp] theorem setFlag_inv : (s.setFlag f b).inv = s.inv := rfl
@[simp] theorem setFlag_weight : (s.setFlag f b).weight = s.weight := rfl
@[simp] theorem setFlag_x : (s.setFlag f b).x = s.x := rfl
@[simp] theorem setFlag_y : (s.setFlag f b).y = s.y := rfl
@[simp] theorem setFlag_mat : (s.setFlag f b).mat = s.mat := rfl
@[simp] theorem setFlag_catalog : (s.setFlag f b).catalog = s.catalog := rfl
@[simp] theorem setFlag_pending : (s.setFlag f b).pending = s.pending := rfl
@[simp] theorem setFlag_resets : (s.setFlag f b).resets = s.resets := rfl
@[simp] theorem setFlag_tableEra : (s.setFlag f b).tableEra = s.tableEra := rfl
@[simp] theorem setFlag_reg (q : Reg) : (s.setFlag f b).reg q = s.reg q := rfl
@[simp] theorem setFlag_k : (s.setFlag f b).k = s.k := rfl
@[simp] theorem setFlag_m : (s.setFlag f b).m = s.m := rfl
@[simp] theorem setFlag_matIndex (a c : Nat) : (s.setFlag f b).matIndex a c = s.matIndex a c := rfl
@[simp] theorem setFlag_logAt (q : Byte) : (s.setFlag f b).logAt q = s.logAt q := rfl
@[simp] theorem setFlag_antilogAt (q : Nat) : (s.setFlag f b).antilogAt q = s.antilogAt q := rfl
@[simp] theorem setFlag_mulAt (a c : Byte) : (s.setFlag f b).mulAt a c = s.mulAt a c := rfl
@[simp] theorem setFlag_divAt (a c : Byte) : (s.setFlag f b).divAt a c = s.divAt a c := rfl
@[simp] theorem setFlag_invAt (q : Byte) : (s.setFlag f b).invAt q = s.invAt q := rfl
@[simp] theorem setFlag_weightAt (q : Byte) : (s.setFlag f b).weightAt q = s.weightAt q := rfl
@[simp] theorem setFlag_xAt (q : Nat) : (s.setFlag f b).xAt q = s.xAt q := rfl
@[simp] theorem setFlag_yAt (q : Nat) : (s.setFlag f b).yAt q = s.yAt q := rfl
@[simp] theorem setFlag_matAt (q : Nat) : (s.setFlag f b).matAt q = s.matAt q := rfl

end

/-! ### setX -/

section
variable (s : State) (i : Nat) (v : Byte)

@[simp] theorem setX_regs : (s.setX i v).regs = s.regs := rfl
@[simp] theorem setX_status : (s.setX i v).status = s.status := rfl
@[simp] theorem setX_polysel : (s.setX i v).polysel = s.polysel := rfl
@[simp] theorem setX_poly : (s.setX i v).poly = s.poly := rfl
@[simp] theorem setX_dim : (s.setX i v).dim = s.dim := rfl
@[simp] theorem setX_score : (s.setX i v).score = s.score := rfl
@[simp] theorem setX_fcode : (s.setX i v).fcode = s.fcode := rfl
@[simp] theorem setX_fcmd : (s.setX i v).fcmd = s.fcmd := rfl
@[simp] theorem setX_log : (s.setX i v).log = s.log := rfl
@[simp] theorem setX_antilog : (s.setX i v).antilog = s.antilog := rfl
@[simp] theorem setX_mul : (s.setX i v).mul = s.mul := rfl
@[simp] theorem setX_div : (s.setX i v).div = s.div := rfl
@[simp] theorem setX_inv : (s.setX i v).inv = s.inv := rfl
@[simp] theorem setX_weight : (s.setX i v).weight = s.weight := rfl
@[simp] theorem setX_y : (s.setX i v).y = s.y := rfl
@[simp] theorem setX_mat : (s.setX i v).mat = s.mat := rfl
@[simp] theorem setX_catalog : (s.setX i v).catalog = s.catalog := rfl
@[simp] theorem setX_pending : (s.setX i v).pending = s.pending := rfl
@[simp] theorem setX_resets : (s.setX i v).resets = s.resets := rfl
@[simp] theorem setX_tableEra : (s.setX i v).tableEra = s.tableEra := rfl
@[simp] theorem setX_reg (q : Reg) : (s.setX i v).reg q = s.reg q := rfl
@[simp] theorem setX_flag (g : Flag) : (s.setX i v).flag g = s.flag g := rfl
@[simp] theorem setX_k : (s.setX i v).k = s.k := rfl
@[simp] theorem setX_m : (s.setX i v).m = s.m := rfl
@[simp] theorem setX_matIndex (a c : Nat) : (s.setX i v).matIndex a c = s.matIndex a c := rfl
@[simp] theorem setX_logAt (q : Byte) : (s.setX i v).logAt q = s.logAt q := rfl
@[simp] theorem setX_antilogAt (q : Nat) : (s.setX i v).antilogAt q = s.antilogAt q := rfl
@[simp] theorem setX_mulAt (a c : Byte) : (s.setX i v).mulAt a c = s.mulAt a c := rfl
@[simp] theorem setX_divAt (a c : Byte) : (s.setX i v).divAt a c = s.divAt a c := rfl
@[simp] theorem setX_invAt (q : Byte) : (s.setX i v).invAt q = s.invAt q := rfl
@[simp] theorem setX_weightAt (q : Byte) : (s.setX i v).weightAt q = s.weightAt q := rfl
@[simp] theorem setX_yAt (q : Nat) : (s.setX i v).yAt q = s.yAt q := rfl
@[simp] theorem setX_matAt (q : Nat) : (s.setX i v).matAt q = s.matAt q := rfl

end

/-! ### setY -/

section
variable (s : State) (i : Nat) (v : Byte)

@[simp] theorem setY_regs : (s.setY i v).regs = s.regs := rfl
@[simp] theorem setY_status : (s.setY i v).status = s.status := rfl
@[simp] theorem setY_polysel : (s.setY i v).polysel = s.polysel := rfl
@[simp] theorem setY_poly : (s.setY i v).poly = s.poly := rfl
@[simp] theorem setY_dim : (s.setY i v).dim = s.dim := rfl
@[simp] theorem setY_score : (s.setY i v).score = s.score := rfl
@[simp] theorem setY_fcode : (s.setY i v).fcode = s.fcode := rfl
@[simp] theorem setY_fcmd : (s.setY i v).fcmd = s.fcmd := rfl
@[simp] theorem setY_log : (s.setY i v).log = s.log := rfl
@[simp] theorem setY_antilog : (s.setY i v).antilog = s.antilog := rfl
@[simp] theorem setY_mul : (s.setY i v).mul = s.mul := rfl
@[simp] theorem setY_div : (s.setY i v).div = s.div := rfl
@[simp] theorem setY_inv : (s.setY i v).inv = s.inv := rfl
@[simp] theorem setY_weight : (s.setY i v).weight = s.weight := rfl
@[simp] theorem setY_x : (s.setY i v).x = s.x := rfl
@[simp] theorem setY_mat : (s.setY i v).mat = s.mat := rfl
@[simp] theorem setY_catalog : (s.setY i v).catalog = s.catalog := rfl
@[simp] theorem setY_pending : (s.setY i v).pending = s.pending := rfl
@[simp] theorem setY_resets : (s.setY i v).resets = s.resets := rfl
@[simp] theorem setY_tableEra : (s.setY i v).tableEra = s.tableEra := rfl
@[simp] theorem setY_reg (q : Reg) : (s.setY i v).reg q = s.reg q := rfl
@[simp] theorem setY_flag (g : Flag) : (s.setY i v).flag g = s.flag g := rfl
@[simp] theorem setY_k : (s.setY i v).k = s.k := rfl
@[simp] theorem setY_m : (s.setY i v).m = s.m := rfl
@[simp] theorem setY_matIndex (a c : Nat) : (s.setY i v).matIndex a c = s.matIndex a c := rfl
@[simp] theorem setY_logAt (q : Byte) : (s.setY i v).logAt q = s.logAt q := rfl
@[simp] theorem setY_antilogAt (q : Nat) : (s.setY i v).antilogAt q = s.antilogAt q := rfl
@[simp] theorem setY_mulAt (a c : Byte) : (s.setY i v).mulAt a c = s.mulAt a c := rfl
@[simp] theorem setY_divAt (a c : Byte) : (s.setY i v).divAt a c = s.divAt a c := rfl
@[simp] theorem setY_invAt (q : Byte) : (s.setY i v).invAt q = s.invAt q := rfl
@[simp] theorem setY_weightAt (q : Byte) : (s.setY i v).weightAt q = s.weightAt q := rfl
@[simp] theorem setY_xAt (q : Nat) : (s.setY i v).xAt q = s.xAt q := rfl
@[simp] theorem setY_matAt (q : Nat) : (s.setY i v).matAt q = s.matAt q := rfl

end

/-! ### storeMat -/

section
variable (s : State) (i : Nat) (vs : List Byte)

@[simp] theorem storeMat_regs : (s.storeMat i vs).regs = s.regs := rfl
@[simp] theorem storeMat_status : (s.storeMat i vs).status = s.status := rfl
@[simp] theorem storeMat_polysel : (s.storeMat i vs).polysel = s.polysel := rfl
@[simp] theorem storeMat_poly : (s.storeMat i vs).poly = s.poly := rfl
@[simp] theorem storeMat_dim : (s.storeMat i vs).dim = s.dim := rfl
@[simp] theorem storeMat_score : (s.storeMat i vs).score = s.score := rfl
@[simp] theorem storeMat_fcode : (s.storeMat i vs).fcode = s.fcode := rfl
@[simp] theorem storeMat_fcmd : (s.storeMat i vs).fcmd = s.fcmd := rfl
@[simp] theorem storeMat_log : (s.storeMat i vs).log = s.log := rfl
@[simp] theorem storeMat_antilog : (s.storeMat i vs).antilog = s.antilog := rfl
@[simp] theorem storeMat_mul : (s.storeMat i vs).mul = s.mul := rfl
@[simp] theorem storeMat_div : (s.storeMat i vs).div = s.div := rfl
@[simp] theorem storeMat_inv : (s.storeMat i vs).inv = s.inv := rfl
@[simp] theorem storeMat_weight : (s.storeMat i vs).weight = s.weight := rfl
@[simp] theorem storeMat_x : (s.storeMat i vs).x = s.x := rfl
@[simp] theorem storeMat_y : (s.storeMat i vs).y = s.y := rfl
@[simp] theorem storeMat_catalog : (s.storeMat i vs).catalog = s.catalog := rfl
@[simp] theorem storeMat_pending : (s.storeMat i vs).pending = s.pending := rfl
@[simp] theorem storeMat_resets : (s.storeMat i vs).resets = s.resets := rfl
@[simp] theorem storeMat_tableEra : (s.storeMat i vs).tableEra = s.tableEra := rfl
@[simp] theorem storeMat_reg (q : Reg) : (s.storeMat i vs).reg q = s.reg q := rfl
@[simp] theorem storeMat_flag (g : Flag) : (s.storeMat i vs).flag g = s.flag g := rfl
@[simp] theorem storeMat_k : (s.storeMat i vs).k = s.k := rfl
@[simp] theorem storeMat_m : (s.storeMat i vs).m = s.m := rfl
@[simp] theorem storeMat_matIndex (a c : Nat) : (s.storeMat i vs).matIndex a c = s.matIndex a c := rfl
@[simp] theorem storeMat_logAt (q : Byte) : (s.storeMat i vs).logAt q = s.logAt q := rfl
@[simp] theorem storeMat_antilogAt (q : Nat) : (s.storeMat i vs).antilogAt q = s.antilogAt q := rfl
@[simp] theorem storeMat_mulAt (a c : Byte) : (s.storeMat i vs).mulAt a c = s.mulAt a c := rfl
@[simp] theorem storeMat_divAt (a c : Byte) : (s.storeMat i vs).divAt a c = s.divAt a c := rfl
@[simp] theorem storeMat_invAt (q : Byte) : (s.storeMat i vs).invAt q = s.invAt q := rfl
@[simp] theorem storeMat_weightAt (q : Byte) : (s.storeMat i vs).weightAt q = s.weightAt q := rfl
@[simp] theorem storeMat_xAt (q : Nat) : (s.storeMat i vs).xAt q = s.xAt q := rfl
@[simp] theorem storeMat_yAt (q : Nat) : (s.storeMat i vs).yAt q = s.yAt q := rfl

end

/-! ### putField -/

section
variable (s : State) (lg : List (BitVec 16)) (al : List Byte) (ps p : Word)

@[simp] theorem putField_regs : (s.putField lg al ps p).regs = s.regs := rfl
@[simp] theorem putField_status : (s.putField lg al ps p).status = s.status := rfl
@[simp] theorem putField_dim : (s.putField lg al ps p).dim = s.dim := rfl
@[simp] theorem putField_score : (s.putField lg al ps p).score = s.score := rfl
@[simp] theorem putField_fcode : (s.putField lg al ps p).fcode = s.fcode := rfl
@[simp] theorem putField_fcmd : (s.putField lg al ps p).fcmd = s.fcmd := rfl
@[simp] theorem putField_mul : (s.putField lg al ps p).mul = s.mul := rfl
@[simp] theorem putField_div : (s.putField lg al ps p).div = s.div := rfl
@[simp] theorem putField_inv : (s.putField lg al ps p).inv = s.inv := rfl
@[simp] theorem putField_weight : (s.putField lg al ps p).weight = s.weight := rfl
@[simp] theorem putField_x : (s.putField lg al ps p).x = s.x := rfl
@[simp] theorem putField_y : (s.putField lg al ps p).y = s.y := rfl
@[simp] theorem putField_mat : (s.putField lg al ps p).mat = s.mat := rfl
@[simp] theorem putField_catalog : (s.putField lg al ps p).catalog = s.catalog := rfl
@[simp] theorem putField_pending : (s.putField lg al ps p).pending = s.pending := rfl
@[simp] theorem putField_resets : (s.putField lg al ps p).resets = s.resets := rfl
@[simp] theorem putField_reg (q : Reg) : (s.putField lg al ps p).reg q = s.reg q := rfl
@[simp] theorem putField_flag (g : Flag) : (s.putField lg al ps p).flag g = s.flag g := rfl
@[simp] theorem putField_k : (s.putField lg al ps p).k = s.k := rfl
@[simp] theorem putField_m : (s.putField lg al ps p).m = s.m := rfl
@[simp] theorem putField_matIndex (a c : Nat) : (s.putField lg al ps p).matIndex a c = s.matIndex a c := rfl
@[simp] theorem putField_xAt (q : Nat) : (s.putField lg al ps p).xAt q = s.xAt q := rfl
@[simp] theorem putField_yAt (q : Nat) : (s.putField lg al ps p).yAt q = s.yAt q := rfl
@[simp] theorem putField_matAt (q : Nat) : (s.putField lg al ps p).matAt q = s.matAt q := rfl

end

/-! ### putMulDiv -/

section
variable (s : State) (mu di : List (Memory 8))

@[simp] theorem putMulDiv_regs : (s.putMulDiv mu di).regs = s.regs := rfl
@[simp] theorem putMulDiv_status : (s.putMulDiv mu di).status = s.status := rfl
@[simp] theorem putMulDiv_polysel : (s.putMulDiv mu di).polysel = s.polysel := rfl
@[simp] theorem putMulDiv_poly : (s.putMulDiv mu di).poly = s.poly := rfl
@[simp] theorem putMulDiv_dim : (s.putMulDiv mu di).dim = s.dim := rfl
@[simp] theorem putMulDiv_score : (s.putMulDiv mu di).score = s.score := rfl
@[simp] theorem putMulDiv_fcode : (s.putMulDiv mu di).fcode = s.fcode := rfl
@[simp] theorem putMulDiv_fcmd : (s.putMulDiv mu di).fcmd = s.fcmd := rfl
@[simp] theorem putMulDiv_log : (s.putMulDiv mu di).log = s.log := rfl
@[simp] theorem putMulDiv_antilog : (s.putMulDiv mu di).antilog = s.antilog := rfl
@[simp] theorem putMulDiv_inv : (s.putMulDiv mu di).inv = s.inv := rfl
@[simp] theorem putMulDiv_weight : (s.putMulDiv mu di).weight = s.weight := rfl
@[simp] theorem putMulDiv_x : (s.putMulDiv mu di).x = s.x := rfl
@[simp] theorem putMulDiv_y : (s.putMulDiv mu di).y = s.y := rfl
@[simp] theorem putMulDiv_mat : (s.putMulDiv mu di).mat = s.mat := rfl
@[simp] theorem putMulDiv_catalog : (s.putMulDiv mu di).catalog = s.catalog := rfl
@[simp] theorem putMulDiv_pending : (s.putMulDiv mu di).pending = s.pending := rfl
@[simp] theorem putMulDiv_resets : (s.putMulDiv mu di).resets = s.resets := rfl
@[simp] theorem putMulDiv_tableEra : (s.putMulDiv mu di).tableEra = s.tableEra := rfl
@[simp] theorem putMulDiv_reg (q : Reg) : (s.putMulDiv mu di).reg q = s.reg q := rfl
@[simp] theorem putMulDiv_flag (g : Flag) : (s.putMulDiv mu di).flag g = s.flag g := rfl
@[simp] theorem putMulDiv_k : (s.putMulDiv mu di).k = s.k := rfl
@[simp] theorem putMulDiv_m : (s.putMulDiv mu di).m = s.m := rfl
@[simp] theorem putMulDiv_matIndex (a c : Nat) : (s.putMulDiv mu di).matIndex a c = s.matIndex a c := rfl
@[simp] theorem putMulDiv_logAt (q : Byte) : (s.putMulDiv mu di).logAt q = s.logAt q := rfl
@[simp] theorem putMulDiv_antilogAt (q : Nat) : (s.putMulDiv mu di).antilogAt q = s.antilogAt q := rfl
@[simp] theorem putMulDiv_invAt (q : Byte) : (s.putMulDiv mu di).invAt q = s.invAt q := rfl
@[simp] theorem putMulDiv_weightAt (q : Byte) : (s.putMulDiv mu di).weightAt q = s.weightAt q := rfl
@[simp] theorem putMulDiv_xAt (q : Nat) : (s.putMulDiv mu di).xAt q = s.xAt q := rfl
@[simp] theorem putMulDiv_yAt (q : Nat) : (s.putMulDiv mu di).yAt q = s.yAt q := rfl
@[simp] theorem putMulDiv_matAt (q : Nat) : (s.putMulDiv mu di).matAt q = s.matAt q := rfl

end

/-! ### putInv -/

section
variable (s : State) (es : List Byte)

@[simp] theorem putInv_regs : (s.putInv es).regs = s.regs := rfl
@[simp] theorem putInv_status : (s.putInv es).status = s.status := rfl
@[simp] theorem putInv_polysel : (s.putInv es).polysel = s.polysel := rfl
@[simp] theorem putInv_poly : (s.putInv es).poly = s.poly := rfl
@[simp] theorem putInv_dim : (s.putInv es).dim = s.dim := rfl
@[simp] theorem putInv_score : (s.putInv es).score = s.score := rfl
@[simp] theorem putInv_fcode : (s.putInv es).fcode = s.fcode := rfl
@[simp] theorem putInv_fcmd : (s.putInv es).fcmd = s.fcmd := rfl
@[simp] theorem putInv_log : (s.putInv es).log = s.log := rfl
@[simp] theorem putInv_antilog : (s.putInv es).antilog = s.antilog := rfl
@[simp] theorem putInv_mul : (s.putInv es).mul = s.mul := rfl
@[simp] theorem putInv_div : (s.putInv es).div = s.div := rfl
@[simp] theorem putInv_weight : (s.putInv es).weight = s.weight := rfl
@[simp] theorem putInv_x : (s.putInv es).x = s.x := rfl
@[simp] theorem putInv_y : (s.putInv es).y = s.y := rfl
@[simp] theorem putInv_mat : (s.putInv es).mat = s.mat := rfl
@[simp] theorem putInv_catalog : (s.putInv es).catalog = s.catalog := rfl
@[simp] theorem putInv_pending : (s.putInv es).pending = s.pending := rfl
@[simp] theorem putInv_resets : (s.putInv es).resets = s.resets := rfl
@[simp] theorem putInv_tableEra : (s.putInv es).tableEra = s.tableEra := rfl
@[simp] theorem putInv_reg (q : Reg) : (s.putInv es).reg q = s.reg q := rfl
@[simp] theorem putInv_flag (g : Flag) : (s.putInv es).flag g = s.flag g := rfl
@[simp] theorem putInv_k : (s.putInv es).k = s.k := rfl
@[simp] theorem putInv_m : (s.putInv es).m = s.m := rfl
@[simp] theorem putInv_matIndex (a c : Nat) : (s.putInv es).matIndex a c = s.matIndex a c := rfl
@[simp] theorem putInv_logAt (q : Byte) : (s.putInv es).logAt q = s.logAt q := rfl
@[simp] theorem putInv_antilogAt (q : Nat) : (s.putInv es).antilogAt q = s.antilogAt q := rfl
@[simp] theorem putInv_mulAt (a c : Byte) : (s.putInv es).mulAt a c = s.mulAt a c := rfl
@[simp] theorem putInv_divAt (a c : Byte) : (s.putInv es).divAt a c = s.divAt a c := rfl
@[simp] theorem putInv_weightAt (q : Byte) : (s.putInv es).weightAt q = s.weightAt q := rfl
@[simp] theorem putInv_xAt (q : Nat) : (s.putInv es).xAt q = s.xAt q := rfl
@[simp] theorem putInv_yAt (q : Nat) : (s.putInv es).yAt q = s.yAt q := rfl
@[simp] theorem putInv_matAt (q : Nat) : (s.putInv es).matAt q = s.matAt q := rfl

end

/-! ### putWeight -/

section
variable (s : State) (es : List Byte)

@[simp] theorem putWeight_regs : (s.putWeight es).regs = s.regs := rfl
@[simp] theorem putWeight_status : (s.putWeight es).status = s.status := rfl
@[simp] theorem putWeight_polysel : (s.putWeight es).polysel = s.polysel := rfl
@[simp] theorem putWeight_poly : (s.putWeight es).poly = s.poly := rfl
@[simp] theorem putWeight_dim : (s.putWeight es).dim = s.dim := rfl
@[simp] theorem putWeight_score : (s.putWeight es).score = s.score := rfl
@[simp] theorem putWeight_fcode : (s.putWeight es).fcode = s.fcode := rfl
@[simp] theorem putWeight_fcmd : (s.putWeight es).fcmd = s.fcmd := rfl
@[simp] theorem putWeight_log : (s.putWeight es).log = s.log := rfl
@[simp] theorem putWeight_antilog : (s.putWeight es).antilog = s.antilog := rfl
@[simp] theorem putWeight_mul : (s.putWeight es).mul = s.mul := rfl
@[simp] theorem putWeight_div : (s.putWeight es).div = s.div := rfl
@[simp] theorem putWeight_inv : (s.putWeight es).inv = s.inv := rfl
@[simp] theorem putWeight_x : (s.putWeight es).x = s.x := rfl
@[simp] theorem putWeight_y : (s.putWeight es).y = s.y := rfl
@[simp] theorem putWeight_mat : (s.putWeight es).mat = s.mat := rfl
@[simp] theorem putWeight_catalog : (s.putWeight es).catalog = s.catalog := rfl
@[simp] theorem putWeight_pending : (s.putWeight es).pending = s.pending := rfl
@[simp] theorem putWeight_resets : (s.putWeight es).resets = s.resets := rfl
@[simp] theorem putWeight_tableEra : (s.putWeight es).tableEra = s.tableEra := rfl
@[simp] theorem putWeight_reg (q : Reg) : (s.putWeight es).reg q = s.reg q := rfl
@[simp] theorem putWeight_flag (g : Flag) : (s.putWeight es).flag g = s.flag g := rfl
@[simp] theorem putWeight_k : (s.putWeight es).k = s.k := rfl
@[simp] theorem putWeight_m : (s.putWeight es).m = s.m := rfl
@[simp] theorem putWeight_matIndex (a c : Nat) : (s.putWeight es).matIndex a c = s.matIndex a c := rfl
@[simp] theorem putWeight_logAt (q : Byte) : (s.putWeight es).logAt q = s.logAt q := rfl
@[simp] theorem putWeight_antilogAt (q : Nat) : (s.putWeight es).antilogAt q = s.antilogAt q := rfl
@[simp] theorem putWeight_mulAt (a c : Byte) : (s.putWeight es).mulAt a c = s.mulAt a c := rfl
@[simp] theorem putWeight_divAt (a c : Byte) : (s.putWeight es).divAt a c = s.divAt a c := rfl
@[simp] theorem putWeight_invAt (q : Byte) : (s.putWeight es).invAt q = s.invAt q := rfl
@[simp] theorem putWeight_xAt (q : Nat) : (s.putWeight es).xAt q = s.xAt q := rfl
@[simp] theorem putWeight_yAt (q : Nat) : (s.putWeight es).yAt q = s.yAt q := rfl
@[simp] theorem putWeight_matAt (q : Nat) : (s.putWeight es).matAt q = s.matAt q := rfl

end

/-! ### setDim -/

section
variable (s : State) (v : Word)

@[simp] theorem setDim_regs : (s.setDim v).regs = s.regs := rfl
@[simp] theorem setDim_status : (s.setDim v).status = s.status := rfl
@[simp] theorem setDim_polysel : (s.setDim v).polysel = s.polysel := rfl
@[simp] theorem setDim_poly : (s.setDim v).poly = s.poly := rfl
@[simp] theorem setDim_score : (s.setDim v).score = s.score := rfl
@[simp] theorem setDim_fcode : (s.setDim v).fcode = s.fcode := rfl
@[simp] theorem setDim_fcmd : (s.setDim v).fcmd = s.fcmd := rfl
@[simp] theorem setDim_log : (s.setDim v).log = s.log := rfl
@[simp] theorem setDim_antilog : (s.setDim v).antilog = s.antilog := rfl
@[simp] theorem setDim_mul : (s.setDim v).mul = s.mul := rfl
@[simp] theorem setDim_div : (s.setDim v).div = s.div := rfl
@[simp] theorem setDim_inv : (s.setDim v).inv = s.inv := rfl
@[simp] theorem setDim_weight : (s.setDim v).weight = s.weight := rfl
@[simp] theorem setDim_x : (s.setDim v).x = s.x := rfl
@[simp] theorem setDim_y : (s.setDim v).y = s.y := rfl
@[simp] theorem setDim_mat : (s.setDim v).mat = s.mat := rfl
@[simp] theorem setDim_catalog : (s.setDim v).catalog = s.catalog := rfl
@[simp] theorem setDim_pending : (s.setDim v).pending = s.pending := rfl
@[simp] theorem setDim_resets : (s.setDim v).resets = s.resets := rfl
@[simp] theorem setDim_tableEra : (s.setDim v).tableEra = s.tableEra := rfl
@[simp] theorem setDim_reg (q : Reg) : (s.setDim v).reg q = s.reg q := rfl
@[simp] theorem setDim_flag (g : Flag) : (s.setDim v).flag g = s.flag g := rfl
@[simp] theorem setDim_logAt (q : Byte) : (s.setDim v).logAt q = s.logAt q := rfl
@[simp] theorem setDim_antilogAt (q : Nat) : (s.setDim v).antilogAt q = s.antilogAt q := rfl
@[simp] theorem setDim_mulAt (a c : Byte) : (s.setDim v).mulAt a c = s.mulAt a c := rfl
@[simp] theorem setDim_divAt (a c : Byte) : (s.setDim v).divAt a c = s.divAt a c := rfl
@[simp] theorem setDim_invAt (q : Byte) : (s.setDim v).invAt q = s.invAt q := rfl
@[simp] theorem setDim_weightAt (q : Byte) : (s.setDim v).weightAt q = s.weightAt q := rfl
@[simp] theorem setDim_xAt (q : Nat) : (s.setDim v).xAt q = s.xAt q := rfl
@[simp] theorem setDim_yAt (q : Nat) : (s.setDim v).yAt q = s.yAt q := rfl
@[simp] theorem setDim_matAt (q : Nat) : (s.setDim v).matAt q = s.matAt q := rfl

end

/-! ### setScore -/

section
variable (s : State) (v : Word)

@[simp] theorem setScore_regs : (s.setScore v).regs = s.regs := rfl
@[simp] theorem setScore_status : (s.setScore v).status = s.status := rfl
@[simp] theorem setScore_polysel : (s.setScore v).polysel = s.polysel := rfl
@[simp] theorem setScore_poly : (s.setScore v).poly = s.poly := rfl
@[simp] theorem setScore_dim : (s.setScore v).dim = s.dim := rfl
@[simp] theorem setScore_fcode : (s.setScore v).fcode = s.fcode := rfl
@[simp] theorem setScore_fcmd : (s.setScore v).fcmd = s.fcmd := rfl
@[simp] theorem setScore_log : (s.setScore v).log = s.log := rfl
@[simp] theorem setScore_antilog : (s.setScore v).antilog = s.antilog := rfl
@[simp] theorem setScore_mul : (s.setScore v).mul = s.mul := rfl
@[simp] theorem setScore_div : (s.setScore v).div = s.div := rfl
@[simp] theorem setScore_inv : (s.setScore v).inv = s.inv := rfl
@[simp] theorem setScore_weight : (s.setScore v).weight = s.weight := rfl
@[simp] theorem setScore_x : (s.setScore v).x = s.x := rfl
@[simp] theorem setScore_y : (s.setScore v).y = s.y := rfl
@[simp] theorem setScore_mat : (s.setScore v).mat = s.mat := rfl
@[simp] theorem setScore_catalog : (s.setScore v).catalog = s.catalog := rfl
@[simp] theorem setScore_pending : (s.setScore v).pending = s.pending := rfl
@[simp] theorem setScore_resets : (s.setScore v).resets = s.resets := rfl
@[simp] theorem setScore_tableEra : (s.setScore v).tableEra = s.tableEra := rfl
@[simp] theorem setScore_reg (q : Reg) : (s.setScore v).reg q = s.reg q := rfl
@[simp] theorem setScore_flag (g : Flag) : (s.setScore v).flag g = s.flag g := rfl
@[simp] theorem setScore_k : (s.setScore v).k = s.k := rfl
@[simp] theorem setScore_m : (s.setScore v).m = s.m := rfl
@[simp] theorem setScore_matIndex (a c : Nat) : (s.setScore v).matIndex a c = s.matIndex a c := rfl
@[simp] theorem setScore_logAt (q : Byte) : (s.setScore v).logAt q = s.logAt q := rfl
@[simp] theorem setScore_antilogAt (q : Nat) : (s.setScore v).antilogAt q = s.antilogAt q := rfl
@[simp] theorem setScore_mulAt (a c : Byte) : (s.setScore v).mulAt a c = s.mulAt a c := rfl
@[simp] theorem setScore_divAt (a c : Byte) : (s.setScore v).divAt a c = s.divAt a c := rfl
@[simp] theorem setScore_invAt (q : Byte) : (s.setScore v).invAt q = s.invAt q := rfl
@[simp] theorem setScore_weightAt (q : Byte) : (s.setScore v).weightAt q = s.weightAt q := rfl
@[simp] theorem setScore_xAt (q : Nat) : (s.setScore v).xAt q = s.xAt q := rfl
@[simp] theorem setScore_yAt (q : Nat) : (s.setScore v).yAt q = s.yAt q := rfl
@[simp] theorem setScore_matAt (q : Nat) : (s.setScore v).matAt q = s.matAt q := rfl

end

/-! ### withPending -/

section
variable (s : State) (rest : List HostInput)

@[simp] theorem withPending_regs : (s.withPending rest).regs = s.regs := rfl
@[simp] theorem withPending_status : (s.withPending rest).status = s.status := rfl
@[simp] theorem withPending_polysel : (s.withPending rest).polysel = s.polysel := rfl
@[simp] theorem withPending_poly : (s.withPending rest).poly = s.poly := rfl
@[simp] theorem withPending_dim : (s.withPending rest).dim = s.dim := rfl
@[simp] theorem withPending_score : (s.withPending rest).score = s.score := rfl
@[simp] theorem withPending_fcode : (s.withPending rest).fcode = s.fcode := rfl
@[simp] theorem withPending_fcmd : (s.withPending rest).fcmd = s.fcmd := rfl
@[simp] theorem withPending_log : (s.withPending rest).log = s.log := rfl
@[simp] theorem withPending_antilog : (s.withPending rest).antilog = s.antilog := rfl
@[simp] theorem withPending_mul : (s.withPending rest).mul = s.mul := rfl
@[simp] theorem withPending_div : (s.withPending rest).div = s.div := rfl
@[simp] theorem withPending_inv : (s.withPending rest).inv = s.inv := rfl
@[simp] theorem withPending_weight : (s.withPending rest).weight = s.weight := rfl
@[simp] theorem withPending_x : (s.withPending rest).x = s.x := rfl
@[simp] theorem withPending_y : (s.withPending rest).y = s.y := rfl
@[simp] theorem withPending_mat : (s.withPending rest).mat = s.mat := rfl
@[simp] theorem withPending_catalog : (s.withPending rest).catalog = s.catalog := rfl
@[simp] theorem withPending_resets : (s.withPending rest).resets = s.resets := rfl
@[simp] theorem withPending_tableEra : (s.withPending rest).tableEra = s.tableEra := rfl
@[simp] theorem withPending_reg (q : Reg) : (s.withPending rest).reg q = s.reg q := rfl
@[simp] theorem withPending_flag (g : Flag) : (s.withPending rest).flag g = s.flag g := rfl
@[simp] theorem withPending_k : (s.withPending rest).k = s.k := rfl
@[simp] theorem withPending_m : (s.withPending rest).m = s.m := rfl
@[simp] theorem withPending_matIndex (a c : Nat) : (s.withPending rest).matIndex a c = s.matIndex a c := rfl
@[simp] theorem withPending_logAt (q : Byte) : (s.withPending rest).logAt q = s.logAt q := rfl
@[simp] theorem withPending_antilogAt (q : Nat) : (s.withPending rest).antilogAt q = s.antilogAt q := rfl
@[simp] theorem withPending_mulAt (a c : Byte) : (s.withPending rest).mulAt a c = s.mulAt a c := rfl
@[simp] theorem withPending_divAt (a c : Byte) : (s.withPending rest).divAt a c = s.divAt a c := rfl
@[simp] theorem withPending_invAt (q : Byte) : (s.withPending rest).invAt q = s.invAt q := rfl
@[simp] theorem withPending_weightAt (q : Byte) : (s.withPending rest).weightAt q = s.weightAt q := rfl
@[simp] theorem withPending_xAt (q : Nat) : (s.withPending rest).xAt q = s.xAt q := rfl
@[simp] theorem withPending_yAt (q : Nat) : (s.withPending rest).yAt q = s.yAt q := rfl
@[simp] theorem withPending_matAt (q : Nat) : (s.withPending rest).matAt q = s.matAt q := rfl

end

/-! ### presentNext -/

section
variable (s : State) (cmd : Word)

@[simp] theorem presentNext_regs : (s.presentNext cmd).regs = s.regs := rfl
@[simp] theorem presentNext_status : (s.presentNext cmd).status = s.status := rfl
@[simp] theorem presentNext_polysel : (s.presentNext cmd).polysel = s.polysel := rfl
@[simp] theorem presentNext_poly : (s.presentNext cmd).poly = s.poly := rfl
@[simp] theorem presentNext_dim : (s.presentNext cmd).dim = s.dim := rfl
@[simp] theorem presentNext_score : (s.presentNext cmd).score = s.score := rfl
@[simp] theorem presentNext_fcode : (s.presentNext cmd).fcode = s.fcode := rfl
@[simp] theorem presentNext_fcmd : (s.presentNext cmd).fcmd = s.fcmd := rfl
@[simp] theorem presentNext_log : (s.presentNext cmd).log = s.log := rfl
@[simp] theorem presentNext_antilog : (s.presentNext cmd).antilog = s.antilog := rfl
@[simp] theorem presentNext_mul : (s.presentNext cmd).mul = s.mul := rfl
@[simp] theorem presentNext_div : (s.presentNext cmd).div = s.div := rfl
@[simp] theorem presentNext_inv : (s.presentNext cmd).inv = s.inv := rfl
@[simp] theorem presentNext_weight : (s.presentNext cmd).weight = s.weight := rfl
@[simp] theorem presentNext_x : (s.presentNext cmd).x = s.x := rfl
@[simp] theorem presentNext_y : (s.presentNext cmd).y = s.y := rfl
@[simp] theorem presentNext_mat : (s.presentNext cmd).mat = s.mat := rfl
@[simp] theorem presentNext_catalog : (s.presentNext cmd).catalog = s.catalog := rfl
@[simp] theorem presentNext_resets : (s.presentNext cmd).resets = s.resets := rfl
@[simp] theorem presentNext_tableEra : (s.presentNext cmd).tableEra = s.tableEra := rfl
@[simp] theorem presentNext_reg (q : Reg) : (s.presentNext cmd).reg q = s.reg q := rfl
@[simp] theorem presentNext_flag (g : Flag) : (s.presentNext cmd).flag g = s.flag g := rfl
@[simp] theorem presentNext_k : (s.presentNext cmd).k = s.k := rfl
@[simp] theorem presentNext_m : (s.presentNext cmd).m = s.m := rfl
@[simp] theorem presentNext_matIndex (a c : Nat) : (s.presentNext cmd).matIndex a c = s.matIndex a c := rfl
@[simp] theorem presentNext_logAt (q : Byte) : (s.presentNext cmd).logAt q = s.logAt q := rfl
@[simp] theorem presentNext_antilogAt (q : Nat) : (s.presentNext cmd).antilogAt q = s.antilogAt q := rfl
@[simp] theorem presentNext_mulAt (a c : Byte) : (s.presentNext cmd).mulAt a c = s.mulAt a c := rfl
@[simp] theorem presentNext_divAt (a c : Byte) : (s.presentNext cmd).divAt a c = s.divAt a c := rfl
@[simp] theorem presentNext_invAt (q : Byte) : (s.presentNext cmd).invAt q = s.invAt q := rfl
@[simp] theorem presentNext_weightAt (q : Byte) : (s.presentNext cmd).weightAt q = s.weightAt q := rfl
@[simp] theorem presentNext_xAt (q : Nat) : (s.presentNext cmd).xAt q = s.xAt q := rfl
@[simp] theorem presentNext_yAt (q : Nat) : (s.presentNext cmd).yAt q = s.yAt q := rfl
@[simp] theorem presentNext_matAt (q : Nat) : (s.presentNext cmd).matAt q = s.matAt q := rfl

end

/-! ### raise -/

section
variable (s : State) (f : EngineFault) (cmd : Word)

@[simp] theorem raise_regs : (raise f cmd s).regs = s.regs := rfl
@[simp] theorem raise_polysel : (raise f cmd s).polysel = s.polysel := rfl
@[simp] theorem raise_poly : (raise f cmd s).poly = s.poly := rfl
@[simp] theorem raise_dim : (raise f cmd s).dim = s.dim := rfl
@[simp] theorem raise_score : (raise f cmd s).score = s.score := rfl
@[simp] theorem raise_log : (raise f cmd s).log = s.log := rfl
@[simp] theorem raise_antilog : (raise f cmd s).antilog = s.antilog := rfl
@[simp] theorem raise_mul : (raise f cmd s).mul = s.mul := rfl
@[simp] theorem raise_div : (raise f cmd s).div = s.div := rfl
@[simp] theorem raise_inv : (raise f cmd s).inv = s.inv := rfl
@[simp] theorem raise_weight : (raise f cmd s).weight = s.weight := rfl
@[simp] theorem raise_x : (raise f cmd s).x = s.x := rfl
@[simp] theorem raise_y : (raise f cmd s).y = s.y := rfl
@[simp] theorem raise_mat : (raise f cmd s).mat = s.mat := rfl
@[simp] theorem raise_catalog : (raise f cmd s).catalog = s.catalog := rfl
@[simp] theorem raise_pending : (raise f cmd s).pending = s.pending := rfl
@[simp] theorem raise_resets : (raise f cmd s).resets = s.resets := rfl
@[simp] theorem raise_tableEra : (raise f cmd s).tableEra = s.tableEra := rfl
@[simp] theorem raise_reg (q : Reg) : (raise f cmd s).reg q = s.reg q := rfl
@[simp] theorem raise_k : (raise f cmd s).k = s.k := rfl
@[simp] theorem raise_m : (raise f cmd s).m = s.m := rfl
@[simp] theorem raise_matIndex (a c : Nat) : (raise f cmd s).matIndex a c = s.matIndex a c := rfl
@[simp] theorem raise_logAt (q : Byte) : (raise f cmd s).logAt q = s.logAt q := rfl
@[simp] theorem raise_antilogAt (q : Nat) : (raise f cmd s).antilogAt q = s.antilogAt q := rfl
@[simp] theorem raise_mulAt (a c : Byte) : (raise f cmd s).mulAt a c = s.mulAt a c := rfl
@[simp] theorem raise_divAt (a c : Byte) : (raise f cmd s).divAt a c = s.divAt a c := rfl
@[simp] theorem raise_invAt (q : Byte) : (raise f cmd s).invAt q = s.invAt q := rfl
@[simp] theorem raise_weightAt (q : Byte) : (raise f cmd s).weightAt q = s.weightAt q := rfl
@[simp] theorem raise_xAt (q : Nat) : (raise f cmd s).xAt q = s.xAt q := rfl
@[simp] theorem raise_yAt (q : Nat) : (raise f cmd s).yAt q = s.yAt q := rfl
@[simp] theorem raise_matAt (q : Nat) : (raise f cmd s).matAt q = s.matAt q := rfl

end

/-! ### What the updates write -/

section
variable (s : State)

@[simp] theorem setX_x (i : Nat) (v : Byte) : (s.setX i v).x = s.x.store i [v] := rfl
@[simp] theorem setY_y (i : Nat) (v : Byte) : (s.setY i v).y = s.y.store i [v] := rfl
@[simp] theorem storeMat_mat (i : Nat) (vs : List Byte) : (s.storeMat i vs).mat = s.mat.store i vs := rfl
@[simp] theorem putField_log (l : List (BitVec 16)) (a : List Byte) (ps p : Word) :
    (s.putField l a ps p).log = s.log.store 0 l := rfl
@[simp] theorem putField_antilog (l : List (BitVec 16)) (a : List Byte) (ps p : Word) :
    (s.putField l a ps p).antilog = s.antilog.store 0 a := rfl
@[simp] theorem putField_polysel (l : List (BitVec 16)) (a : List Byte) (ps p : Word) :
    (s.putField l a ps p).polysel = ps := rfl
@[simp] theorem putField_poly (l : List (BitVec 16)) (a : List Byte) (ps p : Word) :
    (s.putField l a ps p).poly = p := rfl
@[simp] theorem putField_tableEra (l : List (BitVec 16)) (a : List Byte) (ps p : Word) :
    (s.putField l a ps p).tableEra = s.tableEra + 1 := rfl
@[simp] theorem putMulDiv_mul (mul div : List (Memory 8)) : (s.putMulDiv mul div).mul = mul := rfl
@[simp] theorem putMulDiv_div (mul div : List (Memory 8)) : (s.putMulDiv mul div).div = div := rfl
@[simp] theorem putInv_inv (es : List Byte) : (s.putInv es).inv = s.inv.store 1 es := rfl
@[simp] theorem putWeight_weight (es : List Byte) : (s.putWeight es).weight = s.weight.store 0 es := rfl
@[simp] theorem setDim_dim (v : Word) : (s.setDim v).dim = v := rfl
@[simp] theorem setScore_score (v : Word) : (s.setScore v).score = v := rfl
@[simp] theorem withPending_pending (rest : List HostInput) : (s.withPending rest).pending = rest := rfl
@[simp] theorem presentNext_pending (cmd : Word) :
    (s.presentNext cmd).pending = .command cmd :: s.pending := rfl
@[simp] theorem raise_fcode (f : EngineFault) (cmd : Word) : (raise f cmd s).fcode = f.code := rfl
@[simp] theorem raise_fcmd (f : EngineFault) (cmd : Word) : (raise f cmd s).fcmd = cmd := rfl
@[simp] theorem raise_status (f : EngineFault) (cmd : Word) :
    (raise f cmd s).status = (s.setFlag .fault true).status := rfl

end

/-! ### resetEngine -/

section
variable (s : State)

@[simp] theorem resetEngine_regs : s.resetEngine.regs = State.reset.regs := rfl
@[simp] theorem resetEngine_status : s.resetEngine.status = State.reset.status := rfl
@[simp] theorem resetEngine_polysel : s.resetEngine.polysel = State.reset.polysel := rfl
@[simp] theorem resetEngine_poly : s.resetEngine.poly = State.reset.poly := rfl
@[simp] theorem resetEngine_dim : s.resetEngine.dim = State.reset.dim := rfl
@[simp] theorem resetEngine_score : s.resetEngine.score = State.reset.score := rfl
@[simp] theorem resetEngine_fcode : s.resetEngine.fcode = State.reset.fcode := rfl
@[simp] theorem resetEngine_fcmd : s.resetEngine.fcmd = State.reset.fcmd := rfl
@[simp] theorem resetEngine_log : s.resetEngine.log = State.reset.log := rfl
@[simp] theorem resetEngine_antilog : s.resetEngine.antilog = State.reset.antilog := rfl
@[simp] theorem resetEngine_mul : s.resetEngine.mul = State.reset.mul := rfl
@[simp] theorem resetEngine_div : s.resetEngine.div = State.reset.div := rfl
@[simp] theorem resetEngine_inv : s.resetEngine.inv = State.reset.inv := rfl
@[simp] theorem resetEngine_weight : s.resetEngine.weight = State.reset.weight := rfl
@[simp] theorem resetEngine_x : s.resetEngine.x = State.reset.x := rfl
@[simp] theorem resetEngine_y : s.resetEngine.y = State.reset.y := rfl
@[simp] theorem resetEngine_mat : s.resetEngine.mat = State.reset.mat := rfl
@[simp] theorem resetEngine_catalog : s.resetEngine.catalog = s.catalog := rfl
@[simp] theorem resetEngine_pending : s.resetEngine.pending = s.pending := rfl
@[simp] theorem resetEngine_resets : s.resetEngine.resets = s.resets + 1 := rfl
@[simp] theorem resetEngine_tableEra : s.resetEngine.tableEra = s.tableEra + 1 := rfl

end

end Sys2Proof.Machine
end

