-- ==== Sys2Proof/Laws/Ops.lean ====
section
/-! SUPPORT. What the shared operations can do, said once: flags, registers, the end of a command, operands. -/

namespace Sys2Proof.Machine

/-! ### Flags -/

theorem writeBit_getLsbD (w : Word) (i j : Nat) (b : Bool) (hi : i < 32) :
    (writeBit w i b).getLsbD j = if j = i then b else w.getLsbD j := by
  unfold writeBit
  by_cases hj : j < 32
  · cases b <;> by_cases h : j = i <;> simp [hj, h, hi] <;> (try intro _) <;> omega
  · have : j ≠ i := by omega
    simp [this, BitVec.getLsbD_of_ge _ _ (Nat.le_of_not_lt hj)]

theorem Flag.bit_lt (f : Flag) : f.bit < 32 := by cases f <;> decide

theorem Flag.bit_inj (f g : Flag) : f.bit = g.bit ↔ f = g := by cases f <;> cases g <;> decide

/-- Writing a flag and reading one (R38, R47): no other flag changes. -/
@[simp] theorem flag_setFlag (s : State) (f g : Flag) (b : Bool) :
    (s.setFlag f b).flag g = if g = f then b else s.flag g := by
  have := writeBit_getLsbD s.status f.bit g.bit b f.bit_lt
  simp only [State.flag, State.setFlag, this, Flag.bit_inj]

/-- Writing a flag leaves every other bit of STATUS, the reserved ones among them. -/
theorem setFlag_status_bit (s : State) (f : Flag) (b : Bool) (j : Nat) (h : j ≠ f.bit) :
    (s.setFlag f b).status.getLsbD j = s.status.getLsbD j := by
  simp [State.setFlag, writeBit_getLsbD _ _ _ _ f.bit_lt, h]

@[simp] theorem raise_flag (f : EngineFault) (cmd : Word) (s : State) (g : Flag) :
    (raise f cmd s).flag g = if g = .fault then true else s.flag g :=
  flag_setFlag { s with fcode := f.code, fcmd := cmd } .fault g true

@[simp] theorem resetEngine_flag (s : State) (g : Flag) : s.resetEngine.flag g = false := by
  simp [State.flag, State.reset]

/-! ### Registers -/

/-- Reading a register after writing one (R31, R32): none is hard-wired. -/
@[simp] theorem reg_setReg (s : State) (r q : Reg) (v : Word) :
    (s.setReg r v).reg q = if q = r then v else s.reg q := by
  unfold State.reg State.setReg
  by_cases h : q = r
  · subst h; simp
  · have : r.toNat ≠ q.toNat := fun e => h (BitVec.eq_of_toNat_eq e.symm)
    simp [h, this]

@[simp] theorem reset_reg (q : Reg) : State.reset.reg q = 0 := by
  simp [State.reg, State.reset]

/-! ### The end of a command -/

@[simp] theorem finish_ok (cmd : Word) (s t : State) : finish cmd s (.ok t) = .next t := rfl
@[simp] theorem finish_engine (cmd : Word) (s : State) (f : EngineFault) :
    finish cmd s (.error (.engine f)) = .next (raise f cmd s) := rfl
@[simp] theorem finish_model (cmd : Word) (s : State) (f : Fault) :
    finish cmd s (.error (.model f)) = .fault f := rfl

/-- A command that answers a next state either completed or entered a fault (R12, R275). -/
theorem finish_next {cmd : Word} {s t : State} {r : Except Stop State} (h : finish cmd s r = .next t) :
    r = .ok t ∨ ∃ f, r = .error (.engine f) ∧ t = raise f cmd s := by
  match r, h with
  | .ok u, h => exact .inl (by simpa using h)
  | .error (.engine f), h => exact .inr ⟨f, rfl, by simpa using h.symm⟩

/-- A command never answers a refusal. -/
theorem finish_ne_refused (cmd : Word) (s : State) (r : Except Stop State) (q : Refusal) :
    finish cmd s r ≠ .refused q := by
  match r with
  | .ok _ | .error (.engine _) | .error (.model _) => simp

/-! ### Sequencing the checks of a command's rule -/

@[simp] theorem except_pure_eq {α : Type} (a : α) : (pure a : Except Stop α) = .ok a := rfl
@[simp] theorem except_bind_ok {α β : Type} (a : α) (f : α → Except Stop β) :
    ((Except.ok a : Except Stop α) >>= f) = f a := rfl
@[simp] theorem except_bind_error {α β : Type} (e : Stop) (f : α → Except Stop β) :
    ((Except.error e : Except Stop α) >>= f) = .error e := rfl

/-- What a sequence of two rules answered comes from what the first answered. -/
theorem except_bind_eq_ok {α β : Type} {r : Except Stop α} {f : α → Except Stop β} {b : β}
    (h : (r >>= f) = .ok b) : ∃ a, r = .ok a ∧ f a = .ok b := by
  match r, h with
  | .ok a, h => exact ⟨a, rfl, h⟩

@[simp] theorem check_true (f : EngineFault) : check true f = .ok () := rfl
@[simp] theorem check_false (f : EngineFault) : check false f = .error (.engine f) := rfl
@[simp] theorem needReady_true : needReady true = .ok () := rfl
@[simp] theorem needReady_false : needReady false = .error (.engine .notReady) := rfl

theorem check_ok {ok : Bool} {f : EngineFault} : check ok f = .ok () ↔ ok = true := by
  cases ok <;> simp

theorem needElements_ok {n : Nat} (h : n ≤ Config.matLen) : needElements n = .ok () := by
  simp [needElements, h]

/-! ### Operands -/

theorem upTo_ok {s : State} {r : Reg} {b : Nat} (h : (s.reg r).toNat ≤ b) :
    s.upTo r b = .ok (s.reg r).toNat := by
  simp [State.upTo, h]

theorem upTo_error {s : State} {r : Reg} {b : Nat} (h : ¬ (s.reg r).toNat ≤ b) :
    s.upTo r b = .error (.engine .operandRange) := by
  simp [State.upTo, h]

/-- A field-value operand in range is the low byte of the register (R140). -/
theorem fv_ok {s : State} {r : Reg} (h : (s.reg r).toNat ≤ 255) :
    s.fv r = .ok ((s.reg r).setWidth 8) := by
  have : BitVec.ofNat 8 (s.reg r).toNat = (s.reg r).setWidth 8 := by
    apply BitVec.eq_of_toNat_eq; simp
  simp [State.fv, upTo_ok h, this]

theorem fv_error {s : State} {r : Reg} (h : ¬ (s.reg r).toNat ≤ 255) :
    s.fv r = .error (.engine .operandRange) := by
  simp [State.fv, upTo_error h]

theorem rowCol_ok {s : State} {ra rb : Reg} (hr : (s.reg ra).toNat < s.m) (hc : (s.reg rb).toNat < s.k) :
    s.rowCol ra rb = .ok ((s.reg ra).toNat, (s.reg rb).toNat) := by
  simp [State.rowCol, hr, hc]

theorem rowCol_error {s : State} {ra rb : Reg}
    (h : ¬ ((s.reg ra).toNat < s.m ∧ (s.reg rb).toNat < s.k)) :
    s.rowCol ra rb = .error (.engine .operandRange) := by
  have : (decide ((s.reg ra).toNat < s.m) && decide ((s.reg rb).toNat < s.k)) = false := by
    rw [Bool.eq_false_iff]; simpa using h
  simp [State.rowCol, this]

end Sys2Proof.Machine
end

