-- ==== Sys2Proof/Laws/Tables.lean ====
section
/-! SUPPORT. What the table builders leave to be read, and the two forms of the primitivity test (R124 (c)). -/

namespace Sys2Proof.Machine

/-! ### The doubling sequence -/

theorem doublings_length (p : BitVec 9) (n : Nat) (a : Byte) : (doublings p n a).length = n := by
  induction n generalizing a with
  | zero => rfl
  | succ n ih => simp [doublings, ih]

@[simp] theorem cycle_length (p : BitVec 9) : (cycle p).length = 255 := doublings_length p 255 1

theorem doublings_getElem? (p : BitVec 9) (n : Nat) (a : Byte) (j : Nat) (h : j < n) :
    (doublings p n a)[j]? = some ((dblByte p)^[j] a) := by
  induction n generalizing a j with
  | zero => omega
  | succ n ih =>
    cases j with
    | zero => simp [doublings]
    | succ j => simpa [doublings] using ih (dblByte p a) j (by omega)

/-- `A[j]` is 1 doubled `j` times (R123). -/
theorem cycle_getElem? (p : BitVec 9) (j : Nat) (h : j < 255) :
    (cycle p)[j]? = some ((dblByte p)^[j] 1) := doublings_getElem? p 255 1 j h

/-! ### The primitivity test -/

theorem testBit_foldl_or (a : List Byte) (seen : Nat) (i : Nat) :
    (a.foldl (fun seen v => seen ||| (1 <<< v.toNat)) seen).testBit i
      = (seen.testBit i || a.any fun v => v.toNat == i) := by
  induction a generalizing seen with
  | nil => simp
  | cons v a ih =>
    rw [List.foldl_cons, ih, Nat.testBit_or, List.any_cons, Nat.one_shiftLeft, Nat.testBit_two_pow]
    cases seen.testBit i <;> simp [beq_eq_decide]

theorem testBit_valuesSeen (a : List Byte) (i : Nat) :
    (valuesSeen a).testBit i = a.any fun v => v.toNat == i := by
  simp [valuesSeen, testBit_foldl_or]

theorem testBit_allValues (i : Nat) : (2 ^ 256 - 2).testBit i = (decide (i < 256) && decide (i ≠ 0)) := by
  have h : 2 ^ 256 - 2 = (2 ^ 255 - 1) <<< 1 := by decide
  rw [h, Nat.testBit_shiftLeft, Nat.testBit_two_pow_sub_one]
  rcases i with _ | i
  · rfl
  · simp; omega

/-- The values seen are 1..255 exactly when every non-zero byte occurs and 0 does not. -/
theorem isFullCycle_iff_mem (a : List Byte) :
    isFullCycle a = true ↔ ∀ v : Byte, v ∈ a ↔ v ≠ 0 := by
  have key : isFullCycle a = true ↔ ∀ i, (valuesSeen a).testBit i = (2 ^ 256 - 2).testBit i := by
    simp only [isFullCycle, beq_iff_eq]
    exact ⟨fun h i => by rw [h], Nat.eq_of_testBit_eq⟩
  have hmem : ∀ v : Byte, v ∈ a ↔ a.any (fun u => u.toNat == v.toNat) = true := by
    intro v
    simp only [List.any_eq_true, beq_iff_eq, BitVec.toNat_inj]
    exact ⟨fun h => ⟨v, h, rfl⟩, fun ⟨u, hu, e⟩ => e ▸ hu⟩
  rw [key]
  constructor
  · intro h v
    have h2 := h v.toNat
    rw [testBit_valuesSeen, testBit_allValues] at h2
    rw [hmem, h2]
    have := v.isLt
    simp [this, ← BitVec.toNat_inj]
  · intro h i
    rw [testBit_valuesSeen, testBit_allValues]
    by_cases hi : i < 256
    · have h2 := h (BitVec.ofNat 8 i)
      have e : (BitVec.ofNat 8 i).toNat = i := by simp; omega
      rw [hmem, e] at h2
      rw [Bool.eq_iff_iff, h2, ne_eq, ← BitVec.toNat_inj, e]
      simp [hi]
    · have : (a.any fun v => v.toNat == i) = false := by
        rw [List.any_eq_false]
        intro v _
        have := v.isLt
        simp only [beq_iff_eq]
        omega
      simp [this, hi]

theorem card_byte : Fintype.card Byte = 256 := by
  rw [Fintype.card_congr (BitVec.equivFin (m := 8)).toEquiv, Fintype.card_fin]
  norm_num

/-- A list of 255 bytes in which every non-zero byte occurs and 0 does not holds each of them once. -/
theorem nodup_of_full {a : List Byte} (hl : a.length = 255) (h : ∀ v : Byte, v ∈ a ↔ v ≠ 0) : a.Nodup := by
  classical
  have h1 : a.toFinset = (Finset.univ : Finset Byte).erase 0 := by
    ext v; simp [h]
  have h2 : a.toFinset.card = 255 := by
    rw [h1, Finset.card_erase_of_mem (Finset.mem_univ _), Finset.card_univ, card_byte]
  have h3 : a.dedup.length = a.length := by
    rw [hl, ← h2, List.card_toFinset]
  have h4 : a.dedup = a := (List.dedup_sublist a).eq_of_length h3
  exact List.dedup_eq_self.1 h4

/-- R124 (c), "every nonzero byte 1..255 must appear in antilog[0..254] exactly once", is the test the model
makes. -/
theorem isFullCycle_iff_count (p : BitVec 9) :
    isFullCycle (cycle p) = true ↔ ∀ v : Byte, v ≠ 0 → (cycle p).count v = 1 := by
  rw [isFullCycle_iff_mem]
  constructor
  · intro h v hv
    exact List.count_eq_one_of_mem (nodup_of_full (cycle_length p) h) ((h v).2 hv)
  · intro h v
    constructor
    · rintro hv rfl
      have hmem : ∀ v : Byte, v ∈ cycle p := by
        intro u
        by_cases hu : u = 0
        · exact hu ▸ hv
        · exact List.count_pos_iff.1 (by rw [h u hu]; decide)
      classical
      have h1 : (cycle p).toFinset = Finset.univ := by ext u; simp [hmem]
      have h2 : (cycle p).toFinset.card ≤ 255 := by
        simpa using List.toFinset_card_le (cycle p)
      rw [h1, Finset.card_univ, card_byte] at h2
      omega
    · intro hv
      exact List.count_pos_iff.1 (by rw [h v hv]; decide)

/-! ### Reading what was built -/

theorem read?_tableRow (f : Nat → Byte) (x : Nat) (h : x < 256) :
    Memory.read? (tableRow f) x = some (f x) := by
  rw [tableRow, read?_store, if_pos ⟨Nat.zero_le _, by rw [List.length_map, List.length_range]; omega⟩,
    Nat.sub_zero, List.getElem?_map, List.getElem?_range h]
  rfl

theorem readRow?_map_tableRow (f : Nat → Nat → Byte) (y x : Byte) :
    readRow? ((List.range 256).map fun y => tableRow (f y)) y x = some (f y.toNat x.toNat) := by
  have hy : y.toNat < 256 := y.isLt
  have hx : x.toNat < 256 := x.isLt
  rw [readRow?, List.getElem?_map, List.getElem?_range hy]
  exact read?_tableRow _ _ hx

theorem ofNat_toNat_byte (v : Byte) : BitVec.ofNat 8 v.toNat = v := by simp

/-- MUL as MDBUILD leaves it (R128). -/
theorem readRow?_mulRows (s : State) (y x : Byte) :
    readRow? s.mulRows y x = some (if y = 0 ∨ x = 0 then 0
      else s.antilogAt ((s.logAt x).toNat + (s.logAt y).toNat)) := by
  have h0 : ∀ v : Byte, v.toNat = 0 ↔ v = 0 := fun v => by simp [← BitVec.toNat_inj]
  simp only [State.mulRows, readRow?_map_tableRow, ofNat_toNat_byte, h0, BitVec.ofNat_eq_ofNat]

/-- DIV as MDBUILD leaves it (R128). -/
theorem readRow?_divRows (s : State) (y x : Byte) :
    readRow? s.divRows y x = some (if y = 0 ∨ x = 0 then 0
      else s.antilogAt ((s.logAt x).toNat + (255 - (s.logAt y).toNat))) := by
  have h0 : ∀ v : Byte, v.toNat = 0 ↔ v = 0 := fun v => by simp [← BitVec.toNat_inj]
  simp only [State.divRows, readRow?_map_tableRow, ofNat_toNat_byte, h0, BitVec.ofNat_eq_ofNat]

@[simp] theorem logEntries_length (a : List Byte) : (logEntries a).length = 256 := by
  rw [logEntries, List.length_map, List.length_range]

theorem antilogEntries_length (a : List Byte) (h : a.length = 255) :
    (antilogEntries a).length = Config.antilogLen := by
  rw [antilogEntries, List.length_append, List.length_append, List.length_replicate, h]
  rfl

/-- LOG as GFBUILD leaves it: the sentinel at 0, the position in the cycle elsewhere (R123). -/
theorem read?_logEntries (m : Memory 16) (a : List Byte) (v : Byte) :
    Memory.read? (m.store 0 (logEntries a)) v.toNat
      = some (if v = 0 then Config.logZero else BitVec.ofNat 16 (a.idxOf v)) := by
  have hv := v.isLt
  have h0 : v.toNat = 0 ↔ v = 0 := by simp [← BitVec.toNat_inj]
  rw [read?_store, logEntries_length, if_pos ⟨Nat.zero_le _, by omega⟩]
  simp only [logEntries, Nat.sub_zero, List.getElem?_map, List.getElem?_range hv, Option.map_some, h0,
    ofNat_toNat_byte]

/-- ANTILOG as GFBUILD leaves it: the cycle, its wrap, and zeros (R50, R123). -/
theorem read?_antilogEntries (m : Memory 8) (a : List Byte) (h : a.length = 255) (i : Nat) (hi : i ≤ 1024) :
    Memory.read? (m.store 0 (antilogEntries a)) i
      = if i < 255 then a[i]? else if i < 510 then a[i - 255]? else some 0 := by
  rw [read?_store, antilogEntries_length a h, if_pos ⟨Nat.zero_le _, by simp [Config.antilogLen]; omega⟩]
  simp only [antilogEntries, Nat.sub_zero]
  split_ifs with h1 h2
  · rw [List.getElem?_append_left (by simp; omega), List.getElem?_append_left (by omega)]
  · rw [List.getElem?_append_left (by simp; omega), List.getElem?_append_right (by omega), h]
  · rw [List.getElem?_append_right (by simp; omega), List.getElem?_replicate]
    simp [h, Config.antilogLen]
    omega

end Sys2Proof.Machine
end

