-- ==== Sys2Proof/Laws/Built.lean ====
section
/-! SUPPORT. The tables that the builders leave are the tables of 10_state.md R49 to R54. -/

namespace Sys2Proof.Machine

theorem poly9_of_setWidth {s : State} {p : BitVec 9} (h : s.poly = p.setWidth 32) : s.poly9 = p := by
  rw [State.poly9, h]
  apply BitVec.eq_of_toNat_eq
  simp

/-- LOG and ANTILOG as GFBUILD stores them are those of R49 and R50, when the polynomial passed its tests. -/
theorem fieldTables_of_entries {s : State} {p : BitVec 9} {m : Memory 16} {n : Memory 8}
    (hpoly : s.poly = p.setWidth 32) (h8 : p.getLsbD 8 = true) (h0 : p.getLsbD 0 = true)
    (hfull : isFullCycle (cycle p) = true)
    (hlog : s.log = m.store 0 (logEntries (cycle p)))
    (hanti : s.antilog = n.store 0 (antilogEntries (cycle p))) : FieldTables s := by
  have hp9 := poly9_of_setWidth hpoly
  have hmem := (isFullCycle_iff_mem _).1 hfull
  have hnodup := nodup_of_full (cycle_length p) hmem
  have anti : ∀ i, i ≤ 1024 → s.antilogAt i = ((if i < 255 then (cycle p)[i]? else
      if i < 510 then (cycle p)[i - 255]? else some 0).getD (Config.unspecifiedByte .antilog s.tableEra i)) := by
    intro i hi
    rw [State.antilogAt, hanti, read?_antilogEntries _ _ (cycle_length p) i hi]
  have anti_cycle : ∀ j (h : j < 255), s.antilogAt j = (dblByte p)^[j] 1 := by
    intro j hj
    rw [anti j (by omega), if_pos hj, cycle_getElem? p j hj, Option.getD_some]
  have logv : ∀ v, s.logAt v = if v = 0 then Config.logZero else BitVec.ofNat 16 ((cycle p).idxOf v) := by
    intro v
    rw [State.logAt, hlog, read?_logEntries, Option.getD_some]
  have idx_lt : ∀ v : Byte, v ≠ 0 → (cycle p).idxOf v < 255 := by
    intro v hv
    have := List.idxOf_lt_length_of_mem ((hmem v).2 hv)
    rwa [cycle_length] at this
  have log_nat : ∀ v : Byte, v ≠ 0 → (s.logAt v).toNat = (cycle p).idxOf v := by
    intro v hv
    have := idx_lt v hv
    rw [logv, if_neg hv, BitVec.toNat_ofNat]
    omega
  refine ⟨hp9 ▸ h8, hp9 ▸ h0, ?_, ?_, ?_, ?_, ?_, ?_, ?_, ?_, ?_⟩
  · have := p.isLt
    rw [hpoly]
    simp [BitVec.toNat_setWidth]
    omega
  · exact anti_cycle 0 (by omega)
  · intro j h1 h2
    rw [hp9, anti_cycle j (by omega), anti_cycle (j - 1) (by omega), ← Function.iterate_succ_apply' (dblByte p)]
    congr 2
    omega
  · intro i h1 h2
    have h3 : ¬ i < 255 := by omega
    have h4 : i < 510 := by omega
    have h5 : i - 255 < 255 := by omega
    rw [anti i (by omega), if_neg h3, if_pos h4, anti_cycle _ h5, cycle_getElem? p _ h5, Option.getD_some]
  · intro i h1 h2
    rw [anti i h2, if_neg (by omega), if_neg (by omega), Option.getD_some]
  · intro v hv
    have := idx_lt v hv
    rw [log_nat v hv]
    omega
  · intro v hv
    have hi := idx_lt v hv
    rw [log_nat v hv, anti _ (by omega), if_pos hi]
    rw [List.getElem?_eq_getElem (by rw [cycle_length]; exact hi), Option.getD_some, List.getElem_idxOf]
  · intro e he
    have hlt : e < (cycle p).length := by rw [cycle_length]; omega
    have hA : s.antilogAt e = (cycle p)[e] := by
      rw [anti e (by omega), if_pos (by omega), List.getElem?_eq_getElem hlt, Option.getD_some]
    have hne : s.antilogAt e ≠ 0 := by
      rw [hA]; exact (hmem _).1 (List.getElem_mem hlt)
    rw [log_nat _ hne, hA, List.Nodup.idxOf_getElem hnodup]
  · rw [logv, if_pos rfl]; rfl

/-- The polynomial of an entry has constant term 1 (R120). -/
theorem polyOf_low (e : Byte) : (polyOf e).getLsbD 0 = true := by simp [polyOf]

/-- MUL and DIV as MDBUILD stores them are those of R51 and R52. -/
theorem mulDivTables_of_rows {s t : State} (hm : t.mul = s.mulRows) (hd : t.div = s.divRows)
    (hl : ∀ v, t.logAt v = s.logAt v) (ha : ∀ i, t.antilogAt i = s.antilogAt i) : MulDivTables t := by
  constructor
  · intro y x h
    rw [State.mulAt, hm, readRow?_mulRows, if_pos h, Option.getD_some]
  · intro y x hy hx
    rw [State.mulAt, hm, readRow?_mulRows, if_neg (not_or.2 ⟨hy, hx⟩), Option.getD_some, hl, hl, ha]
  · intro y x h
    rw [State.divAt, hd, readRow?_divRows, if_pos h, Option.getD_some]
  · intro y x hy hx
    rw [State.divAt, hd, readRow?_divRows, if_neg (not_or.2 ⟨hy, hx⟩), Option.getD_some, hl, hl, ha]

/-- INV as INVBUILD stores it (R53, R130). -/
theorem invAt_of_store {s : State} {m : Memory 8} {f : Nat → Byte}
    (h : s.inv = m.store 1 ((List.range' 1 255).map f)) {x : Byte} (hx : x ≠ 0) : s.invAt x = f x.toNat := by
  have h1 : x.toNat ≠ 0 := fun e => hx (BitVec.eq_of_toNat_eq e)
  have h2 : x.toNat < 256 := x.isLt
  rw [State.invAt, h, read?_store,
    if_pos ⟨by omega, by rw [List.length_map, List.length_range']; omega⟩,
    List.getElem?_map, List.getElem?_range' (by omega)]
  simp only [Option.map_some, Option.getD_some]
  congr 1
  omega

/-- WEIGHT as WTBUILD stores it (R54, R131). -/
theorem weightAt_of_store {s : State} {m : Memory 8} {f : Nat → Byte}
    (h : s.weight = m.store 0 ((List.range 256).map f)) (v : Byte) : s.weightAt v = f v.toNat := by
  have h2 : v.toNat < 256 := v.isLt
  rw [State.weightAt, h, read?_store,
    if_pos ⟨by omega, by rw [List.length_map, List.length_range]; omega⟩,
    Nat.sub_zero, List.getElem?_map, List.getElem?_range h2]
  rfl

/-! ### The weight (R170 to R172) -/

theorem popcount_le (b : Byte) : popcount b ≤ 8 := by
  have h : ∀ l : List Nat, (l.map fun i => (b.getLsbD i).toNat).sum ≤ l.length := by
    intro l
    induction l with
    | nil => simp
    | cons i l ih =>
      have := Bool.toNat_le (b.getLsbD i)
      simp only [List.map_cons, List.sum_cons, List.length_cons]
      omega
  simpa [popcount] using h (List.range 8)

theorem weightLoop_le (s : State) (n : Nat) (v : Byte) : s.weightLoop n v ≤ 8 * n := by
  induction n generalizing v with
  | zero => simp [State.weightLoop]
  | succ n ih =>
    have h1 := popcount_le v
    have h2 := ih (s.mulAt 2 v)
    simp only [State.weightLoop]
    omega

/-- A weight is at most 64 (R54, R178), so its WEIGHT entry loses nothing. -/
theorem weightOf_le (s : State) (v : Byte) : s.weightOf v ≤ 64 := weightLoop_le s 8 v

/-- The weight depends on the state through MUL alone. -/
theorem weightOf_congr {s t : State} (h : ∀ y x, t.mulAt y x = s.mulAt y x) (v : Byte) :
    t.weightOf v = s.weightOf v := by
  have : ∀ n v, t.weightLoop n v = s.weightLoop n v := by
    intro n
    induction n with
    | zero => intro v; rfl
    | succ n ih => intro v; simp only [State.weightLoop, ih, h]
  exact this 8 v

/-! ### The table invariants see a state only through its flags, POLY and its tables -/

theorem FieldTables.congr {s t : State} (h : FieldTables s) (hpoly : t.poly = s.poly)
    (hlog : ∀ v, t.logAt v = s.logAt v) (hanti : ∀ i, t.antilogAt i = s.antilogAt i) : FieldTables t := by
  have h9 : t.poly9 = s.poly9 := by rw [State.poly9, State.poly9, hpoly]
  obtain ⟨h1, h2, h3, h4, h5, h6, h7, h8, h9', h10, h11⟩ := h
  constructor <;> simp only [hpoly, h9, hlog, hanti] <;> assumption

theorem MulDivTables.congr {s t : State} (h : MulDivTables s) (hlog : ∀ v, t.logAt v = s.logAt v)
    (hanti : ∀ i, t.antilogAt i = s.antilogAt i) (hmul : ∀ y x, t.mulAt y x = s.mulAt y x)
    (hdiv : ∀ y x, t.divAt y x = s.divAt y x) : MulDivTables t := by
  obtain ⟨h1, h2, h3, h4⟩ := h
  constructor <;> simp only [hlog, hanti, hmul, hdiv] <;> assumption

/-- Two states with the same ready flags, POLY and tables: if the tables hold in one they hold in the other. -/
theorem TablesHold.congr {s t : State} (h : TablesHold s) (hf : ∀ f, f ≠ .fault → f ≠ .dimRdy → t.flag f = s.flag f)
    (hpoly : t.poly = s.poly) (hlog : ∀ v, t.logAt v = s.logAt v) (hanti : ∀ i, t.antilogAt i = s.antilogAt i)
    (hmul : ∀ y x, t.mulAt y x = s.mulAt y x) (hdiv : ∀ y x, t.divAt y x = s.divAt y x)
    (hinv : ∀ v, t.invAt v = s.invAt v) (hweight : ∀ v, t.weightAt v = s.weightAt v) : TablesHold t where
  order := by
    obtain ⟨h1, h2, h3⟩ := h.order
    constructor <;> simpa only [hf .fieldRdy (by decide) (by decide), hf .mulDivRdy (by decide) (by decide),
      hf .invRdy (by decide) (by decide), hf .weightRdy (by decide) (by decide)]
  field hr := (h.field (by rwa [← hf _ (by decide) (by decide)])).congr hpoly hlog hanti
  mulDiv hr := (h.mulDiv (by rwa [← hf _ (by decide) (by decide)])).congr hlog hanti hmul hdiv
  inv hr x hx := by rw [hinv, hdiv]; exact h.inv (by rwa [← hf _ (by decide) (by decide)]) x hx
  weight hr v := by rw [hweight, weightOf_congr hmul]; exact h.weight (by rwa [← hf _ (by decide) (by decide)]) v

end Sys2Proof.Machine
end

