-- ==== Sys2Proof/Laws/Decode.lean ====
section
/-! SUPPORT. The fields of a packed word, and the word its fields pack: what round trips between words and
commands rest on. -/

namespace Sys2Proof

section
variable (op : BitVec 8) (rd ra rb rc : Reg) (imm : Imm16)

theorem packR_getLsbD (i : Nat) : (packR op rd ra rb rc).getLsbD i =
    if i < 8 then false else if i < 12 then rc.getLsbD (i - 8) else if i < 16 then rb.getLsbD (i - 12)
    else if i < 20 then ra.getLsbD (i - 16) else if i < 24 then rd.getLsbD (i - 20)
    else op.getLsbD (i - 24) := by
  simp only [packR, BitVec.getLsbD_append]
  split_ifs <;> first | omega | rfl | simp

theorem packI_getLsbD (i : Nat) : (packI op rd imm).getLsbD i =
    if i < 16 then imm.getLsbD i else if i < 20 then false else if i < 24 then rd.getLsbD (i - 20)
    else op.getLsbD (i - 24) := by
  simp only [packI, BitVec.getLsbD_append]
  split_ifs <;> first | omega | rfl | simp

theorem packZ_getLsbD (i : Nat) :
    (packZ op).getLsbD i = if i < 24 then false else op.getLsbD (i - 24) := by
  simp only [packZ, BitVec.getLsbD_append]
  split_ifs <;> simp

@[simp] theorem opField_packR : opField (packR op rd ra rb rc) = op := by
  apply BitVec.eq_of_getLsbD_eq; intro i hi
  simp only [opField, BitVec.getLsbD_extractLsb', packR_getLsbD]
  interval_cases i <;> simp

@[simp] theorem rdField_packR : rdField (packR op rd ra rb rc) = rd := by
  apply BitVec.eq_of_getLsbD_eq; intro i hi
  simp only [rdField, BitVec.getLsbD_extractLsb', packR_getLsbD]
  interval_cases i <;> simp

@[simp] theorem raField_packR : raField (packR op rd ra rb rc) = ra := by
  apply BitVec.eq_of_getLsbD_eq; intro i hi
  simp only [raField, BitVec.getLsbD_extractLsb', packR_getLsbD]
  interval_cases i <;> simp

@[simp] theorem rbField_packR : rbField (packR op rd ra rb rc) = rb := by
  apply BitVec.eq_of_getLsbD_eq; intro i hi
  simp only [rbField, BitVec.getLsbD_extractLsb', packR_getLsbD]
  interval_cases i <;> simp

@[simp] theorem rcField_packR : rcField (packR op rd ra rb rc) = rc := by
  apply BitVec.eq_of_getLsbD_eq; intro i hi
  simp only [rcField, BitVec.getLsbD_extractLsb', packR_getLsbD]
  interval_cases i <;> simp

@[simp] theorem lowField_packR : lowField (packR op rd ra rb rc) = 0 := by
  apply BitVec.eq_of_getLsbD_eq; intro i hi
  simp only [lowField, BitVec.getLsbD_extractLsb', packR_getLsbD]
  interval_cases i <;> simp

@[simp] theorem opField_packI : opField (packI op rd imm) = op := by
  apply BitVec.eq_of_getLsbD_eq; intro i hi
  simp only [opField, BitVec.getLsbD_extractLsb', packI_getLsbD]
  interval_cases i <;> simp

@[simp] theorem rdField_packI : rdField (packI op rd imm) = rd := by
  apply BitVec.eq_of_getLsbD_eq; intro i hi
  simp only [rdField, BitVec.getLsbD_extractLsb', packI_getLsbD]
  interval_cases i <;> simp

@[simp] theorem raField_packI : raField (packI op rd imm) = 0 := by
  apply BitVec.eq_of_getLsbD_eq; intro i hi
  simp only [raField, BitVec.getLsbD_extractLsb', packI_getLsbD]
  interval_cases i <;> simp

@[simp] theorem immField_packI : immField (packI op rd imm) = imm := by
  apply BitVec.eq_of_getLsbD_eq; intro i hi
  simp only [immField, BitVec.getLsbD_extractLsb', packI_getLsbD]
  simp [hi]

@[simp] theorem opField_packZ : opField (packZ op) = op := by
  apply BitVec.eq_of_getLsbD_eq; intro i hi
  simp only [opField, BitVec.getLsbD_extractLsb', packZ_getLsbD]
  interval_cases i <;> simp

@[simp] theorem zeroField_packZ : (packZ op).extractLsb' 0 24 = 0 := by
  apply BitVec.eq_of_getLsbD_eq; intro i hi
  simp only [BitVec.getLsbD_extractLsb', packZ_getLsbD]
  simp [hi]

end

/-! ### A word is packed from its own fields -/

theorem getLsbD_of_extract_zero {w : Word} {lo len : Nat} (h : w.extractLsb' lo len = 0) (j : Nat)
    (hlo : lo ≤ j) (hj : j < lo + len) : w.getLsbD j = false := by
  have h2 := congrArg (fun b => b.getLsbD (j - lo)) h
  have h3 : lo + (j - lo) = j := by omega
  have h4 : j - lo < len := by omega
  simpa [BitVec.getLsbD_extractLsb', h3, h4] using h2

theorem packR_fields {w : Word} (h : lowField w = 0) :
    packR (opField w) (rdField w) (raField w) (rbField w) (rcField w) = w := by
  apply BitVec.eq_of_getLsbD_eq; intro i hi
  have hz := getLsbD_of_extract_zero (w := w) h
  simp only [packR_getLsbD, opField, rdField, raField, rbField, rcField, BitVec.getLsbD_extractLsb']
  interval_cases i <;> first | exact (hz _ (by decide) (by decide)).symm | simp

theorem packI_fields {w : Word} (h : raField w = 0) :
    packI (opField w) (rdField w) (immField w) = w := by
  apply BitVec.eq_of_getLsbD_eq; intro i hi
  have hz := getLsbD_of_extract_zero (w := w) h
  simp only [packI_getLsbD, opField, rdField, immField, BitVec.getLsbD_extractLsb']
  interval_cases i <;> first | exact (hz _ (by decide) (by decide)).symm | simp

theorem packZ_fields {w : Word} (h : w.extractLsb' 0 24 = 0) : packZ (opField w) = w := by
  apply BitVec.eq_of_getLsbD_eq; intro i hi
  have hz := getLsbD_of_extract_zero (w := w) h
  simp only [packZ_getLsbD, opField, BitVec.getLsbD_extractLsb']
  interval_cases i <;> first | exact (hz _ (by decide) (by decide)).symm | simp

/-! ### The formats, inverted once: what a format answers, it answers because the unused fields are 0 -/

theorem ifUnusedZero_ok {ok : Bool} {i j : Instr} : ifUnusedZero ok i = .ok j ↔ ok = true ∧ i = j := by
  cases ok <;> simp [ifUnusedZero]

theorem checkCsr_ok {i j : Instr} : checkCsr i = .ok j ↔ i.wellFormed = true ∧ i = j := by
  unfold checkCsr; split <;> simp_all

/-- Four stored bytes and the word they stand for (R73, R103). -/
theorem wordOfBytes_wordBytes (w : Word) : wordOfBytes (wordBytes w) = some w := by
  simp only [wordBytes, wordOfBytes]
  congr 1
  apply BitVec.eq_of_getLsbD_eq; intro i hi
  simp only [BitVec.getLsbD_append, BitVec.getLsbD_extractLsb']
  interval_cases i <;> simp

theorem decodeBytes_wordBytes (w : Word) : decodeBytes (wordBytes w) = (decode w).toOption := by
  simp [decodeBytes, wordOfBytes_wordBytes]

end Sys2Proof
end

