-- ==== Sys2Proof/Laws/Exec.lean ====
section
/-! SUPPORT. What a command can do, said once: it enters a fault, or it has its effect.  Later proofs cite
`exec_next` and `step_next` instead of unfolding a meaning. -/

namespace Sys2Proof.Machine

/-- Every meaning is the end of a rule, under the command's own word. -/
theorem exec_eq_finish (i : Instr) (s : State) : ∃ r, exec i s = finish (encode i) s r := by
  cases i
  case nop => exact ⟨.ok s, rfl⟩
  case li rd imm => exact ⟨.ok (s.setReg rd (imm.setWidth 32)), rfl⟩
  case mov rd ra => exact ⟨.ok (s.setReg rd (s.reg ra)), rfl⟩
  all_goals exact ⟨_, rfl⟩

/-- The state GFBUILD leaves from catalog entry `e` (R123). -/
def gfbuildState (idx : Imm16) (e : Byte) (s : State) : State :=
  ((((s.putField (logEntries (cycle (polyOf e))) (antilogEntries (cycle (polyOf e)))
    ((idx.setWidth 8).setWidth 32) ((polyOf e).setWidth 32)).setFlag .fieldRdy true).setFlag .mulDivRdy
      false).setFlag .invRdy false).setFlag .weightRdy false

/-- The bytes CMRAW writes, row by row (R206). -/
def rawBytes (s : State) : List Byte := (List.range s.m).flatMap s.rawRow

/-- The rows CMCANON leaves, with their totals (R210). -/
def canonRows (s : State) : List (List Byte × Nat) := s.lowerRows.map s.canonRow

/-- The state CMCANON leaves (R210). -/
def canonState (s : State) : State :=
  (s.storeMat s.k ((canonRows s).flatMap fun r => r.1)).setScore
    (BitVec.ofNat 32 ((canonRows s).map fun r => r.2).sum)

/-- The effect of a command that completes: what it required, and the state it leaves.  Of a command with a
destination register only the register is named here. -/
def Effect : Instr → State → State → Prop
  | .nop, s, t => t = s
  | .li rd _, s, t | .mov rd _, s, t | .rdcsr rd _, s, t => ∃ v, t = s.setReg rd v
  | .gfadd rd _ _, s, t | .gfmul rd _ _, s, t | .gfdiv rd _ _, s, t => ∃ v, t = s.setReg rd v
  | .gfmull rd _ _, s, t | .gfdivl rd _ _, s, t => ∃ v, t = s.setReg rd v
  | .gfdbl rd _, s, t | .gflog rd _, s, t | .gfexp rd _, s, t | .gfinv rd _, s, t => ∃ v, t = s.setReg rd v
  | .popc rd _, s, t | .bwcalc rd _, s, t | .bwlut rd _, s, t => ∃ v, t = s.setReg rd v
  | .ldx rd _, s, t | .ldy rd _, s, t | .ldm rd _ _, s, t | .cmones rd _, s, t => ∃ v, t = s.setReg rd v
  | .gfbuild idx, s, t => ∃ e, s.catalog[idx.toNat]? = some e ∧ (polyOf e).getLsbD 8 = true ∧
      isFullCycle (cycle (polyOf e)) = true ∧ t = gfbuildState idx e s
  | .mdbuild, s, t => s.flag .fieldRdy = true ∧
      t = (s.putMulDiv s.mulRows s.divRows).setFlag .mulDivRdy true
  | .invbuild, s, t => s.flag .mulDivRdy = true ∧
      t = (s.putInv ((List.range' 1 255).map fun x => s.divAt (BitVec.ofNat 8 x) 1)).setFlag .invRdy true
  | .wtbuild, s, t => s.flag .mulDivRdy = true ∧
      t = (s.putWeight ((List.range 256).map fun v =>
        BitVec.ofNat 8 (s.weightOf (BitVec.ofNat 8 v)))).setFlag .weightRdy true
  | .setdim imm, s, t => legalDims (immK imm).toNat (immM imm).toNat = true ∧
      t = (s.setDim ((immM imm ++ immK imm).setWidth 32)).setFlag .dimRdy true
  | .stx ra rb, s, t => (s.reg ra).toNat ≤ 255 ∧ t = s.setX (s.reg ra).toNat ((s.reg rb).setWidth 8)
  | .sty ra rb, s, t => (s.reg ra).toNat ≤ 255 ∧ t = s.setY (s.reg ra).toNat ((s.reg rb).setWidth 8)
  | .stm ra rb rc, s, t => (s.reg ra).toNat < s.m ∧ (s.reg rb).toNat < s.k ∧
      s.matIndex (s.reg ra).toNat (s.reg rb).toNat + 1 ≤ Config.matLen ∧
      t = s.storeMat (s.matIndex (s.reg ra).toNat (s.reg rb).toNat) [(s.reg rc).setWidth 8]
  | .cmraw, s, t => s.vectorsMeet = false ∧ s.m * s.k ≤ Config.matLen ∧ t = s.storeMat 0 (rawBytes s)
  | .cmcanon, s, t => s.flag .mulDivRdy = true ∧ s.flag .weightRdy = true ∧ s.flag .dimRdy = true ∧
      s.m * s.k ≤ Config.matLen ∧ (s.lowerRows.all fun row => row.all fun v => v != 0) = true ∧
      t = canonState s

theorem needReady_ok {b : Bool} {u : Unit} : needReady b = .ok u ↔ b = true := by
  cases b <;> simp

theorem check_ok' {ok : Bool} {f : EngineFault} {u : Unit} : check ok f = .ok u ↔ ok = true := by
  cases ok <;> simp

theorem needElements_ok_iff {n : Nat} {u : Unit} : needElements n = .ok u ↔ n ≤ Config.matLen := by
  unfold needElements; split <;> simp_all

theorem upTo_ok_iff {s : State} {r : Reg} {b n : Nat} :
    s.upTo r b = .ok n ↔ (s.reg r).toNat ≤ b ∧ n = (s.reg r).toNat := by
  by_cases h : (s.reg r).toNat ≤ b
  · simp [upTo_ok h, h, eq_comm]
  · simp [upTo_error h, h]

theorem fv_ok_iff {s : State} {r : Reg} {v : Byte} :
    s.fv r = .ok v ↔ (s.reg r).toNat ≤ 255 ∧ v = (s.reg r).setWidth 8 := by
  by_cases h : (s.reg r).toNat ≤ 255
  · simp [fv_ok h, h, eq_comm]
  · simp [fv_error h, h]

theorem rowCol_ok_iff {s : State} {ra rb : Reg} {p : Nat × Nat} :
    s.rowCol ra rb = .ok p ↔ (s.reg ra).toNat < s.m ∧ (s.reg rb).toNat < s.k ∧
      p = ((s.reg ra).toNat, (s.reg rb).toNat) := by
  by_cases h : (s.reg ra).toNat < s.m ∧ (s.reg rb).toNat < s.k
  · simp [rowCol_ok h.1 h.2, h, eq_comm]
  · rw [rowCol_error h]
    simp only [reduceCtorEq, false_iff]
    exact fun h2 => h ⟨h2.1, h2.2.1⟩

theorem except_bind_ok_iff {α β : Type} {r : Except Stop α} {f : α → Except Stop β} {b : β} :
    (r >>= f) = .ok b ↔ ∃ a, r = .ok a ∧ f a = .ok b :=
  ⟨except_bind_eq_ok, fun ⟨a, h1, h2⟩ => by rw [h1]; exact h2⟩

/-- A command that answers a next state has entered a fault, or has had its effect. -/
theorem exec_next {i : Instr} {s t : State} (h : exec i s = .next t) : EntersFault i s t ∨ Effect i s t := by
  have enter : ∀ {r : Except Stop State}, finish (encode i) s r = .next t → (r = .ok t → Effect i s t) →
      EntersFault i s t ∨ Effect i s t := by
    intro r hf he
    rcases finish_next hf with hr | ⟨f, -, ht⟩
    · exact .inr (he hr)
    · exact .inl ⟨f, ht⟩
  cases i
  case nop => exact .inr (Host.Outcome.next.inj h).symm
  case li => exact .inr ⟨_, (Host.Outcome.next.inj h).symm⟩
  case mov => exact .inr ⟨_, (Host.Outcome.next.inj h).symm⟩
  all_goals
    refine enter h ?_
    intro hr
    simp only [except_bind_ok_iff, except_pure_eq, Except.ok.injEq, needReady_ok, check_ok', upTo_ok_iff,
      fv_ok_iff, rowCol_ok_iff, needElements_ok_iff] at hr
  case rdcsr =>
    split at hr
    · exact ⟨_, (Except.ok.inj hr).symm⟩
    · exact absurd hr (by simp)
  case gfbuild =>
    split at hr
    · exact absurd hr (by simp)
    · rename_i e he
      simp only [except_bind_ok_iff, Except.ok.injEq, check_ok'] at hr
      obtain ⟨_, h8, _, hf, rfl⟩ := hr
      exact ⟨e, he, h8, hf, rfl⟩
  case mdbuild => obtain ⟨_, h1, rfl⟩ := hr; exact ⟨h1, rfl⟩
  case invbuild => obtain ⟨_, h1, rfl⟩ := hr; exact ⟨h1, rfl⟩
  case wtbuild => obtain ⟨_, h1, rfl⟩ := hr; exact ⟨h1, rfl⟩
  case setdim => obtain ⟨_, h1, rfl⟩ := hr; exact ⟨h1, rfl⟩
  case stx => obtain ⟨_, ⟨h1, rfl⟩, _, ⟨_, rfl⟩, rfl⟩ := hr; exact ⟨h1, rfl⟩
  case sty => obtain ⟨_, ⟨h1, rfl⟩, _, ⟨_, rfl⟩, rfl⟩ := hr; exact ⟨h1, rfl⟩
  case stm =>
    obtain ⟨_, _, _, ⟨h1, h2, rfl⟩, _, ⟨_, rfl⟩, _, h3, rfl⟩ := hr
    exact ⟨h1, h2, h3, rfl⟩
  case cmraw =>
    obtain ⟨_, _, _, h1, _, h2, rfl⟩ := hr
    exact ⟨by simpa using h1, h2, rfl⟩
  case cmcanon =>
    obtain ⟨_, h1, _, h2, _, h3, rfl⟩ := hr
    simp only [Bool.and_eq_true] at h1
    exact ⟨h1.1.1, h1.1.2, h1.2, h2, h3, rfl⟩
  all_goals
    try simp only [exists_and_left, exists_const] at hr
    first
    | (obtain ⟨_, _, rfl⟩ := hr; exact ⟨_, rfl⟩)
    | (obtain ⟨_, _, _, rfl⟩ := hr; exact ⟨_, rfl⟩)
    | (obtain ⟨_, _, _, _, rfl⟩ := hr; exact ⟨_, rfl⟩)
    | (obtain ⟨_, _, _, _, _, rfl⟩ := hr; exact ⟨_, rfl⟩)
    | (obtain ⟨_, _, _, _, _, _, rfl⟩ := hr; exact ⟨_, rfl⟩)

/-- What a step can do: nothing (nothing is presented, or the engine is faulted), enter IllegalCmd, execute a
command, or reset. -/
theorem step_next {s t : State} (h : step s = .next t) :
    (s.pending = [] ∧ t = s) ∨
    (∃ rest, s.pending = .reset :: rest ∧ t = (s.withPending rest).resetEngine) ∨
    (∃ w rest, s.pending = .command w :: rest ∧
      ((s.flag .fault = true ∧ t = s.withPending rest) ∨
       (s.flag .fault = false ∧ (∃ e, decode w = .error e) ∧
          t = raise .illegalCmd w (s.withPending rest)) ∨
       (s.flag .fault = false ∧ ∃ i, decode w = .ok i ∧ exec i (s.withPending rest) = .next t))) := by
  unfold step at h
  split at h
  · rename_i hp
    exact .inl ⟨hp, by simpa using h.symm⟩
  · rename_i input rest hp
    cases input with
    | reset => exact .inr (.inl ⟨rest, hp, by simpa [State.accept] using h.symm⟩)
    | command w =>
      refine .inr (.inr ⟨w, rest, hp, ?_⟩)
      simp only [State.accept, present] at h
      have hflag : (s.withPending rest).flag .fault = s.flag .fault := rfl
      rw [hflag] at h
      split at h
      · rename_i hf
        exact .inl ⟨hf, by simpa using h.symm⟩
      · rename_i hf
        have hf : s.flag .fault = false := by simpa using hf
        split at h
        · rename_i e he
          exact .inr (.inl ⟨hf, ⟨e, he⟩, by simpa using h.symm⟩)
        · rename_i i hi
          exact .inr (.inr ⟨hf, i, hi, h⟩)

end Sys2Proof.Machine
end

