-- ==== Sys2Proof/Laws/Frames.lean ====
section
/-! SUPPORT. Said once for every later proof: what an invariant needs to be kept by a step, when a command ends in
a fault, and when two states differ in nothing. -/

namespace Sys2Proof.Machine

/-! ### A step keeps an invariant that its few updates keep -/

/-- What a command that completes did, by the shape of the update: a property that holds of the state before and
after each update holds after the command. -/
theorem effect_cases {i : Instr} {s t : State} (h : Effect i s t) (C : State → Prop) (same : C s)
    (register : ∀ rd v, C (s.setReg rd v))
    (field : ∀ idx e, s.catalog[idx.toNat]? = some e → (polyOf e).getLsbD 8 = true →
      isFullCycle (cycle (polyOf e)) = true → C (gfbuildState idx e s))
    (mulDiv : s.flag .fieldRdy = true → C ((s.putMulDiv s.mulRows s.divRows).setFlag .mulDivRdy true))
    (inv : s.flag .mulDivRdy = true →
      C ((s.putInv ((List.range' 1 255).map fun x => s.divAt (BitVec.ofNat 8 x) 1)).setFlag .invRdy true))
    (weight : s.flag .mulDivRdy = true → C ((s.putWeight ((List.range 256).map fun v =>
      BitVec.ofNat 8 (s.weightOf (BitVec.ofNat 8 v)))).setFlag .weightRdy true))
    (dims : ∀ imm, legalDims (immK imm).toNat (immM imm).toNat = true →
      C ((s.setDim ((immM imm ++ immK imm).setWidth 32)).setFlag .dimRdy true))
    (x : ∀ i v, i ≤ 255 → C (s.setX i v)) (y : ∀ i v, i ≤ 255 → C (s.setY i v))
    (mat : ∀ i vs, i + vs.length ≤ Config.matLen → C (s.storeMat i vs))
    (canon : s.flag .mulDivRdy = true → s.flag .weightRdy = true → s.flag .dimRdy = true →
      s.m * s.k ≤ Config.matLen → C (canonState s)) : C t := by
  cases i <;> simp only [Effect] at h
  case nop => rw [h]; exact same
  case gfbuild => obtain ⟨e, h1, h2, h3, rfl⟩ := h; exact field _ _ h1 h2 h3
  case mdbuild => obtain ⟨h1, rfl⟩ := h; exact mulDiv h1
  case invbuild => obtain ⟨h1, rfl⟩ := h; exact inv h1
  case wtbuild => obtain ⟨h1, rfl⟩ := h; exact weight h1
  case setdim => obtain ⟨h1, rfl⟩ := h; exact dims _ h1
  case stx => obtain ⟨h1, rfl⟩ := h; exact x _ _ h1
  case sty => obtain ⟨h1, rfl⟩ := h; exact y _ _ h1
  case stm => obtain ⟨_, _, h1, rfl⟩ := h; exact mat _ _ h1
  case cmraw =>
    obtain ⟨_, h1, rfl⟩ := h
    exact mat _ _ (by simpa [rawBytes, State.rawRow] using h1)
  case cmcanon => obtain ⟨h1, h2, h3, h4, _, rfl⟩ := h; exact canon h1 h2 h3 h4
  all_goals (obtain ⟨v, rfl⟩ := h; exact register _ _)

/-- A property that taking an input, fault entry, every command's effect and reset keep, a step keeps. -/
theorem step_keeps (I : State → Prop) (taken : ∀ s rest, I s → I (s.withPending rest))
    (entered : ∀ f cmd s, s.flag .fault = false → I s → I (raise f cmd s))
    (effect : ∀ i s t, s.flag .fault = false → I s → Effect i s t → I t)
    (reset : ∀ s, I s → I s.resetEngine) {s t : State} (hs : I s) (h : step s = .next t) : I t := by
  rcases step_next h with ⟨-, rfl⟩ | ⟨rest, -, rfl⟩ | ⟨w, rest, -, h⟩
  · exact hs
  · exact reset _ (taken _ _ hs)
  · rcases h with ⟨-, rfl⟩ | ⟨hf, -, rfl⟩ | ⟨hf, i, -, he⟩
    · exact taken _ _ hs
    · exact entered _ _ _ hf (taken _ _ hs)
    · rcases exec_next he with ⟨f, rfl⟩ | h2
      · exact entered _ _ _ hf (taken _ _ hs)
      · exact effect i (s.withPending rest) t hf (taken _ _ hs) h2

/-- A command that completes does not touch STATUS.FAULT (R47). -/
theorem effect_fault {i : Instr} {s t : State} (h : Effect i s t) : t.flag .fault = s.flag .fault := by
  refine effect_cases h (fun u => u.flag .fault = s.flag .fault) rfl ?_ ?_ ?_ ?_ ?_ ?_ ?_ ?_ ?_ ?_ <;> intros <;>
    first | rfl | simp [gfbuildState]

/-! ### When a command raises a fault -/

theorem raise_inj {f g : EngineFault} {cmd : Word} {s : State} : raise f cmd s = raise g cmd s ↔ f = g := by
  constructor
  · intro h
    have h2 : f.code = g.code := congrArg State.fcode h
    revert h2
    cases f <;> cases g <;> decide
  · rintro rfl; rfl

/-- From a running engine a command leaves the state of a fault exactly when its rule raised that fault. -/
theorem finish_eq_raise {cmd : Word} {s : State} {r : Except Stop State} {f : EngineFault}
    (keep : ∀ t, r = .ok t → t.flag .fault = false) :
    finish cmd s r = .next (raise f cmd s) ↔ r = .error (.engine f) := by
  match r with
  | .ok t =>
    simp only [finish_ok, Host.Outcome.next.injEq, reduceCtorEq, iff_false]
    intro h
    have := keep t rfl
    rw [h] at this
    simp at this
  | .error (.engine g) => simp [raise_inj]
  | .error (.model g) => simp

theorem except_bind_error_iff {α β : Type} {r : Except Stop α} {f : α → Except Stop β} {e : Stop} :
    (r >>= f) = .error e ↔ r = .error e ∨ ∃ a, r = .ok a ∧ f a = .error e := by
  match r with
  | .ok a => simp
  | .error e' => simp

theorem check_error_iff {b : Bool} {f : EngineFault} {e : Stop} :
    check b f = .error e ↔ b = false ∧ e = .engine f := by
  cases b <;> simp [eq_comm]

theorem needElements_error_iff {n : Nat} {e : Stop} :
    needElements n = .error e ↔ Config.matLen < n ∧ e = .model .noSuchElement := by
  unfold needElements
  split <;> simp [eq_comm] <;> omega

theorem upTo_error_iff {s : State} {r : Reg} {b : Nat} {e : Stop} :
    s.upTo r b = .error e ↔ b < (s.reg r).toNat ∧ e = .engine .operandRange := by
  by_cases h : (s.reg r).toNat ≤ b
  · simp [upTo_ok h]; omega
  · simp [upTo_error h, eq_comm]; omega

theorem fv_error_iff {s : State} {r : Reg} {e : Stop} :
    s.fv r = .error e ↔ 255 < (s.reg r).toNat ∧ e = .engine .operandRange := by
  by_cases h : (s.reg r).toNat ≤ 255
  · simp [fv_ok h]; omega
  · simp [fv_error h, eq_comm]; omega

theorem rowCol_error_iff {s : State} {ra rb : Reg} {e : Stop} :
    s.rowCol ra rb = .error e ↔
      ¬ ((s.reg ra).toNat < s.m ∧ (s.reg rb).toNat < s.k) ∧ e = .engine .operandRange := by
  by_cases h : (s.reg ra).toNat < s.m ∧ (s.reg rb).toNat < s.k
  · simp [rowCol_ok h.1 h.2, h]
  · rw [rowCol_error h]
    simp only [Except.error.injEq, eq_comm, h, not_false_iff, true_and]

/-! ### Nothing else changed -/

theorem csr_reserved (s : State) {n : Nat} (h : 6 < n) : s.csr n = none := by
  unfold State.csr
  split <;> first | omega | rfl

/-- Two states with the same CSRs, apart from those excepted. -/
theorem sameCsrsBut_of {s t : State} {l : List Nat} (status : 0 ∉ l → t.status = s.status)
    (polysel : 1 ∉ l → t.polysel = s.polysel) (poly : 2 ∉ l → t.poly = s.poly) (dim : 3 ∉ l → t.dim = s.dim)
    (score : 4 ∉ l → t.score = s.score) (fcode : 5 ∉ l → t.fcode = s.fcode) (fcmd : 6 ∉ l → t.fcmd = s.fcmd) :
    SameCsrsBut l s t := by
  intro n hn
  by_cases h : 6 < n
  · rw [csr_reserved _ h, csr_reserved _ h]
  · have h : n ≤ 6 := by omega
    interval_cases n <;> simp [State.csr, *]

/-- Two states with the same tables, that differ in X, Y and MAT at most where it is said. -/
theorem sameElementsBut_of {s t : State} {P : Config.Space → Nat → Prop}
    (x : ∀ i, i < 256 → ¬ P .x i → t.xAt i = s.xAt i) (y : ∀ i, i < 256 → ¬ P .y i → t.yAt i = s.yAt i)
    (mat : ∀ i, i < Config.matLen → ¬ P .mat i → t.matAt i = s.matAt i)
    (log : ∀ v, t.logAt v = s.logAt v) (antilog : ∀ i, t.antilogAt i = s.antilogAt i)
    (mul : ∀ y x, t.mulAt y x = s.mulAt y x) (div : ∀ y x, t.divAt y x = s.divAt y x)
    (inv : ∀ v, t.invAt v = s.invAt v) (weight : ∀ v, t.weightAt v = s.weightAt v) : SameElementsBut P s t := by
  intro sp i hi hP
  cases sp <;> simp only [State.element, log, antilog, mul, div, inv, weight]
  · rw [x i hi hP]
  · rw [y i hi hP]
  · rw [mat i hi hP]

/-! ### What presenting a word does, and one word of a run (R276, R308) -/

theorem present_of_faulted {s : State} (cmd : Word) (h : s.flag .fault = true) : present cmd s = .next s :=
  if_pos h

theorem present_of_illegal {s : State} {cmd : Word} {r : Illegal} (h : s.flag .fault = false)
    (hd : decode cmd = .error r) : present cmd s = .next (raise .illegalCmd cmd s) := by
  simp [present, h, hd]

theorem present_of_decode {s : State} {cmd : Word} {i : Instr} (h : s.flag .fault = false)
    (hd : decode cmd = .ok i) : present cmd s = exec i s := by
  simp [present, h, hd]

@[simp] theorem runProgram_nil (idx : Nat) (s : State) : runProgram [] idx s = .next (s, idx) := rfl

theorem runProgram_cons_of_next {s t : State} {cmd : Word} (h : present cmd s = .next t) (rest : List Word)
    (idx : Nat) : runProgram (cmd :: rest) idx s =
      if recordsFault s t then .next (t, idx) else runProgram rest (idx + 1) t := by
  simp only [runProgram, h]

theorem recordsFault_eq_true {s t : State} :
    recordsFault s t = true ↔ s.flag .fault = false ∧ t.flag .fault = true := by
  simp [recordsFault]

/-! ### MAT is large enough for every legal pair of dimensions (R61) -/

theorem matBytes_le {s : State} (hd : DimsLegal s) (hr : s.flag .dimRdy = true) : s.m * s.k ≤ Config.matLen := by
  obtain ⟨-, -, h3⟩ := hd hr
  have h : 4 * (s.m * s.k) ≤ (s.k + s.m) ^ 2 := by nlinarith [sq_nonneg ((s.m : ℤ) - s.k)]
  have h2 : (s.k + s.m) ^ 2 ≤ 256 ^ 2 := Nat.pow_le_pow_left h3 2
  unfold Config.matLen
  omega

theorem matIndex_lt {s : State} (hd : DimsLegal s) (hr : s.flag .dimRdy = true) {r c : Nat} (h1 : r < s.m)
    (h2 : c < s.k) : s.matIndex r c + 1 ≤ Config.matLen := by
  have h := matBytes_le hd hr
  have h3 : (r + 1) * s.k ≤ s.m * s.k := Nat.mul_le_mul_right _ h1
  rw [Nat.succ_mul] at h3
  unfold State.matIndex
  omega

end Sys2Proof.Machine
end

