-- ==== Sys2Proof/Laws/PerInstr.lean ====
section
/-! SUPPORT. Facts of every command as syntax, one lemma per constructor. -/

namespace Sys2Proof.Laws.OpcodeField

/-- The opcode byte of each command (30_encoding.md R95). -/
def opcode : Instr → BitVec 8
  | .nop => 0x00
  | .li _ _ => 0x01
  | .mov _ _ => 0x02
  | .rdcsr _ _ => 0x03
  | .gfbuild _ => 0x10
  | .mdbuild => 0x11
  | .invbuild => 0x12
  | .wtbuild => 0x13
  | .gfadd _ _ _ => 0x20
  | .gfdbl _ _ => 0x21
  | .gflog _ _ => 0x22
  | .gfexp _ _ => 0x23
  | .gfmul _ _ _ => 0x24
  | .gfdiv _ _ _ => 0x25
  | .gfinv _ _ => 0x26
  | .gfmull _ _ _ => 0x27
  | .gfdivl _ _ _ => 0x28
  | .popc _ _ => 0x30
  | .bwcalc _ _ => 0x31
  | .bwlut _ _ => 0x32
  | .setdim _ => 0x40
  | .ldx _ _ => 0x41
  | .stx _ _ => 0x42
  | .ldy _ _ => 0x43
  | .sty _ _ => 0x44
  | .ldm _ _ _ => 0x45
  | .stm _ _ _ => 0x46
  | .cmraw => 0x50
  | .cmcanon => 0x51
  | .cmones _ _ => 0x52

/-- Bits 31:24 of a command's word are its opcode (R91, R95). -/
def Statement (i : Instr) : Prop := opField (encode i) = opcode i

theorem nop : Statement .nop := by simp [Statement, encode, opcode]
theorem li (rd : Reg) (imm : Imm16) : Statement (.li rd imm) := by simp [Statement, encode, opcode]
theorem mov (rd ra : Reg) : Statement (.mov rd ra) := by simp [Statement, encode, opcode]
theorem rdcsr (rd : Reg) (csr : Imm16) : Statement (.rdcsr rd csr) := by simp [Statement, encode, opcode]
theorem gfbuild (idx : Imm16) : Statement (.gfbuild idx) := by simp [Statement, encode, opcode]
theorem mdbuild : Statement .mdbuild := by simp [Statement, encode, opcode]
theorem invbuild : Statement .invbuild := by simp [Statement, encode, opcode]
theorem wtbuild : Statement .wtbuild := by simp [Statement, encode, opcode]
theorem gfadd (rd ra rb : Reg) : Statement (.gfadd rd ra rb) := by simp [Statement, encode, opcode]
theorem gfdbl (rd ra : Reg) : Statement (.gfdbl rd ra) := by simp [Statement, encode, opcode]
theorem gflog (rd ra : Reg) : Statement (.gflog rd ra) := by simp [Statement, encode, opcode]
theorem gfexp (rd ra : Reg) : Statement (.gfexp rd ra) := by simp [Statement, encode, opcode]
theorem gfmul (rd ra rb : Reg) : Statement (.gfmul rd ra rb) := by simp [Statement, encode, opcode]
theorem gfdiv (rd ra rb : Reg) : Statement (.gfdiv rd ra rb) := by simp [Statement, encode, opcode]
theorem gfinv (rd ra : Reg) : Statement (.gfinv rd ra) := by simp [Statement, encode, opcode]
theorem gfmull (rd ra rb : Reg) : Statement (.gfmull rd ra rb) := by simp [Statement, encode, opcode]
theorem gfdivl (rd ra rb : Reg) : Statement (.gfdivl rd ra rb) := by simp [Statement, encode, opcode]
theorem popc (rd ra : Reg) : Statement (.popc rd ra) := by simp [Statement, encode, opcode]
theorem bwcalc (rd ra : Reg) : Statement (.bwcalc rd ra) := by simp [Statement, encode, opcode]
theorem bwlut (rd ra : Reg) : Statement (.bwlut rd ra) := by simp [Statement, encode, opcode]
theorem setdim (imm : Imm16) : Statement (.setdim imm) := by simp [Statement, encode, opcode]
theorem ldx (rd ra : Reg) : Statement (.ldx rd ra) := by simp [Statement, encode, opcode]
theorem stx (ra rb : Reg) : Statement (.stx ra rb) := by simp [Statement, encode, opcode]
theorem ldy (rd ra : Reg) : Statement (.ldy rd ra) := by simp [Statement, encode, opcode]
theorem sty (ra rb : Reg) : Statement (.sty ra rb) := by simp [Statement, encode, opcode]
theorem ldm (rd ra rb : Reg) : Statement (.ldm rd ra rb) := by simp [Statement, encode, opcode]
theorem stm (ra rb rc : Reg) : Statement (.stm ra rb rc) := by simp [Statement, encode, opcode]
theorem cmraw : Statement .cmraw := by simp [Statement, encode, opcode]
theorem cmcanon : Statement .cmcanon := by simp [Statement, encode, opcode]
theorem cmones (rd ra : Reg) : Statement (.cmones rd ra) := by simp [Statement, encode, opcode]

end Sys2Proof.Laws.OpcodeField
end

