-- ==== Sys2Proof/Tests/Slice0.lean ====
section
/-! SUPPORT. Tests on fixed values, whose expected results are those of spec/95_test_vectors.md (V and P numbers)
unless a comment says otherwise, and a witness that the hypotheses of each statement are met together. -/

namespace Sys2Proof.Tests

open Sys2Proof.Machine Sys2Proof.Claims

-- One thread for the tests of this file: with many, each takes its own large stack.
set_option Elab.async false

/-! ### WellFormed (R99): the one check, and terms it refuses -/

theorem test_wellFormed_rdcsr_last : (Instr.rdcsr 3 6).wellFormed = true := by decide
theorem test_wellFormed_rdcsr_7_refused : (Instr.rdcsr 3 7).wellFormed = false := by decide
theorem test_wellFormed_rdcsr_65535_refused : (Instr.rdcsr 0 0xFFFF).wellFormed = false := by decide

/-! ### Decode: a word of every command, bit by bit from the encodings of R91 and R95 (V1) -/

theorem test_decode_nop : decode 0b00000000000000000000000000000000 = .ok .nop := by rfl
theorem test_decode_li : decode 0b00000001001100000000000000011101 = .ok (.li 3 0x1D) := by rfl
theorem test_decode_mov : decode 0b00000010000100100000000000000000 = .ok (.mov 1 2) := by rfl
theorem test_decode_rdcsr : decode 0b00000011010000000000000000000100 = .ok (.rdcsr 4 4) := by rfl
theorem test_decode_gfbuild : decode 0b00010000000000000000000000000011 = .ok (.gfbuild 3) := by rfl
theorem test_decode_mdbuild : decode 0b00010001000000000000000000000000 = .ok .mdbuild := by rfl
theorem test_decode_invbuild : decode 0b00010010000000000000000000000000 = .ok .invbuild := by rfl
theorem test_decode_wtbuild : decode 0b00010011000000000000000000000000 = .ok .wtbuild := by rfl
theorem test_decode_gfadd : decode 0b00100000011101000000000000000000 = .ok (.gfadd 7 4 0) := by rfl
theorem test_decode_gfdbl : decode 0b00100001010100010000000000000000 = .ok (.gfdbl 5 1) := by rfl
theorem test_decode_gflog : decode 0b00100010100000100000000000000000 = .ok (.gflog 8 2) := by rfl
theorem test_decode_gfexp : decode 0b00100011000100000000000000000000 = .ok (.gfexp 1 0) := by rfl
theorem test_decode_gfmul : decode 0b00100100001000000001000000000000 = .ok (.gfmul 2 0 1) := by rfl
theorem test_decode_gfdiv : decode 0b00100101010000100001000000000000 = .ok (.gfdiv 4 2 1) := by rfl
theorem test_decode_gfinv : decode 0b00100110010100010000000000000000 = .ok (.gfinv 5 1) := by rfl
theorem test_decode_gfmull : decode 0b00100111001100000001000000000000 = .ok (.gfmull 3 0 1) := by rfl
theorem test_decode_gfdivl : decode 0b00101000001000000001000000000000 = .ok (.gfdivl 2 0 1) := by rfl
theorem test_decode_popc : decode 0b00110000000100000000000000000000 = .ok (.popc 1 0) := by rfl
theorem test_decode_bwcalc : decode 0b00110001000100000000000000000000 = .ok (.bwcalc 1 0) := by rfl
theorem test_decode_bwlut : decode 0b00110010100100100000000000000000 = .ok (.bwlut 9 2) := by rfl
theorem test_decode_setdim : decode 0b01000000000000000000001011111110 = .ok (.setdim 0x02FE) := by rfl
theorem test_decode_ldx : decode 0b01000001000100000000000000000000 = .ok (.ldx 1 0) := by rfl
theorem test_decode_stx : decode 0b01000010000000010010000000000000 = .ok (.stx 1 2) := by rfl
theorem test_decode_ldy : decode 0b01000011000100000000000000000000 = .ok (.ldy 1 0) := by rfl
theorem test_decode_sty : decode 0b01000100000000100110000000000000 = .ok (.sty 2 6) := by rfl
theorem test_decode_ldm : decode 0b01000101100000010010000000000000 = .ok (.ldm 8 1 2) := by rfl
theorem test_decode_stm : decode 0b01000110000000000001001000000000 = .ok (.stm 0 1 2) := by rfl
theorem test_decode_cmraw : decode 0b01010000000000000000000000000000 = .ok .cmraw := by rfl
theorem test_decode_cmcanon : decode 0b01010001000000000000000000000000 = .ok .cmcanon := by rfl
theorem test_decode_cmones : decode 0b01010010110100110000000000000000 = .ok (.cmones 13 3) := by rfl

/-! ### Words that are illegal (V2) -/

theorem test_illegal_04000000 : decode 0x04000000 = .error .unassignedOpcode := by rfl
theorem test_illegal_FF000000 : decode 0xFF000000 = .error .unassignedOpcode := by rfl
theorem test_illegal_00000001 : decode 0x00000001 = .error .unusedFieldNonzero := by rfl
theorem test_illegal_50000100 : decode 0x50000100 = .error .unusedFieldNonzero := by rfl
theorem test_illegal_02120300 : decode 0x02120300 = .error .unusedFieldNonzero := by rfl
theorem test_illegal_24201001 : decode 0x24201001 = .error .unusedFieldNonzero := by rfl
theorem test_illegal_01310005 : decode 0x01310005 = .error .unusedFieldNonzero := by rfl
theorem test_illegal_10100000 : decode 0x10100000 = .error .unusedFieldNonzero := by rfl
theorem test_illegal_42101000 : decode 0x42101000 = .error .unusedFieldNonzero := by rfl
theorem test_illegal_46101200 : decode 0x46101200 = .error .unusedFieldNonzero := by rfl
theorem test_illegal_52101000 : decode 0x52101000 = .error .unusedFieldNonzero := by rfl
theorem test_illegal_03000007 : decode 0x03000007 = .error .reservedCsr := by rfl

/-! ### Bytes, words, assembler (R73, R101 to R103) -/

theorem test_wordBytes : wordBytes 0x24201000 = [0x00, 0x10, 0x20, 0x24] := by decide
theorem test_decodeBytes : decodeBytes [0x00, 0x10, 0x20, 0x24] = some (.gfmul 2 0 1) := by rfl
theorem test_decodeBytes_three_refused : decodeBytes [0x00, 0x10, 0x20] = none := by rfl
theorem test_decodeTableWord : decodeTableWord 32 0x24201000 = some (.gfmul 2 0 1) := by rfl
theorem test_gfinit_words : (gfinit 3).map encode = [0x10000003, 0x11000000, 0x12000000, 0x13000000] := by decide
theorem test_text_setdim : (Instr.setdim 0x02FE).text = "SETDIM 254, 2" := by decide +kernel
theorem test_text_gfmul : (Instr.gfmul 2 0 1).text = "GFMUL s2, s0, s1" := by decide +kernel

/-! ### States to test on -/

/-- A state's reading `f` after a command, when the command answers a next state. -/
def after {α : Type} (r : Result) (f : State → α) : Option α :=
  match r with
  | .next t => some (f t)
  | .fault _ => none
  | .refused _ => none

/-- What a faulting command records: FCODE, FCMD, STATUS. -/
def record (t : State) : Word × Word × Word := (t.fcode, t.fcmd, t.status)

/-- Operands in `s0`, `s1` and `s2`. -/
def args (s : State) (a b c : Word) : State := ((s.setReg 0 a).setReg 1 b).setReg 2 c

/-- LOG and ANTILOG of catalog entry `e` built. -/
def fieldState (e : Byte) : State :=
  { State.reset with
    log := Memory.store [] 0 (logEntries (cycle (polyOf e)))
    antilog := Memory.store [] 0 (antilogEntries (cycle (polyOf e)))
    poly := (polyOf e).setWidth 32
    status := 0x01
    tableEra := 1 }

/-- MUL and DIV built over them. -/
def mulDivState (e : Byte) : State :=
  { fieldState e with mul := (fieldState e).mulRows, div := (fieldState e).divRows, status := 0x03 }

/-- Everything built for catalog entry 0 (0x8E, polynomial 0x11D), `K = M = 3`, and X, Y and MAT of V40. -/
def built : State :=
  { mulDivState 0x8E with
    inv := Memory.store [] 1 ((List.range' 1 255).map fun x => (mulDivState 0x8E).divAt (BitVec.ofNat 8 x) 1)
    weight := Memory.store [] 0 ((List.range 256).map fun v =>
      BitVec.ofNat 8 ((mulDivState 0x8E).weightOf (BitVec.ofNat 8 v)))
    status := 0x1F
    dim := 0x0303
    x := [(0, 1), (1, 2), (2, 3)]
    y := [(0, 4), (1, 5), (2, 6)]
    mat := [(0, 1), (1, 1), (2, 1), (3, 70), (4, 187), (5, 123), (6, 104), (7, 143), (8, 82)] }

/-! ### Commands, one step each -/

theorem test_nop : after (exec .nop built) State.status = some 0x1F := by decide
theorem test_li : after (exec (.li 15 0xFFFF) State.reset) (fun t => (t.reg 15, t.reg 14)) = some (0xFFFF, 0) := by decide
theorem test_mov_all_bits : after (exec (.mov 3 1) (args built 1 0xDEADBEEF 2)) (·.reg 3) = some 0xDEADBEEF := by decide
theorem test_rdcsr_poly : after (exec (.rdcsr 11 2) built) (·.reg 11) = some 285 := by decide +kernel
theorem test_rdcsr_dim : after (exec (.rdcsr 0 3) built) (·.reg 0) = some 0x0303 := by decide
-- V10, V11
theorem test_gfbuild : after (exec (.gfbuild 0) State.reset) (fun t =>
    ([0, 7, 8, 254, 255, 509, 510, 1024].map t.antilogAt, [0, 3, 255].map t.logAt, t.polysel, t.poly, t.status))
      = some ([1, 128, 29, 142, 1, 142, 0, 0], [512, 25, 175], 0, 0x11D, 1) := by decide +kernel
-- V13, V12 (bit 7 clear)
theorem test_gfbuild_faults : after (exec (.gfbuild 16) State.reset) record = some (1, 0x10000010, 0x80) ∧
    after (exec (.gfbuild 0) { State.reset with catalog := [0x0E] }) record = some (1, 0x10000000, 0x80) := by
  decide +kernel
-- V12: the default catalog passes; 0x8D, irreducible but not primitive, does not
theorem test_catalog_passes : (Config.defaultCatalog.all fun e =>
    (polyOf e).getLsbD 8 && isFullCycle (cycle (polyOf e))) = true := by decide +kernel
theorem test_catalog_8D_fails : isFullCycle (cycle (polyOf 0x8D)) = false := by decide +kernel
-- V14
theorem test_mdbuild : after (exec .mdbuild (fieldState 0x8E)) (fun t =>
    ([t.mulAt 128 2, t.mulAt 0 77, t.mulAt 255 255], [t.divAt 2 1, t.divAt 3 7, t.divAt 9 0, t.divAt 0 9], t.status))
      = some ([29, 0, 226], [142, 246, 0, 0], 0x03) := by decide +kernel
theorem test_invbuild : after (exec .invbuild (mulDivState 0x8E)) (fun t => ([1, 2, 255].map t.invAt, t.status))
    = some ([1, 142, 253], 0x07) := by decide +kernel
theorem test_wtbuild : after (exec .wtbuild (mulDivState 0x8E)) (fun t =>
    ([0, 1, 2, 255].map t.weightAt, t.status)) = some ([0, 8, 11, 38], 0x0B) := by decide +kernel
-- V20, V53
theorem test_gfadd : after (exec (.gfadd 2 0 1) (args State.reset 0x53 0xCA 0)) (·.reg 2) = some 0x99 := by decide
theorem test_gfadd_256_faults : after (exec (.gfadd 2 0 1) (args State.reset 256 0 0)) record
    = some (5, 0x20201000, 0x80) := by decide
-- V21
theorem test_gfdbl_129 : after (exec (.gfdbl 1 0) (args built 129 0 0)) (·.reg 1) = some 31 := by decide +kernel
theorem test_gfdbl_127 : after (exec (.gfdbl 0 0) (args built 127 0 0)) (·.reg 0) = some 254 := by decide +kernel
-- V22, V23
theorem test_gflog_0 : after (exec (.gflog 1 0) (args built 0 0 0)) (·.reg 1) = some 512 := by decide +kernel
theorem test_gflog_254 : after (exec (.gflog 1 0) (args built 254 0 0)) (·.reg 1) = some 88 := by decide +kernel
theorem test_gfexp_509 : after (exec (.gfexp 1 0) (args built 509 0 0)) (·.reg 1) = some 142 := by decide +kernel
theorem test_gfexp_1025_faults : after (exec (.gfexp 1 0) (args built 1025 0 0)) record
    = some (5, 0x23100000, 0x9F) := by decide +kernel
-- V24, V25, V26
theorem test_gfmul : after (exec (.gfmul 2 0 1) (args built 0x53 0xCA 0)) (·.reg 2) = some 143 := by decide +kernel
theorem test_gfdiv : after (exec (.gfdiv 2 0 1) (args built 7 3 0)) (·.reg 2) = some 246 := by decide +kernel
theorem test_gfdiv_zero_faults : after (exec (.gfdiv 2 0 1) (args built 5 0 77)) (fun t => (record t, t.reg 2))
    = some ((3, 0x25201000, 0x9F), 77) := by decide +kernel
theorem test_gfinv : after (exec (.gfinv 1 0) (args built 128 0 0)) (·.reg 1) = some 27 := by decide +kernel
theorem test_gfinv_zero_faults : after (exec (.gfinv 1 0) (args built 0 0 0)) record
    = some (3, 0x26100000, 0x9F) := by decide +kernel
theorem test_gfmull : after (exec (.gfmull 3 0 1) (args built 255 255 0)) (·.reg 3) = some 226 := by decide +kernel
theorem test_gfmull_zeros : after (exec (.gfmull 3 0 1) (args built 0 0 0)) (·.reg 3) = some 0 := by decide +kernel
theorem test_gfdivl : after (exec (.gfdivl 2 0 1) (args built 143 0xCA 0)) (·.reg 2) = some 83 := by decide +kernel
theorem test_gfdivl_zero_dividend : after (exec (.gfdivl 2 0 1) (args built 0 9 0)) (·.reg 2) = some 0 := by
  decide +kernel
-- V30, V31
theorem test_popc : after (exec (.popc 1 0) (args State.reset 0x1D 0 0)) (·.reg 1) = some 4 := by decide +kernel
theorem test_popc_256_faults : after (exec (.popc 1 0) (args State.reset 256 0 0)) record
    = some (5, 0x30100000, 0x80) := by decide +kernel
theorem test_bwcalc : after (exec (.bwcalc 1 0) (args built 128 0 0)) (·.reg 1) = some 29 := by decide +kernel
theorem test_bwlut : after (exec (.bwlut 1 0) (args built 61 0 0)) (·.reg 1) = some 47 := by decide +kernel
-- V35
theorem test_setdim_254_2 : after (exec (.setdim 0x02FE) State.reset) (fun t => (t.dim, t.status, t.k, t.m))
    = some (0x02FE, 0x10, 254, 2) := by decide
theorem test_setdim_255_2_faults : after (exec (.setdim 0x02FF) State.reset) record
    = some (2, 0x400002FF, 0x80) := by decide
-- V36, V37, V40
theorem test_ldx : after (exec (.ldx 3 0) (args built 2 0 0)) (·.reg 3) = some 3 := by decide +kernel
theorem test_ldx_256_faults : after (exec (.ldx 1 0) (args State.reset 256 0 0)) record
    = some (5, 0x41100000, 0x80) := by decide
theorem test_stx : after (exec (.stx 0 1) (args built 1 200 0)) (fun t => ([0, 1, 2].map t.xAt, t.yAt 1))
    = some ([1, 200, 3], 5) := by decide +kernel
theorem test_stx_256_faults : after (exec (.stx 0 1) (args built 0 256 0)) (fun t => (record t, t.xAt 0))
    = some ((5, 0x42001000, 0x9F), 1) := by decide +kernel
theorem test_ldy : after (exec (.ldy 3 0) (args built 2 0 0)) (·.reg 3) = some 6 := by decide +kernel
theorem test_sty : after (exec (.sty 0 1) (args built 255 200 0)) (fun t => ([2, 255].map t.yAt, t.xAt 2))
    = some ([6, 200], 3) := by decide +kernel
theorem test_ldm : after (exec (.ldm 8 1 2) (args built 0 1 2)) (·.reg 8) = some 123 := by decide +kernel
theorem test_ldm_column_3_faults : after (exec (.ldm 8 1 2) (args built 0 1 3)) record
    = some (5, 0x45812000, 0x9F) := by decide +kernel
theorem test_stm : after (exec (.stm 0 1 2) (args built 2 1 92)) (fun t => [6, 7, 8].map t.matAt)
    = some [104, 92, 82] := by decide +kernel
theorem test_stm_unready_faults : after (exec (.stm 0 1 2) State.reset) record
    = some (4, 0x46001200, 0x80) := by decide
theorem test_cmraw : after (exec .cmraw { built with mat := [] }) (fun t => (List.range 9).map t.matAt)
    = some [1, 1, 1, 70, 187, 123, 104, 143, 82] := by decide +kernel
-- V54
theorem test_cmraw_row_0_meets : after (exec .cmraw { built with y := [(0, 3), (1, 5), (2, 6)] }) record
    = some (3, 0x50000000, 0x9F) := by decide +kernel
-- V44, row 1, and its first row as the document leaves it
theorem test_cmcanon : after (exec .cmcanon { built with dim := 0x0202, mat := [(0, 1), (1, 1), (2, 154), (3, 107)] })
    (fun t => ([0, 1, 2, 3].map t.matAt, t.score)) = some ([1, 1, 1, 25], 33) := by decide +kernel
-- V43's second row: of two equal totals the lower column wins
theorem test_first_minimum_wins : bestPivot none [⟨233, 83⟩, ⟨167, 92⟩, ⟨66, 83⟩] = some ⟨233, 83⟩ := by decide
-- V42
theorem test_cmones_2 : after (exec (.cmones 7 0) (args built 2 0 0)) (·.reg 7) = some 132 := by decide +kernel
theorem test_cmones_4_faults : after (exec (.cmones 7 0) (args built 4 0 0)) record
    = some (5, 0x52700000, 0x9F) := by decide +kernel

/-! ### Steps -/

theorem test_step_gfmul : after (step ((args built 0x53 0xCA 0).withFetchWord 32 0x24201000))
    (fun t => (t.reg 2, t.pending)) = some (143, []) := by decide +kernel
theorem test_step_illegal : after (step (built.withFetchWord 32 0xFF000000)) record
    = some (6, 0xFF000000, 0x9F) := by decide +kernel
-- V55
theorem test_step_refused : step ({ State.reset with status := 0x80, fcode := 3, fcmd := 0x25201000 }.withFetchWord 32 0x01300001)
    = .next { State.reset with status := 0x80, fcode := 3, fcmd := 0x25201000 } := by rfl
theorem test_step_reset : after (step { built with pending := [.reset] }) (fun t => (t.status, t.poly, t.mul.length, t.resets))
    = some (0, 0, 0, 1) := by decide +kernel
theorem test_step_idle : step State.reset = .next State.reset := by rfl
-- R57: a stored table whose flag is 0 is not what the host reads
theorem test_hostRead_unbuilt : State.hostRead { built with status := 0x01 } .inv 2
    = some (State.unbuiltElement built .inv 2) := by rfl
theorem test_hostRead_outside : State.hostRead built .mat 16384 = none := by decide +kernel
-- R35, R308: a run ends at the faulting word (here the fault is V2's, the words are ours)
theorem test_runProgram_stops : (match runProgram [0x01000009, 0x04000000, 0x01300001] 0 State.reset with
    | .next (t, idx) => some (idx, t.reg 0, t.reg 3, t.fcode)
    | _ => none) = some (1, 9, 0, 6) := by decide
-- R308: the first command that records a fault; here the same STX completed at position 0
theorem test_runProgram_same_word_twice : (match runProgram [0x42001000, 0x01000100, 0x42001000] 0 State.reset with
    | .next (t, idx) => some (idx, t.fcmd, t.fcode)
    | _ => none) = some (2, 0x42001000, 5) := by decide
-- R308, R276: from a faulted start every word is refused, none records a fault, so `cmd_index` is n
theorem test_runProgram_faulted_start : runProgram [0x01000009, 0x04000000] 0 (raise .divZero 0x25201000 State.reset)
    = .next (raise .divZero 0x25201000 State.reset, 2) := by rfl

/-! ### The canonical form of memory -/

theorem test_reset_memory : StorageWf State.reset := by
  constructor <;> decide
theorem test_store_keeps_order : Memory.store ([(1, 10), (5, 50)] : Memory 8) 2 [20, 30]
    = [(1, 10), (2, 20), (3, 30), (5, 50)] := by decide
theorem test_wf_refuses_outside : Memory.wf 256 ([(256, 0)] : Memory 8) = false := by decide

/-! ### Witnesses: the hypotheses of each statement, met together -/

theorem built_mul (y x : Byte) : built.mulAt y x = (mulDivState 0x8E).mulAt y x := rfl

theorem built_fieldTables : FieldTables built :=
  fieldTables_of_entries (p := polyOf 0x8E) (m := []) (n := []) rfl (by decide) (by decide) (by decide +kernel) rfl rfl

/-- The state the tables and dimensions of which the statements are about. -/
theorem built_tablesHold : TablesHold built where
  order := ⟨fun _ => rfl, fun _ => rfl, fun _ => rfl⟩
  field _ := built_fieldTables
  mulDiv _ := mulDivTables_of_rows (s := fieldState 0x8E) rfl rfl (fun _ => rfl) (fun _ => rfl)
  inv _ x hx := by
    rw [invAt_of_store (s := built) (m := []) rfl hx, ofNat_toNat_byte]
    rfl
  weight _ v := by
    rw [weightAt_of_store (s := built) (m := []) rfl, ofNat_toNat_byte, BitVec.toNat_ofNat,
      weightOf_congr (s := mulDivState 0x8E) (t := built) built_mul]
    have := weightOf_le (mulDivState 0x8E) v
    omega

theorem built_dimsLegal : DimsLegal built := fun _ => by decide

theorem built_k : built.k = 3 := by decide
theorem built_m : built.m = 3 := by decide

theorem built_rawReady : rawReady built where
  mulDiv := rfl
  inv := rfl
  dim := rfl
  disjoint x y hx hy := by
    rw [built_k] at hx
    rw [built_m] at hy
    interval_cases x <;> interval_cases y <;> decide

theorem built_canonReady : canonReady built where
  mulDiv := rfl
  weight := rfl
  dim := rfl
  nonzero y x h1 hy hx := by
    rw [built_k] at hx ⊢
    rw [built_m] at hy
    interval_cases x <;> interval_cases y <;> decide

/-- `built` with one input presented. -/
def presented (input : HostInput) : State := { built with pending := [input] }

/-- `built` in a fault, with one input presented. -/
def faulted (input : HostInput) : State := raise .divZero 0x25201000 (presented input)

theorem witness_DecodeOfEncodeIsTheCommand : (Instr.rdcsr 15 6).wellFormed = true := by decide
theorem witness_EncodeOfDecodeIsTheWord : decode 0x03F00006 = .ok (.rdcsr 15 6) := by rfl
theorem witness_StepExecutesTheDecodedCommand :
    (presented (.command 0x51000000)).pending = .command 0x51000000 :: [] ∧
    (presented (.command 0x51000000)).flag .fault = false ∧ decode 0x51000000 = .ok .cmcanon := ⟨rfl, rfl, rfl⟩
theorem witness_IllegalWordsRaiseIllegalCmd :
    (presented (.command 0x03000007)).pending = .command 0x03000007 :: [] ∧
    (presented (.command 0x03000007)).flag .fault = false ∧ ¬ legalWord 0x03000007 ∧ ¬ legalWord 0x04000000 ∧
    ¬ legalWord 0x02120300 ∧ legalWord 0x03000006 := by
  refine ⟨rfl, rfl, ?_, ?_, ?_, ?_⟩ <;> unfold legalWord opcodeRows <;> decide
theorem witness_FaultedEngineRefusesEveryCommand :
    (faulted (.command 0xFFFFFFFF)).pending = .command 0xFFFFFFFF :: [] ∧
    (faulted (.command 0xFFFFFFFF)).flag .fault = true := ⟨rfl, by decide⟩
theorem witness_ResetMakesStorageUnspecified : (faulted .reset).pending = .reset :: [] := rfl
theorem witness_IdleEngineDoesNotChange : built.pending = [] := rfl
theorem witness_FaultsArePrecise : (presented (.command 0xFF000000)).pending = .command 0xFF000000 :: [] ∧
    (presented (.command 0xFF000000)).flag .fault = false ∧
    ∃ t, step (presented (.command 0xFF000000)) = .next t ∧ t.flag .fault = true := ⟨rfl, rfl, _, rfl, by decide⟩
/-- The three ends of a run: from a faulted start, with no fault, and at a word that faults after completing once. -/
theorem witness_RunEndsAtTheFirstFault :
    (DimsLegal (raise .divZero 0x25201000 State.reset) ∧ (raise .divZero 0x25201000 State.reset).flag .fault = true) ∧
    (DimsLegal State.reset ∧ State.reset.flag .fault = false) ∧
    (∃ t, runProgram [0x42001000, 0x01000100] 0 State.reset = .next (t, 2) ∧ t.flag .fault = false) ∧
    ∃ t, runProgram [0x42001000, 0x01000100, 0x42001000] 0 State.reset = .next (t, 2) ∧ t.flag .fault = true :=
  ⟨⟨fun h => absurd h (by decide), by decide⟩, ⟨fun h => absurd h (by decide), rfl⟩,
    ⟨_, rfl, by decide⟩, ⟨_, rfl, by decide⟩⟩
theorem witness_HostReadsElementsThatAreReady : 1024 < spaceSize .antilog ∧ ¬ 1025 < spaceSize .antilog ∧
    spaceFlag .antilog = some .fieldRdy ∧ built.flag .fieldRdy = true ∧ State.reset.flag .fieldRdy = false ∧
    16383 < spaceSize .mat ∧ spaceFlag .mat = none := by decide
/-- NotReady, with its two sides: `built` is ready for CMCANON, the state after reset is not. -/
theorem witness_NotReady : State.reset.flag .fault = false ∧ ¬ ready .cmcanon State.reset ∧
    built.flag .fault = false ∧ ready .cmcanon built := by
  unfold ready requiredFlags; decide
/-- Operands at the two sides of their bounds: 255 and 256, 1024 and 1025, `K` and `K + 1`, `M - 1` and `M`. -/
theorem witness_OperandRange : built.flag .fault = false ∧ ready (.gfexp 1 0) built ∧
    operandsAccepted (args built 1024 0 0) (.gfexp 1 0) ∧ ¬ operandsAccepted (args built 1025 0 0) (.gfexp 1 0) ∧
    operandsAccepted (args built 255 255 0) (.gfadd 2 0 1) ∧
    ¬ operandsAccepted (args built 0 256 0) (.gfadd 2 0 1) ∧
    operandsAccepted (args built 3 0 0) (.cmones 1 0) ∧ ¬ operandsAccepted (args built 4 0 0) (.cmones 1 0) ∧
    operandsAccepted (args built 2 2 255) (.stm 0 1 2) ∧ ¬ operandsAccepted (args built 3 2 255) (.stm 0 1 2) := by
  unfold ready requiredFlags operandsAccepted; decide
theorem witness_DivZero : built.flag .fault = false ∧ DimsLegal built ∧ ready .cmraw built ∧
    operandsAccepted built .cmraw ∧ ¬ dividesByZero built .cmraw ∧
    dividesByZero (args built 0 0 0) (.gfinv 1 0) ∧ ¬ dividesByZero (args built 1 0 0) (.gfinv 1 0) ∧
    dividesByZero { built with y := [(0, 3), (1, 5), (2, 6)] } .cmraw :=
  ⟨rfl, built_dimsLegal, by unfold ready requiredFlags; decide, trivial,
    fun ⟨x, y, hx, hy, h⟩ => built_rawReady.disjoint x y hx hy h,
    (by decide : (args built 0 0 0).reg 0 = 0), (by decide : ¬ (args built 1 0 0).reg 0 = 0), 2, 0, by decide, by decide, by decide⟩
/-- Catalog entry 0 is usable; so is the last, 15; 16 names none, and 0x0E has bit 7 clear. -/
theorem witness_CfgPoly : State.reset.flag .fault = false ∧ State.reset.catalog.length ≤ (16 : Imm16).toNat ∧
    State.reset.catalog[(15 : Imm16).toNat]? = some 0xFA ∧ (0x0E : Byte).getLsbD 7 = false := by decide

theorem primitive_of_full {e : Byte} (h : isFullCycle (cycle (polyOf e)) = true) : primitive e := by
  intro v hv
  have hmem := (isFullCycle_iff_mem _).1 h
  have hnodup := nodup_of_full (cycle_length (polyOf e)) hmem
  have hlt : ∀ {j}, j < 255 → j < (cycle (polyOf e)).length := fun h => by rwa [cycle_length]
  have get : ∀ {j} (hj : j < 255), (cycle (polyOf e))[j]'(hlt hj) = orbit e j := fun {j} hj =>
    Option.some.inj ((List.getElem?_eq_getElem (hlt hj)).symm.trans (cycle_getElem? _ j hj))
  obtain ⟨j, hj, hv⟩ := List.getElem_of_mem ((hmem v).2 hv)
  rw [cycle_length] at hj
  refine ⟨j, ⟨hj, (get hj).symm.trans hv⟩, fun i ⟨hi, hiv⟩ => ?_⟩
  exact (hnodup.getElem_inj_iff).1 (((get hi).trans hiv).trans hv.symm)

theorem witness_GfbuildBuildsLogAndAntilog : State.reset.catalog[(0 : Imm16).toNat]? = some 0x8E ∧
    (0x8E : Byte).getLsbD 7 = true ∧ primitive 0x8E :=
  ⟨by decide, by decide, primitive_of_full (by decide +kernel)⟩
theorem witness_RdcsrReadsTheNumberedRegister : 6 < (7 : Imm16).toNat ∧ 6 < (0xFFFF : Imm16).toNat := by decide
theorem witness_MdbuildBuildsMulAndDiv : (fieldState 0x8E).flag .fieldRdy = true := rfl
theorem witness_InvbuildBuildsInv : (mulDivState 0x8E).flag .mulDivRdy = true := rfl
theorem witness_WtbuildBuildsWeight : (mulDivState 0xFA).flag .mulDivRdy = true := rfl
/-- For GfaddXorsFieldValues, GfdblDoublesWithPoly, GflogAndGfexpReadTheirTables, GfmulGfdivGfinvReadTheirTables,
GfmullAndGfdivlAddLogs, PopcAndBwcalcCountOnes and BwlutReadsWeight: every flag 1 and operands at the ends of their
range. -/
theorem witness_fieldCommands : built.flag .fieldRdy = true ∧ built.flag .mulDivRdy = true ∧
    built.flag .invRdy = true ∧ built.flag .weightRdy = true ∧
    ((args built 0 255 1024).reg 0).toNat ≤ 255 ∧ ((args built 0 255 1024).reg 1).toNat ≤ 255 ∧
    (args built 0 255 1024).reg 1 ≠ 0 ∧ ((args built 0 255 1024).reg 2).toNat ≤ 1024 ∧
    built.poly.toNat < 2 ^ 9 := by decide
/-- SETDIM: both ends of `K + M ≤ 256`, and what lies beyond them. -/
theorem witness_SetdimSetsLegalDimensions :
    (255 = (0x01FF : Imm16).toNat % 256 ∧ 1 = (0x01FF : Imm16).toNat / 256 ∧ 255 + 1 ≤ 256) ∧
    (1 = (0xFF01 : Imm16).toNat % 256 ∧ 255 = (0xFF01 : Imm16).toNat / 256) ∧
    (255 = (0x02FF : Imm16).toNat % 256 ∧ 2 = (0x02FF : Imm16).toNat / 256 ∧ ¬ 255 + 2 ≤ 256) ∧
    (0 = (0x0300 : Imm16).toNat % 256 ∧ 3 = (0x0003 : Imm16).toNat % 256 ∧ 0 = (0x0003 : Imm16).toNat / 256) := by
  decide
theorem witness_LdxAndLdyReadOneEntry : ((args built 255 0 0).reg 0).toNat ≤ 255 := by decide
theorem witness_StxAndStyWriteOneEntry : 255 = ((args built 255 255 0).reg 0).toNat ∧ 255 ≤ 255 ∧
    ((args built 255 255 0).reg 1).toNat ≤ 255 := by decide
/-- For LdmReadsTheRowMajorElement and StmWritesTheRowMajorElement: the last element. -/
theorem witness_LdmAndStm : DimsLegal (args built 2 2 255) ∧ (args built 2 2 255).flag .dimRdy = true ∧
    ((args built 2 2 255).reg 0).toNat < (args built 2 2 255).m ∧
    ((args built 2 2 255).reg 1).toNat < (args built 2 2 255).k ∧ ((args built 2 2 255).reg 2).toNat ≤ 255 ∧
    8 = ((args built 2 2 255).reg 0).toNat * (args built 2 2 255).k + ((args built 2 2 255).reg 1).toNat := by
  unfold DimsLegal; decide
theorem witness_CmrawBuildsTheRawMatrix : DimsLegal built ∧ rawReady built := ⟨built_dimsLegal, built_rawReady⟩
theorem witness_CmcanonDividesEachRow : DimsLegal built ∧ canonReady built := ⟨built_dimsLegal, built_canonReady⟩
theorem witness_CmonesSumsAColumnPrefix : DimsLegal (args built 3 0 0) ∧
    (args built 3 0 0).flag .weightRdy = true ∧ (args built 3 0 0).flag .dimRdy = true ∧
    ((args built 3 0 0).reg 0).toNat ≤ (args built 3 0 0).k := by
  unfold DimsLegal; decide

theorem witness_RegisterResultsChangeOneRegister : destination (.ldx 3 0) = some 3 ∧
    ∃ t, exec (.ldx 3 0) built = .next t := ⟨rfl, _, rfl⟩
theorem witness_NoOtherCommandWritesARegister : destination .cmcanon = none ∧
    ∃ t, exec .cmcanon built = .next t := ⟨rfl, _, rfl⟩
theorem witness_StatusWritersAreTheTable : State.reset.flag .fault = false ∧
    (∃ t, exec (.setdim 0x0101) State.reset = .next t) ∧ ∃ t, exec (.setdim 0) State.reset = .next t :=
  ⟨rfl, ⟨_, rfl⟩, _, rfl⟩
theorem witness_TablesAreWrittenOnlyByTheirBuilds : ∃ t, exec .cmraw built = .next t := ⟨_, rfl⟩

theorem built_storageWf : StorageWf built where
  log := wf_store 0 _ (by decide) (by simp [logEntries_length])
  antilog := wf_store 0 _ (by decide) (by simp [antilogEntries_length])
  mulRows := by simp [built, mulDivState, State.mulRows]
  mul row h := by
    obtain ⟨y, -, rfl⟩ := List.mem_map.1 h
    exact wf_store 0 _ (by decide) (by simp)
  divRows := by simp [built, mulDivState, State.divRows]
  div row h := by
    obtain ⟨y, -, rfl⟩ := List.mem_map.1 h
    exact wf_store 0 _ (by decide) (by simp)
  inv := wf_store 1 _ (by decide) (by simp)
  weight := wf_store 0 _ (by decide) (by simp)
  x := by decide
  y := by decide
  mat := by decide

/-- For StepKeepsReadyOrder, StepKeepsFaultRecord, StepKeepsDimsLegal, StepKeepsTablesHold and
StepKeepsScoreBounded: every invariant holds of a state with a command before it, and the step answers. -/
theorem witness_StepKeeps : ReadyOrder (presented (.command 0x51000000)) ∧
    FaultRecord (presented (.command 0x51000000)) ∧ DimsLegal (presented (.command 0x51000000)) ∧
    TablesHold (presented (.command 0x51000000)) ∧ (presented (.command 0x51000000)).score.toNat ≤ 2 ^ 20 ∧
    ∃ t, step (presented (.command 0x51000000)) = .next t :=
  have h : TablesHold (presented (.command 0x51000000)) := built_tablesHold.congr (fun _ _ _ => rfl) rfl
    (fun _ => rfl) (fun _ => rfl) (fun _ _ => rfl) (fun _ _ => rfl) (fun _ => rfl) (fun _ => rfl)
  ⟨h.order, ⟨by decide, by decide⟩, built_dimsLegal, h, by decide, _, rfl⟩
theorem witness_StepKeepsReservedBitsZero : ReservedZero built where
  status i h := by
    by_cases hi : i < 32
    · interval_cases i <;> first | rfl | omega
    · exact BitVec.getLsbD_of_ge _ _ (by omega)
  polysel := by decide
  poly := by decide
  dim := by decide
  fcode := by decide
theorem witness_StepKeepsStorageCanonical : StorageWf (presented (.command 0x51000000)) ∧
    ∃ t, step (presented (.command 0x51000000)) = .next t :=
  have h := built_storageWf
  ⟨⟨h.1, h.2, h.3, h.4, h.5, h.6, h.7, h.8, h.9, h.10, h.11⟩, _, rfl⟩
theorem witness_StepKeepsPolyFromCatalog : built.catalog.length ≤ 256 ∧ PolyFromCatalog built :=
  ⟨by decide, fun _ => ⟨0x8E, rfl, by decide⟩, fun h => absurd h (by decide)⟩
theorem witness_StepAlwaysAnswersANextState : DimsLegal (presented (.command 0x50000000)) := fun _ => by decide

/-- For LogPathEqualsTablePath, DocumentedFieldLawsHold, TheBytesAreAField, WeightValuesAndBounds and
BwlutEqualsBwcalc. -/
theorem witness_fieldLaws : TablesHold built ∧ built.flag .mulDivRdy = true ∧ built.flag .invRdy = true ∧
    built.flag .weightRdy = true ∧ (built.reg 0).toNat ≤ 255 := ⟨built_tablesHold, rfl, rfl, rfl, by decide⟩
theorem witness_RawMatrixHasNoZeroCell : TablesHold built ∧ DimsLegal built ∧ rawReady built ∧
    (∃ t, exec .cmraw built = .next t) ∧ ∀ i j, i < j → j < built.m → built.yAt i ≠ built.yAt j :=
  ⟨built_tablesHold, built_dimsLegal, built_rawReady, ⟨_, rfl⟩, fun i j hi hj => by
    rw [built_m] at hj
    interval_cases j <;> interval_cases i <;> decide⟩
theorem witness_CmcanonIsIdempotent : TablesHold built ∧ DimsLegal built ∧ canonReady built ∧
    built.flag .fault = false ∧ ∃ t, exec .cmcanon built = .next t :=
  ⟨built_tablesHold, built_dimsLegal, built_canonReady, rfl, _, rfl⟩

/-- `built` with 3 in `s3`, as V41's program has it. -/
def builtS3 : State := built.setReg 3 3

theorem witness_CmonesIsScorePlusEightPerColumn : TablesHold builtS3 ∧ DimsLegal builtS3 ∧ canonReady builtS3 ∧
    (∀ x < builtS3.k, builtS3.matAt x = 1) ∧ exec .cmcanon builtS3 = .next (canonState builtS3) ∧
    ((canonState builtS3).reg 3).toNat = (canonState builtS3).k :=
  have c := built_canonReady
  ⟨built_tablesHold.congr (fun _ _ _ => rfl) rfl (fun _ => rfl) (fun _ => rfl) (fun _ _ => rfl) (fun _ _ => rfl)
      (fun _ => rfl) (fun _ => rfl),
    built_dimsLegal, ⟨c.1, c.2, c.3, c.4⟩, fun x hx => by
      have hx : x < 3 := hx
      interval_cases x <;> rfl, rfl, rfl⟩

end Sys2Proof.Tests
end

section
/-! The host's direct read (R11, R44, R57): one equation for each thing that can stand at an index, and the
statement about it. -/

namespace Sys2Proof.Machine

theorem State.hostReadCsr_eq_csr (s : State) (n : Nat) : s.hostReadCsr n = s.csr n := rfl

/-- R70: an index outside the space names nothing. -/
theorem State.hostRead_eq_none {s : State} {sp : Config.Space} {i : Nat} (hi : ¬ i < spaceSize sp) :
    s.hostRead sp i = none := if_neg hi

section Inside
variable {s : State} {sp : Config.Space} {i : Nat}

/-- X, Y and MAT have no ready flag: they are always read as they stand. -/
theorem State.hostRead_of_spaceFlag_none (hi : i < spaceSize sp) (hsp : spaceFlag sp = none) :
    s.hostRead sp i = some (s.element sp i) := by
  simp only [State.hostRead, if_pos hi, hsp]

/-- A table is read through its ready flag (R57). -/
theorem State.hostRead_of_spaceFlag_some {f : Flag} (hi : i < spaceSize sp) (hsp : spaceFlag sp = some f) :
    s.hostRead sp i = some (if s.flag f then s.element sp i else s.unbuiltElement sp i) := by
  simp only [State.hostRead, if_pos hi, hsp]

theorem State.hostRead_of_flag_true {f : Flag} (hi : i < spaceSize sp) (hsp : spaceFlag sp = some f)
    (hf : s.flag f = true) : s.hostRead sp i = some (s.element sp i) := by
  rw [hostRead_of_spaceFlag_some hi hsp, if_pos hf]

theorem State.hostRead_of_flag_false {f : Flag} (hi : i < spaceSize sp) (hsp : spaceFlag sp = some f)
    (hf : s.flag f = false) : s.hostRead sp i = some (s.unbuiltElement sp i) := by
  rw [hostRead_of_spaceFlag_some hi hsp, if_neg (Bool.eq_false_iff.mp hf)]

end Inside

/-- Settles O12: each clause is the equation of the read for its kind of index, space and flag. -/
theorem hostReadsElementsThatAreReady : Obligations.HostReadsElementsThatAreReady :=
  fun s _ _ n => ⟨s.hostReadCsr_eq_csr n, State.hostRead_eq_none,
    fun hi _ => State.hostRead_of_flag_true hi,
    fun hi _ => State.hostRead_of_flag_false hi,
    State.hostRead_of_spaceFlag_none⟩

end Sys2Proof.Machine
end

section
/-! What every command does to the registers, the CSRs, the flags and the tables, read off `Effect` once; the
statements on what a command leaves unchanged (R31, R32, R47, R55) are these facts beside fault entry. -/

namespace Sys2Proof.Machine

open Sys2Proof.Claims

/-! ### Two states that share a field -/

theorem sameRegsBut_of_regs {s t : State} (h : t.regs = s.regs) (rd : Option Reg) : SameRegsBut rd s t :=
  fun r _ => by simp only [State.reg, h]

theorem sameRegsBut_setReg (s : State) (rd : Reg) (v : Word) : SameRegsBut (some rd) s (s.setReg rd v) := by
  intro q hq
  have hne : q ≠ rd := fun e => hq (congrArg some e.symm)
  simp [hne]

theorem sameElementsBut_setReg (s : State) (rd : Reg) (v : Word) (P : Config.Space → Nat → Prop) :
    SameElementsBut P s (s.setReg rd v) := fun _ _ _ _ => rfl

theorem sameCsrsBut_setReg (s : State) (rd : Reg) (v : Word) (l : List Nat) :
    SameCsrsBut l s (s.setReg rd v) := fun _ _ => rfl

theorem sameRest_setReg (s : State) (rd : Reg) (v : Word) : SameRest s (s.setReg rd v) := ⟨rfl, rfl, rfl, rfl⟩

/-- A faulting command has set FAULT, so it has not left FAULT as a running engine had it. -/
theorem flag_fault_of_entersFault {i : Instr} {s t : State} (h : EntersFault i s t) : t.flag .fault = true := by
  obtain ⟨f, rfl⟩ := h
  simp

section Effect
variable {i : Instr} {s t : State}

/-! ### Registers (R32) -/

/-- A command with a destination that completes has written that register and done nothing else. -/
theorem effect_of_destination {rd : Reg} (hd : destination i = some rd) (h : Effect i s t) :
    ∃ v, t = s.setReg rd v := by
  cases i <;> simp only [destination, Option.some.injEq, reduceCtorEq] at hd <;> exact hd ▸ h

/-- A command without a destination that completes has written no register. -/
theorem effect_regs (hd : destination i = none) (h : Effect i s t) : t.regs = s.regs := by
  cases i <;> simp only [destination, reduceCtorEq] at hd
  case nop => rw [show t = s from h]
  case gfbuild => obtain ⟨_, _, _, _, rfl⟩ := h; rfl
  case mdbuild | invbuild | wtbuild | setdim | stx | sty => obtain ⟨_, rfl⟩ := h; rfl
  case stm => obtain ⟨_, _, _, rfl⟩ := h; rfl
  case cmraw => obtain ⟨_, _, rfl⟩ := h; rfl
  case cmcanon => obtain ⟨_, _, _, _, _, rfl⟩ := h; rfl

/-! ### Flags (R47) -/

theorem flag_gfbuildState (idx : Imm16) (e : Byte) (s : State) (g : Flag) :
    (gfbuildState idx e s).flag g = (flagWritten (.gfbuild idx) g).getD (s.flag g) := by
  simp only [gfbuildState, flag_setFlag, putField_flag]
  cases g <;> rfl

/-- A command whose row of R47 has one entry, and that writes this flag of a state that has the other flags. -/
theorem flag_setFlag_of_flagWrites {u : State} {f : Flag} {b : Bool} (hw : flagWrites i = [(f, b)])
    (hu : ∀ g, u.flag g = s.flag g) (g : Flag) :
    (u.setFlag f b).flag g = (flagWritten i g).getD (s.flag g) := by
  simp only [flag_setFlag, flagWritten, hw, hu, List.lookup]
  by_cases hg : g = f
  · simp [hg]
  · simp [hg, beq_false_of_ne hg]

/-- A command that completes writes the flags of its row of R47, and no other. -/
theorem effect_flag (h : Effect i s t) (g : Flag) : t.flag g = (flagWritten i g).getD (s.flag g) := by
  cases i
  case nop => rw [show t = s from h]; rfl
  case gfbuild => obtain ⟨e, _, _, _, rfl⟩ := h; exact flag_gfbuildState _ e s g
  case mdbuild | invbuild | wtbuild | setdim =>
    obtain ⟨_, rfl⟩ := h
    exact flag_setFlag_of_flagWrites rfl (fun _ => rfl) g
  case stx | sty => obtain ⟨_, rfl⟩ := h; rfl
  case stm => obtain ⟨_, _, _, rfl⟩ := h; rfl
  case cmraw => obtain ⟨_, _, rfl⟩ := h; rfl
  case cmcanon => obtain ⟨_, _, _, _, _, rfl⟩ := h; rfl
  all_goals obtain ⟨_, rfl⟩ := effect_of_destination rfl h; rfl

/-! ### Tables (R55) -/

/-- A command that completes writes a table only if it is the build command of the table. -/
theorem effect_tables (h : Effect i s t) :
    ((∀ idx, i ≠ .gfbuild idx) → t.log = s.log ∧ t.antilog = s.antilog) ∧
    (i ≠ .mdbuild → t.mul = s.mul ∧ t.div = s.div) ∧
    (i ≠ .invbuild → t.inv = s.inv) ∧ (i ≠ .wtbuild → t.weight = s.weight) := by
  cases i
  case nop => rw [show t = s from h]; simp
  case gfbuild idx =>
    obtain ⟨_, _, _, _, rfl⟩ := h
    exact ⟨fun hne => absurd rfl (hne idx), fun _ => ⟨rfl, rfl⟩, fun _ => rfl, fun _ => rfl⟩
  case mdbuild => obtain ⟨_, rfl⟩ := h; simp
  case invbuild => obtain ⟨_, rfl⟩ := h; simp
  case wtbuild => obtain ⟨_, rfl⟩ := h; simp
  case setdim | stx | sty => obtain ⟨_, rfl⟩ := h; simp
  case stm => obtain ⟨_, _, _, rfl⟩ := h; simp
  case cmraw => obtain ⟨_, _, rfl⟩ := h; simp
  case cmcanon => obtain ⟨_, _, _, _, _, rfl⟩ := h; simp [canonState]
  all_goals obtain ⟨_, rfl⟩ := effect_of_destination rfl h; simp

end Effect

/-! ### The statements -/

/-- Settles O40: a command that did not enter a fault had its effect, one register written. -/
theorem registerResultsChangeOneRegister : Obligations.RegisterResultsChangeOneRegister := by
  intro i rd s t hd h
  rcases exec_next h with hf | he
  · exact .inl hf
  · obtain ⟨v, rfl⟩ := effect_of_destination hd he
    exact .inr ⟨sameRegsBut_setReg s rd v, sameCsrsBut_setReg s rd v _, sameElementsBut_setReg s rd v _,
      sameRest_setReg s rd v⟩

/-- Settles O41: neither fault entry nor the effect of these commands writes a register. -/
theorem noOtherCommandWritesARegister : Obligations.NoOtherCommandWritesARegister := by
  intro i s t hd h
  rcases exec_next h with ⟨f, rfl⟩ | he
  · exact sameRegsBut_of_regs rfl none
  · exact sameRegsBut_of_regs (effect_regs hd he) none

/-- Settles O42: fault entry sets FAULT alone, and a command that completes leaves FAULT 0, so the two ends exclude
each other. -/
theorem statusWritersAreTheTable : Obligations.StatusWritersAreTheTable := by
  intro i s t hs h
  rcases exec_next h with ⟨f, rfl⟩ | he
  · exact .inl ⟨⟨f, rfl⟩, by simp, fun g hg => by simp [hg]⟩
  · refine .inr ⟨fun hf => ?_, effect_flag he⟩
    have running : t.flag .fault = false := (effect_fault he).trans hs
    simp [flag_fault_of_entersFault hf] at running

/-- Settles O43: fault entry writes no table, and a command that completes writes only the tables it builds. -/
theorem tablesAreWrittenOnlyByTheirBuilds : Obligations.TablesAreWrittenOnlyByTheirBuilds := by
  intro i s t h
  rcases exec_next h with ⟨f, rfl⟩ | he
  · simp
  · exact effect_tables he

end Sys2Proof.Machine
end

section
/-! The invariants of Safety.lean: each sees a state through a few of its fields, fault entry and every command's
effect keep it, and a machine just reset meets it. -/

namespace Sys2Proof.Machine

variable {i : Instr} {s t : State}

theorem reset_flag (f : Flag) : State.reset.flag f = false := by
  simp [State.flag, State.reset]

/-! ### R45: the order of the ready flags -/

theorem ReadyOrder.congr (h : ReadyOrder s) (hf : ∀ f, f ≠ .fault → t.flag f = s.flag f) : ReadyOrder t := by
  obtain ⟨hmulDiv, hinv, hweight⟩ := h
  constructor <;> simpa [hf]

theorem readyOrder_of_unready (h : ∀ f, s.flag f = false) : ReadyOrder s := by
  constructor <;> simp [h]

/-- A flag is set over the flags its command required, and GFBUILD clears the three flags above FIELD_RDY. -/
theorem ReadyOrder.of_effect (h : ReadyOrder s) (he : Effect i s t) : ReadyOrder t :=
  effect_cases he ReadyOrder
    (same := h)
    (register := fun _ _ => h.congr fun _ _ => rfl)
    (field := fun _ _ _ _ _ => by constructor <;> simp [gfbuildState])
    (mulDiv := fun hfield => by constructor <;> simp [hfield])
    (inv := fun hmulDiv => by constructor <;> simp [hmulDiv, h.mulDiv hmulDiv])
    (weight := fun hmulDiv => by constructor <;> simp [hmulDiv, h.mulDiv hmulDiv])
    (dims := fun _ _ => by
      obtain ⟨hmulDiv, hinv, hweight⟩ := h
      constructor <;> simpa)
    (x := fun _ _ _ => h.congr fun _ _ => rfl)
    (y := fun _ _ _ => h.congr fun _ _ => rfl)
    (mat := fun _ _ _ => h.congr fun _ _ => rfl)
    (canon := fun _ _ _ _ => h.congr fun _ _ => rfl)

/-- Settles O44. -/
theorem stepKeepsReadyOrder : Obligations.StepKeepsReadyOrder := fun _ _ hs h =>
  step_keeps ReadyOrder
    (taken := fun _ _ h => h.congr fun _ _ => rfl)
    (entered := fun _ _ _ _ h => h.congr fun _ hf => by simp [hf])
    (effect := fun _ _ _ _ h he => h.of_effect he)
    (reset := fun s _ => readyOrder_of_unready (resetEngine_flag s)) hs h

/-! ### R46: the fault registers -/

theorem FaultRecord.congr (h : FaultRecord s) (hflag : t.flag .fault = s.flag .fault) (hcode : t.fcode = s.fcode)
    (hcmd : t.fcmd = s.fcmd) : FaultRecord t := by
  obtain ⟨code, cmd⟩ := h
  constructor <;> simpa only [hflag, hcode, hcmd]

theorem EngineFault.code_ne_zero (f : EngineFault) : f.code ≠ 0 := by cases f <;> decide

theorem faultRecord_raise (f : EngineFault) (cmd : Word) (s : State) : FaultRecord (raise f cmd s) :=
  ⟨by simpa using f.code_ne_zero, by simp⟩

theorem faultRecord_reset : FaultRecord State.reset :=
  ⟨iff_of_true (reset_flag .fault) rfl, fun _ => rfl⟩

theorem faultRecord_resetEngine (s : State) : FaultRecord s.resetEngine := faultRecord_reset.congr rfl rfl rfl

/-- FCODE and FCMD are written by fault entry and by no command that completes (R42, R43). -/
theorem effect_fcode_fcmd (he : Effect i s t) : t.fcode = s.fcode ∧ t.fcmd = s.fcmd :=
  effect_cases he (fun u => u.fcode = s.fcode ∧ u.fcmd = s.fcmd)
    (same := ⟨rfl, rfl⟩) (register := fun _ _ => ⟨rfl, rfl⟩) (field := fun _ _ _ _ _ => ⟨rfl, rfl⟩)
    (mulDiv := fun _ => ⟨rfl, rfl⟩) (inv := fun _ => ⟨rfl, rfl⟩) (weight := fun _ => ⟨rfl, rfl⟩)
    (dims := fun _ _ => ⟨rfl, rfl⟩) (x := fun _ _ _ => ⟨rfl, rfl⟩) (y := fun _ _ _ => ⟨rfl, rfl⟩)
    (mat := fun _ _ _ => ⟨rfl, rfl⟩) (canon := fun _ _ _ _ => ⟨rfl, rfl⟩)

/-- Settles O45: fault entry writes FAULT, FCODE and FCMD together, and a command that completes writes none. -/
theorem stepKeepsFaultRecord : Obligations.StepKeepsFaultRecord := fun _ _ hs h =>
  step_keeps FaultRecord
    (taken := fun _ _ h => h.congr rfl rfl rfl)
    (entered := fun f cmd s _ _ => faultRecord_raise f cmd s)
    (effect := fun _ _ _ _ h he =>
      have ⟨hcode, hcmd⟩ := effect_fcode_fcmd he
      h.congr (effect_fault he) hcode hcmd)
    (reset := fun s _ => faultRecord_resetEngine s) hs h

/-! ### R48: the dimensions -/

theorem immM_append_immK (imm : Imm16) : immM imm ++ immK imm = imm := by
  apply BitVec.eq_of_getLsbD_eq
  intro j hj
  simp only [immM, immK, BitVec.getLsbD_append, BitVec.getLsbD_extractLsb']
  by_cases h8 : j < 8
  · simp [h8]
  · have hlt : j - 8 < 8 := by omega
    have hj' : 8 + (j - 8) = j := by omega
    simp [h8, hlt, hj']

theorem immK_toNat (imm : Imm16) : (immK imm).toNat = imm.toNat % 256 := by
  simp [immK, BitVec.extractLsb'_toNat]

theorem immM_toNat (imm : Imm16) : (immM imm).toNat = imm.toNat / 256 := by
  have := imm.isLt
  simp only [immM, BitVec.extractLsb'_toNat, Nat.shiftRight_eq_div_pow]
  omega

/-- `DIM.K` after SETDIM (R93, R186). -/
theorem k_setDim (s : State) (imm : Imm16) : (s.setDim (imm.setWidth 32)).k = imm.toNat % 256 := by
  have := imm.isLt
  simp only [State.k, setDim_dim, BitVec.extractLsb'_toNat, BitVec.toNat_setWidth, Nat.shiftRight_eq_div_pow]
  omega

/-- `DIM.M` after SETDIM (R93, R186). -/
theorem m_setDim (s : State) (imm : Imm16) : (s.setDim (imm.setWidth 32)).m = imm.toNat / 256 := by
  have := imm.isLt
  simp only [State.m, setDim_dim, BitVec.extractLsb'_toNat, BitVec.toNat_setWidth, Nat.shiftRight_eq_div_pow]
  omega

theorem legalDims_eq_true {k m : Nat} : legalDims k m = true ↔ 1 ≤ k ∧ 1 ≤ m ∧ k + m ≤ 256 := by
  simp [legalDims, and_assoc]

theorem DimsLegal.congr (h : DimsLegal s) (hflag : t.flag .dimRdy = s.flag .dimRdy) (hdim : t.dim = s.dim) :
    DimsLegal t := by
  simpa only [DimsLegal, State.k, State.m, hflag, hdim] using h

theorem dimsLegal_of_unready (h : s.flag .dimRdy = false) : DimsLegal s := fun hr => by simp [h] at hr

theorem DimsLegal.raise (h : DimsLegal s) (f : EngineFault) (cmd : Word) : DimsLegal (raise f cmd s) :=
  h.congr (by simp) rfl

/-- SETDIM writes a pair it has found legal; no other command writes DIM or DIM_RDY. -/
theorem DimsLegal.of_effect (h : DimsLegal s) (he : Effect i s t) : DimsLegal t :=
  effect_cases he DimsLegal
    (same := h)
    (register := fun _ _ => h.congr rfl rfl)
    (field := fun _ _ _ _ _ => h.congr (by simp [gfbuildState]) rfl)
    (mulDiv := fun _ => h.congr (by simp) rfl)
    (inv := fun _ => h.congr (by simp) rfl)
    (weight := fun _ => h.congr (by simp) rfl)
    (dims := fun imm hl _ => by
      rw [immK_toNat, immM_toNat] at hl
      rw [immM_append_immK, setFlag_k, setFlag_m, k_setDim, m_setDim]
      exact legalDims_eq_true.1 hl)
    (x := fun _ _ _ => h.congr rfl rfl)
    (y := fun _ _ _ => h.congr rfl rfl)
    (mat := fun _ _ _ => h.congr rfl rfl)
    (canon := fun _ _ _ _ => h.congr rfl rfl)

/-- Settles O46. -/
theorem stepKeepsDimsLegal : Obligations.StepKeepsDimsLegal := fun _ _ hs h =>
  step_keeps DimsLegal
    (taken := fun _ _ h => h.congr rfl rfl)
    (entered := fun f cmd _ _ h => h.raise f cmd)
    (effect := fun _ _ _ _ h he => h.of_effect he)
    (reset := fun s _ => dimsLegal_of_unready (resetEngine_flag s _)) hs h

/-! ### R38 to R42, R48: the reserved bits -/

theorem ReservedZero.congr (h : ReservedZero s) (hstatus : t.status = s.status) (hpolysel : t.polysel = s.polysel)
    (hpoly : t.poly = s.poly) (hdim : t.dim = s.dim) (hcode : t.fcode = s.fcode) : ReservedZero t := by
  obtain ⟨status, polysel, poly, dim, fcode⟩ := h
  constructor <;> simpa only [hstatus, hpolysel, hpoly, hdim, hcode]

theorem Flag.bit_not_reserved (f : Flag) {j : Nat} (hj : j = 5 ∨ j = 6 ∨ 8 ≤ j) : j ≠ f.bit := by
  cases f <;> simp only [Flag.bit] <;> omega

/-- The bits of the flags are no reserved bits. -/
theorem ReservedZero.setFlag (h : ReservedZero s) (f : Flag) (b : Bool) : ReservedZero (s.setFlag f b) where
  status j hj := (setFlag_status_bit s f b j (f.bit_not_reserved hj)).trans (h.status j hj)
  polysel := h.polysel
  poly := h.poly
  dim := h.dim
  fcode := h.fcode

theorem ReservedZero.putField (h : ReservedZero s) (log : List (BitVec 16)) (antilog : List Byte) {ps p : Word}
    (hps : ps.toNat < 2 ^ 8) (hp : p.toNat < 2 ^ 9) : ReservedZero (s.putField log antilog ps p) :=
  ⟨h.status, hps, hp, h.dim, h.fcode⟩

theorem ReservedZero.setDim (h : ReservedZero s) {v : Word} (hv : v.toNat < 2 ^ 16) : ReservedZero (s.setDim v) :=
  ⟨h.status, h.polysel, h.poly, hv, h.fcode⟩

theorem EngineFault.code_le (f : EngineFault) : f.code.toNat ≤ 6 := by cases f <;> decide

theorem ReservedZero.raise (h : ReservedZero s) (f : EngineFault) (cmd : Word) : ReservedZero (raise f cmd s) :=
  have coded : ReservedZero { s with fcode := f.code, fcmd := cmd } :=
    ⟨h.status, h.polysel, h.poly, h.dim, f.code_le⟩
  coded.setFlag .fault true

theorem reservedZero_reset : ReservedZero State.reset := by
  constructor <;> simp [State.reset]

theorem reservedZero_resetEngine (s : State) : ReservedZero s.resetEngine :=
  reservedZero_reset.congr rfl rfl rfl rfl rfl

/-- A value narrower than 32 bits, zero-extended, keeps its bound. -/
theorem toNat_setWidth_word_lt {n : Nat} (v : BitVec n) : (v.setWidth 32).toNat < 2 ^ n := by
  rw [BitVec.toNat_setWidth]
  exact (Nat.mod_le _ _).trans_lt v.isLt

theorem ReservedZero.of_effect (h : ReservedZero s) (he : Effect i s t) : ReservedZero t :=
  effect_cases he ReservedZero
    (same := h)
    (register := fun _ _ => h.congr rfl rfl rfl rfl rfl)
    (field := fun _ _ _ _ _ => ((((h.putField _ _ (toNat_setWidth_word_lt _) (toNat_setWidth_word_lt _)).setFlag
      _ _).setFlag _ _).setFlag _ _).setFlag _ _)
    (mulDiv := fun _ => (h.congr rfl rfl rfl rfl rfl : ReservedZero (s.putMulDiv s.mulRows s.divRows)).setFlag _ _)
    (inv := fun _ => (h.congr rfl rfl rfl rfl rfl : ReservedZero (s.putInv _)).setFlag _ _)
    (weight := fun _ => (h.congr rfl rfl rfl rfl rfl : ReservedZero (s.putWeight _)).setFlag _ _)
    (dims := fun _ _ => (h.setDim (toNat_setWidth_word_lt _)).setFlag _ _)
    (x := fun _ _ _ => h.congr rfl rfl rfl rfl rfl)
    (y := fun _ _ _ => h.congr rfl rfl rfl rfl rfl)
    (mat := fun _ _ _ => h.congr rfl rfl rfl rfl rfl)
    (canon := fun _ _ _ _ => h.congr rfl rfl rfl rfl rfl)

/-- Settles O47. -/
theorem stepKeepsReservedBitsZero : Obligations.StepKeepsReservedBitsZero := fun _ _ hs h =>
  step_keeps ReservedZero
    (taken := fun _ _ h => h.congr rfl rfl rfl rfl rfl)
    (entered := fun f cmd _ _ h => h.raise f cmd)
    (effect := fun _ _ _ _ h he => h.of_effect he)
    (reset := fun s _ => reservedZero_resetEngine s) hs h

/-! ### R49 to R56: the tables -/

/-- What TablesHold sees of a state beside its flags: POLY, the tables, and the era of their free values. -/
def State.tableView (s : State) :
    Word × Memory 16 × Memory 8 × List (Memory 8) × List (Memory 8) × Memory 8 × Memory 8 × Nat :=
  (s.poly, s.log, s.antilog, s.mul, s.div, s.inv, s.weight, s.tableEra)

theorem TablesHold.of_tableView (h : TablesHold s) (hv : t.tableView = s.tableView)
    (hf : ∀ f, f ≠ .fault → f ≠ .dimRdy → t.flag f = s.flag f) : TablesHold t := by
  simp only [State.tableView, Prod.mk.injEq] at hv
  obtain ⟨hpoly, hlog, hanti, hmul, hdiv, hinv, hweight, hera⟩ := hv
  apply h.congr hf hpoly <;>
    simp [State.logAt, State.antilogAt, State.mulAt, State.divAt, State.invAt, State.weightAt, *]

theorem tablesHold_of_unready (h : ∀ f, s.flag f = false) : TablesHold s where
  order := readyOrder_of_unready h
  field hr := by simp [h] at hr
  mulDiv hr := by simp [h] at hr
  inv hr := by simp [h] at hr
  weight hr := by simp [h] at hr

/-- MUL is determined by LOG and ANTILOG (R51). -/
theorem MulDivTables.mulAt_eq (hs : MulDivTables s) (ht : MulDivTables t) (hlog : ∀ v, t.logAt v = s.logAt v)
    (hanti : ∀ j, t.antilogAt j = s.antilogAt j) (y x : Byte) : t.mulAt y x = s.mulAt y x := by
  by_cases h0 : y = 0 ∨ x = 0
  · rw [ht.mulZero y x h0, hs.mulZero y x h0]
  · obtain ⟨hy, hx⟩ := not_or.1 h0
    rw [ht.mul y x hy hx, hs.mul y x hy hx, hlog, hlog, hanti]

/-- DIV is determined by LOG and ANTILOG (R52). -/
theorem MulDivTables.divAt_eq (hs : MulDivTables s) (ht : MulDivTables t) (hlog : ∀ v, t.logAt v = s.logAt v)
    (hanti : ∀ j, t.antilogAt j = s.antilogAt j) (y x : Byte) : t.divAt y x = s.divAt y x := by
  by_cases h0 : y = 0 ∨ x = 0
  · rw [ht.divZero y x h0, hs.divZero y x h0]
  · obtain ⟨hy, hx⟩ := not_or.1 h0
    rw [ht.div y x hy hx, hs.div y x hy hx, hlog, hlog, hanti]

@[simp] theorem setFlag_weightOf (s : State) (f : Flag) (b : Bool) (v : Byte) :
    (s.setFlag f b).weightOf v = s.weightOf v := weightOf_congr (fun _ _ => rfl) v

@[simp] theorem putInv_weightOf (s : State) (es : List Byte) (v : Byte) :
    (s.putInv es).weightOf v = s.weightOf v := weightOf_congr (fun _ _ => rfl) v

@[simp] theorem putWeight_weightOf (s : State) (es : List Byte) (v : Byte) :
    (s.putWeight es).weightOf v = s.weightOf v := weightOf_congr (fun _ _ => rfl) v

/-- After GFBUILD the field is that of the entry, and no other table is ready (R123). -/
theorem tablesHold_gfbuildState (idx : Imm16) {e : Byte} (htop : (polyOf e).getLsbD 8 = true)
    (hfull : isFullCycle (cycle (polyOf e)) = true) (ho : ReadyOrder (gfbuildState idx e s)) :
    TablesHold (gfbuildState idx e s) where
  order := ho
  field _ := fieldTables_of_entries rfl htop (polyOf_low e) hfull rfl rfl
  mulDiv hr := by simp [gfbuildState] at hr
  inv hr := by simp [gfbuildState] at hr
  weight hr := by simp [gfbuildState] at hr

/-- A rebuild of MUL and DIV under a ready INV or WEIGHT leaves the MUL and DIV these were built from. -/
theorem TablesHold.mdbuild (h : TablesHold s)
    (ht : t = (s.putMulDiv s.mulRows s.divRows).setFlag .mulDivRdy true) (ho : ReadyOrder t) : TablesHold t := by
  subst ht
  have built := mulDivTables_of_rows (s := s) (t := (s.putMulDiv s.mulRows s.divRows).setFlag .mulDivRdy true)
    rfl rfl (fun _ => rfl) (fun _ => rfl)
  refine ⟨ho, fun hr => ?_, fun _ => built, fun hr x hx => ?_, fun hr v => ?_⟩
  · exact (h.field (by simpa using hr)).congr rfl (fun _ => rfl) (fun _ => rfl)
  · have hinv : s.flag .invRdy = true := by simpa using hr
    have before := h.mulDiv (h.order.inv hinv)
    rw [before.divAt_eq built (fun _ => rfl) (fun _ => rfl)]
    exact h.inv hinv x hx
  · have hweight : s.flag .weightRdy = true := by simpa using hr
    have before := h.mulDiv (h.order.weight hweight)
    rw [weightOf_congr (before.mulAt_eq built (fun _ => rfl) (fun _ => rfl))]
    exact h.weight hweight v

theorem TablesHold.invbuild (h : TablesHold s)
    (ht : t = (s.putInv ((List.range' 1 255).map fun x => s.divAt (BitVec.ofNat 8 x) 1)).setFlag .invRdy true)
    (ho : ReadyOrder t) : TablesHold t := by
  subst ht
  refine ⟨ho, fun hr => ?_, fun hr => ?_, fun _ x hx => ?_, fun hr v => ?_⟩
  · exact (h.field (by simpa using hr)).congr rfl (fun _ => rfl) (fun _ => rfl)
  · exact (h.mulDiv (by simpa using hr)).congr (fun _ => rfl) (fun _ => rfl) (fun _ _ => rfl) (fun _ _ => rfl)
  · rw [invAt_of_store rfl hx, ofNat_toNat_byte]
    rfl
  · rw [setFlag_weightOf, putInv_weightOf]
    exact h.weight (by simpa using hr) v

theorem TablesHold.wtbuild (h : TablesHold s)
    (ht : t = (s.putWeight ((List.range 256).map fun v =>
      BitVec.ofNat 8 (s.weightOf (BitVec.ofNat 8 v)))).setFlag .weightRdy true)
    (ho : ReadyOrder t) : TablesHold t := by
  subst ht
  refine ⟨ho, fun hr => ?_, fun hr => ?_, fun hr x hx => ?_, fun _ v => ?_⟩
  · exact (h.field (by simpa using hr)).congr rfl (fun _ => rfl) (fun _ => rfl)
  · exact (h.mulDiv (by simpa using hr)).congr (fun _ => rfl) (fun _ => rfl) (fun _ _ => rfl) (fun _ _ => rfl)
  · exact h.inv (by simpa using hr) x hx
  · have hle := weightOf_le s v
    rw [setFlag_weightOf, putWeight_weightOf, weightAt_of_store rfl v, ofNat_toNat_byte, BitVec.toNat_ofNat]
    omega

theorem TablesHold.of_effect (h : TablesHold s) (he : Effect i s t) : TablesHold t :=
  effect_cases he (fun u => ReadyOrder u → TablesHold u)
    (same := fun _ => h)
    (register := fun _ _ _ => h.of_tableView rfl fun _ _ _ => rfl)
    (field := fun idx _ _ htop hfull ho => tablesHold_gfbuildState idx htop hfull ho)
    (mulDiv := fun _ ho => h.mdbuild rfl ho)
    (inv := fun _ ho => h.invbuild rfl ho)
    (weight := fun _ ho => h.wtbuild rfl ho)
    (dims := fun _ _ _ => h.of_tableView rfl fun _ _ hf => by simp [hf])
    (x := fun _ _ _ _ => h.of_tableView rfl fun _ _ _ => rfl)
    (y := fun _ _ _ _ => h.of_tableView rfl fun _ _ _ => rfl)
    (mat := fun _ _ _ _ => h.of_tableView rfl fun _ _ _ => rfl)
    (canon := fun _ _ _ _ _ => h.of_tableView rfl fun _ _ _ => rfl)
    (h.order.of_effect he)

theorem TablesHold.withPending (h : TablesHold s) (rest : List HostInput) : TablesHold (s.withPending rest) :=
  h.of_tableView rfl fun _ _ _ => rfl

theorem TablesHold.raise (h : TablesHold s) (f : EngineFault) (cmd : Word) : TablesHold (raise f cmd s) :=
  h.of_tableView rfl fun _ hf _ => by simp [hf]

/-- Settles O49: a build command leaves its table in order, and whatever changes a table that others were built
from clears their flags, or is a rebuild that leaves it as it was. -/
theorem stepKeepsTablesHold : Obligations.StepKeepsTablesHold := fun _ _ hs h =>
  step_keeps TablesHold
    (taken := fun _ rest h => h.withPending rest)
    (entered := fun f cmd _ _ h => h.raise f cmd)
    (effect := fun _ _ _ _ h he => h.of_effect he)
    (reset := fun s _ => tablesHold_of_unready (resetEngine_flag s)) hs h

/-! ### R39, R40, R65: the polynomial and the catalog -/

/-- What PolyFromCatalog sees of a state beside FIELD_RDY. -/
def State.polyView (s : State) : Word × Word × List Byte := (s.polysel, s.poly, s.catalog)

theorem PolyFromCatalog.of_polyView (h : PolyFromCatalog s) (hv : t.polyView = s.polyView)
    (hf : t.flag .fieldRdy = s.flag .fieldRdy) : PolyFromCatalog t := by
  simp only [State.polyView, Prod.mk.injEq] at hv
  obtain ⟨hpolysel, hpoly, hcatalog⟩ := hv
  obtain ⟨ready, unready⟩ := h
  constructor <;> simpa only [hf, hpolysel, hpoly, hcatalog]

theorem polyFromCatalog_of_zero (hf : s.flag .fieldRdy = false) (hpoly : s.poly = 0) (hpolysel : s.polysel = 0) :
    PolyFromCatalog s :=
  ⟨fun hr => by simp [hf] at hr, fun _ => ⟨hpoly, hpolysel⟩⟩

/-- The polynomial of an entry as POLY holds it (R40, R120). -/
theorem polyOf_setWidth (e : Byte) : (polyOf e).setWidth 32 = (e.setWidth 32 <<< 1) ||| 1 := by
  apply BitVec.eq_of_toNat_eq
  have he := e.isLt
  have h9 : e.toNat * 2 % 512 % 4294967296 = e.toNat * 2 := by omega
  have h32 : e.toNat * 2 % 4294967296 = e.toNat * 2 := by omega
  simp [polyOf, Nat.shiftLeft_eq, h9, h32]

/-- An index below 256 is its own low 8 bits, so POLYSEL names the entry GFBUILD took (log entry 4). -/
theorem polyFromCatalog_gfbuildState {idx : Imm16} {e : Byte} (hlen : s.catalog.length ≤ 256)
    (hentry : s.catalog[idx.toNat]? = some e) : PolyFromCatalog (gfbuildState idx e s) where
  ready _ := by
    have hlt : idx.toNat < 256 := (List.getElem?_eq_some_iff.1 hentry).1.trans_le hlen
    have hsel : ((idx.setWidth 8).setWidth 32).toNat = idx.toNat := by
      simp only [BitVec.toNat_setWidth]
      omega
    exact ⟨e, by simpa [gfbuildState, hsel] using hentry, polyOf_setWidth e⟩
  unready hr := by simp [gfbuildState] at hr

theorem PolyFromCatalog.of_effect (h : PolyFromCatalog s) (hlen : s.catalog.length ≤ 256) (he : Effect i s t) :
    PolyFromCatalog t :=
  effect_cases he PolyFromCatalog
    (same := h)
    (register := fun _ _ => h.of_polyView rfl rfl)
    (field := fun _ _ hentry _ _ => polyFromCatalog_gfbuildState hlen hentry)
    (mulDiv := fun _ => h.of_polyView rfl (by simp))
    (inv := fun _ => h.of_polyView rfl (by simp))
    (weight := fun _ => h.of_polyView rfl (by simp))
    (dims := fun _ _ => h.of_polyView rfl (by simp))
    (x := fun _ _ _ => h.of_polyView rfl rfl)
    (y := fun _ _ _ => h.of_polyView rfl rfl)
    (mat := fun _ _ _ => h.of_polyView rfl rfl)
    (canon := fun _ _ _ _ => h.of_polyView rfl rfl)

/-- R65: no command writes the catalog. -/
theorem effect_catalog (he : Effect i s t) : t.catalog = s.catalog :=
  effect_cases he (fun u => u.catalog = s.catalog)
    (same := rfl) (register := fun _ _ => rfl) (field := fun _ _ _ _ _ => rfl) (mulDiv := fun _ => rfl)
    (inv := fun _ => rfl) (weight := fun _ => rfl) (dims := fun _ _ => rfl) (x := fun _ _ _ => rfl)
    (y := fun _ _ _ => rfl) (mat := fun _ _ _ => rfl) (canon := fun _ _ _ _ => rfl)

/-- Settles O50. -/
theorem stepKeepsPolyFromCatalog : Obligations.StepKeepsPolyFromCatalog := fun s _ hlen hs h =>
  step_keeps (fun u => PolyFromCatalog u ∧ u.catalog = s.catalog)
    (taken := fun _ _ ⟨hp, hc⟩ => ⟨hp.of_polyView rfl rfl, hc⟩)
    (entered := fun _ _ _ _ ⟨hp, hc⟩ => ⟨hp.of_polyView rfl (by simp), hc⟩)
    (effect := fun _ _ _ _ ⟨hp, hc⟩ he => ⟨hp.of_effect (hc ▸ hlen) he, (effect_catalog he).trans hc⟩)
    (reset := fun u ⟨_, hc⟩ => ⟨polyFromCatalog_of_zero (resetEngine_flag u _) rfl rfl, hc⟩) ⟨hs, rfl⟩ h

/-! ### R41, R217: SCORE -/

/-- The pivot chosen is one of the candidates. -/
theorem bestPivot_mem {best : Option Pivot} {cs : List Pivot} {b : Pivot} (h : bestPivot best cs = some b) :
    best = some b ∨ b ∈ cs := by
  induction cs generalizing best with
  | nil => cases best <;> exact .inl h
  | cons c cs ih =>
    match best, h with
    | none, h =>
      rcases ih h with hc | hm
      · exact .inr (by simp [Option.some.inj hc])
      · exact .inr (List.mem_cons_of_mem c hm)
    | some a, h =>
      rcases ih h with hc | hm
      · by_cases hlt : c.total < a.total
        · rw [if_pos hlt] at hc
          exact .inr (by simp [Option.some.inj hc])
        · rw [if_neg hlt] at hc
          exact .inl hc
      · exact .inr (List.mem_cons_of_mem c hm)

section Weights
variable (hw : ∀ v, (s.weightAt v).toNat ≤ 64)
include hw

theorem rowWeight_le (row : List Byte) : s.rowWeight row ≤ row.length * 64 := by
  have h := List.sum_le_card_nsmul (row.map fun v => (s.weightAt v).toNat) 64 (by simp [hw])
  simpa [State.rowWeight] using h

/-- The total of a row's pivot: 64 for each cell at most. -/
theorem canonRow_total_le (row : List Byte) : (s.canonRow row).2 ≤ row.length * 64 := by
  unfold State.canonRow
  split
  · exact Nat.zero_le _
  · rename_i b hb
    rcases bestPivot_mem hb with hn | hm
    · simp at hn
    · obtain ⟨p, -, rfl⟩ := List.mem_map.1 hm
      simpa [State.scaleRow] using rowWeight_le hw (s.scaleRow p row)

/-- The sum of the totals CMCANON leaves in SCORE: 64 for each cell of rows `1..M-1` at most (R217). -/
theorem canonRows_total_le : ((canonRows s).map fun r => r.2).sum ≤ (s.m - 1) * (s.k * 64) := by
  have h := List.sum_le_card_nsmul ((canonRows s).map fun r => r.2) (s.k * 64) (by
    intro n hn
    simp only [canonRows, State.lowerRows, List.map_map, List.mem_map] at hn
    obtain ⟨y, -, rfl⟩ := hn
    simpa [State.matRow] using canonRow_total_le hw (s.matRow y))
  simpa [canonRows, State.lowerRows] using h

theorem canonState_score_le (hmat : s.m * s.k ≤ Config.matLen) : (canonState s).score.toNat ≤ 2 ^ 20 := by
  have cells : (s.m - 1) * s.k ≤ Config.matLen := (Nat.mul_le_mul_right _ (Nat.sub_le _ _)).trans hmat
  calc (canonState s).score.toNat
      ≤ ((canonRows s).map fun r => r.2).sum := (BitVec.toNat_ofNat _ _).trans_le (Nat.mod_le _ _)
    _ ≤ (s.m - 1) * (s.k * 64) := canonRows_total_le hw
    _ = (s.m - 1) * s.k * 64 := (Nat.mul_assoc _ _ _).symm
    _ ≤ Config.matLen * 64 := Nat.mul_le_mul_right _ cells
    _ ≤ 2 ^ 20 := by decide

end Weights

/-- A ready WEIGHT holds weights, at most 64 each (R54). -/
theorem TablesHold.weightAt_le (h : TablesHold s) (hr : s.flag .weightRdy = true) (v : Byte) :
    (s.weightAt v).toNat ≤ 64 := (h.weight hr v).trans_le (weightOf_le s v)

/-- CMCANON alone writes SCORE. -/
theorem score_le_of_effect (h : TablesHold s) (hs : s.score.toNat ≤ 2 ^ 20) (he : Effect i s t) :
    t.score.toNat ≤ 2 ^ 20 :=
  effect_cases he (fun u => u.score.toNat ≤ 2 ^ 20)
    (same := hs) (register := fun _ _ => hs) (field := fun _ _ _ _ _ => hs) (mulDiv := fun _ => hs)
    (inv := fun _ => hs) (weight := fun _ => hs) (dims := fun _ _ => hs) (x := fun _ _ _ => hs)
    (y := fun _ _ _ => hs) (mat := fun _ _ _ => hs)
    (canon := fun _ hweight _ hmat => canonState_score_le (h.weightAt_le hweight) hmat)

/-- Settles O51: the tables hold along with the bound, by O49. -/
theorem stepKeepsScoreBounded : Obligations.StepKeepsScoreBounded := fun _ _ htables hscore h =>
  (step_keeps (fun u => TablesHold u ∧ u.score.toNat ≤ 2 ^ 20)
    (taken := fun _ rest ⟨ht, hs⟩ => ⟨ht.withPending rest, hs⟩)
    (entered := fun f cmd _ _ ⟨ht, hs⟩ => ⟨ht.raise f cmd, hs⟩)
    (effect := fun _ _ _ _ ⟨ht, hs⟩ he => ⟨ht.of_effect he, score_le_of_effect ht hs he⟩)
    (reset := fun u _ => ⟨tablesHold_of_unready (resetEngine_flag u), Nat.zero_le _⟩) ⟨htables, hscore⟩ h).2

end Sys2Proof.Machine
end

section
/-! A word the decoder accepts is the word of its command (R100), format by format; so fault entry by a command's
re-encoding records the word presented (R43). -/

namespace Sys2Proof

section Formats
variable {w : Word} {op : BitVec 8} {j : Instr}

theorem opField_eq_of_toNat {n : Nat} (h : (opField w).toNat = n) : opField w = BitVec.ofNat 8 n := by
  rw [← h, BitVec.ofNat_toNat, BitVec.setWidth_eq]

theorem encode_of_asZ {i : Instr} (h : asZ w i = .ok j) (hop : opField w = op) (he : encode i = packZ op) :
    encode j = w := by
  obtain ⟨hz, rfl⟩ := ifUnusedZero_ok.1 h
  rw [he, ← hop, packZ_fields (by simpa using hz)]

theorem encode_of_asRdImm {f : Reg → Imm16 → Instr} (h : asRdImm w f = .ok j) (hop : opField w = op)
    (he : ∀ rd imm, encode (f rd imm) = packI op rd imm) : encode j = w := by
  obtain ⟨hz, rfl⟩ := ifUnusedZero_ok.1 h
  rw [he, ← hop, packI_fields (by simpa using hz)]

theorem encode_of_asImm {f : Imm16 → Instr} (h : asImm w f = .ok j) (hop : opField w = op)
    (he : ∀ imm, encode (f imm) = packI op 0 imm) : encode j = w := by
  obtain ⟨hz, rfl⟩ := ifUnusedZero_ok.1 h
  simp only [Bool.and_eq_true, beq_iff_eq] at hz
  obtain ⟨hra, hrd⟩ := hz
  rw [he, ← hop, ← hrd, packI_fields hra]

theorem encode_of_asRdRa {f : Reg → Reg → Instr} (h : asRdRa w f = .ok j) (hop : opField w = op)
    (he : ∀ rd ra, encode (f rd ra) = packR op rd ra 0 0) : encode j = w := by
  obtain ⟨hz, rfl⟩ := ifUnusedZero_ok.1 h
  simp only [Bool.and_eq_true, beq_iff_eq] at hz
  obtain ⟨⟨hlow, hrb⟩, hrc⟩ := hz
  have hw := packR_fields hlow
  rwa [hop, hrb, hrc, ← he] at hw

theorem encode_of_asRdRaRb {f : Reg → Reg → Reg → Instr} (h : asRdRaRb w f = .ok j) (hop : opField w = op)
    (he : ∀ rd ra rb, encode (f rd ra rb) = packR op rd ra rb 0) : encode j = w := by
  obtain ⟨hz, rfl⟩ := ifUnusedZero_ok.1 h
  simp only [Bool.and_eq_true, beq_iff_eq] at hz
  obtain ⟨hlow, hrc⟩ := hz
  have hw := packR_fields hlow
  rwa [hop, hrc, ← he] at hw

theorem encode_of_asRaRb {f : Reg → Reg → Instr} (h : asRaRb w f = .ok j) (hop : opField w = op)
    (he : ∀ ra rb, encode (f ra rb) = packR op 0 ra rb 0) : encode j = w := by
  obtain ⟨hz, rfl⟩ := ifUnusedZero_ok.1 h
  simp only [Bool.and_eq_true, beq_iff_eq] at hz
  obtain ⟨⟨hlow, hrd⟩, hrc⟩ := hz
  have hw := packR_fields hlow
  rwa [hop, hrd, hrc, ← he] at hw

theorem encode_of_asRaRbRc {f : Reg → Reg → Reg → Instr} (h : asRaRbRc w f = .ok j) (hop : opField w = op)
    (he : ∀ ra rb rc, encode (f ra rb rc) = packR op 0 ra rb rc) : encode j = w := by
  obtain ⟨hz, rfl⟩ := ifUnusedZero_ok.1 h
  simp only [Bool.and_eq_true, beq_iff_eq] at hz
  obtain ⟨hlow, hrd⟩ := hz
  have hw := packR_fields hlow
  rwa [hop, hrd, ← he] at hw

end Formats

/-- The check of the CSR number passes the command on unchanged. -/
theorem bind_checkCsr_ok {r : Except Illegal Instr} {j : Instr} (h : r.bind checkCsr = .ok j) : r = .ok j := by
  match r, h with
  | .ok i, h =>
    obtain ⟨-, rfl⟩ := checkCsr_ok.1 h
    rfl

/-- By the row of the opcode map R95 that the word's opcode names. -/
theorem encode_of_decode {w : Word} {i : Instr} (h : decode w = .ok i) : encode i = w := by
  unfold decode at h
  split at h
  all_goals rename_i hop
  case h_31 => simp at h
  all_goals have hop := opField_eq_of_toNat hop
  case h_1 | h_6 | h_7 | h_8 | h_28 | h_29 => exact encode_of_asZ h hop rfl
  case h_2 => exact encode_of_asRdImm h hop fun _ _ => rfl
  case h_4 => exact encode_of_asRdImm (bind_checkCsr_ok h) hop fun _ _ => rfl
  case h_5 | h_21 => exact encode_of_asImm h hop fun _ => rfl
  case h_3 | h_10 | h_11 | h_12 | h_15 | h_18 | h_19 | h_20 | h_22 | h_24 | h_30 =>
    exact encode_of_asRdRa h hop fun _ _ => rfl
  case h_9 | h_13 | h_14 | h_16 | h_17 | h_26 => exact encode_of_asRdRaRb h hop fun _ _ _ => rfl
  case h_23 | h_25 => exact encode_of_asRaRb h hop fun _ _ => rfl
  case h_27 => exact encode_of_asRaRbRc h hop fun _ _ _ => rfl

end Sys2Proof
end

section
/-! What presenting one word can do, that it always answers, and a run as the presenting of its words in order
(R35, R276, R308). -/

namespace Sys2Proof.Machine

open Sys2Proof.Claims

/-! ### A command with legal dimensions answers a next state (R277) -/

theorem finish_eq_fault {cmd : Word} {s : State} {r : Except Stop State} {f : Fault}
    (h : finish cmd s r = .fault f) : r = .error (.model f) := by
  match r, h with
  | .error (.model g), h => rw [Host.Outcome.fault.inj h]

/-- The model's own stop is an access to MAT beyond its end, which legal dimensions exclude (R61). -/
theorem exec_ne_fault {s : State} (hd : DimsLegal s) (i : Instr) (f : Fault) : exec i s ≠ .fault f := by
  intro h
  cases i
  case nop | li | mov => cases h
  all_goals
    replace h := finish_eq_fault h
    simp only [except_bind_error_iff, except_pure_eq, check_error_iff, needReady, upTo_error_iff, fv_error_iff,
      rowCol_error_iff, needElements_error_iff, check_ok', rowCol_ok_iff, Bool.and_eq_true, reduceCtorEq, and_false,
      and_true, or_false, false_or, exists_false] at h
  case rdcsr => split at h <;> cases h
  case gfbuild =>
    split at h
    · cases h
    · simp [except_bind_error_iff, check_error_iff] at h
  case ldm =>
    obtain ⟨_, hr, p, ⟨hrow, hcol, rfl⟩, hlt⟩ := h
    exact absurd (matIndex_lt hd hr hrow hcol) (Nat.not_le.2 hlt)
  case stm =>
    obtain ⟨_, hr, p, ⟨hrow, hcol, rfl⟩, _, _, hlt⟩ := h
    exact absurd (matIndex_lt hd hr hrow hcol) (Nat.not_le.2 hlt)
  case cmraw =>
    obtain ⟨_, ⟨-, hr⟩, _, -, hlt⟩ := h
    exact absurd (matBytes_le hd hr) (Nat.not_le.2 hlt)
  case cmcanon =>
    obtain ⟨_, ⟨-, hr⟩, hlt⟩ := h
    exact absurd (matBytes_le hd hr) (Nat.not_le.2 hlt)
  case cmones =>
    obtain ⟨_, ⟨-, hr⟩, _, -, hlt⟩ := h
    exact absurd (matBytes_le hd hr) (Nat.not_le.2 hlt)

/-- Whatever command, with legal dimensions it answers a next state. -/
theorem exec_answers {s : State} (hd : DimsLegal s) (i : Instr) : ∃ t, exec i s = .next t := by
  match h : exec i s with
  | .next t => exact ⟨t, rfl⟩
  | .fault f => exact absurd h (exec_ne_fault hd i f)
  | .refused q =>
    obtain ⟨r, hr⟩ := exec_eq_finish i s
    exact absurd (hr ▸ h) (finish_ne_refused _ s r q)

theorem present_answers {s : State} (hd : DimsLegal s) (w : Word) : ∃ t, present w s = .next t := by
  by_cases hf : s.flag .fault = true
  · exact ⟨s, present_of_faulted w hf⟩
  · have hf : s.flag .fault = false := by simpa using hf
    match h : decode w with
    | .error _ => exact ⟨_, present_of_illegal hf h⟩
    | .ok i =>
      rw [present_of_decode hf h]
      exact exec_answers hd i

/-! ### What presenting a word to a running engine does -/

/-- A running engine enters a fault with FCMD the word, decodable or not, or the decoded command has its effect. -/
theorem present_next {s t : State} {w : Word} (hf : s.flag .fault = false) (h : present w s = .next t) :
    (∃ f, t = raise f w s) ∨ ∃ i, Effect i s t := by
  match hw : decode w with
  | .error _ =>
    rw [present_of_illegal hf hw] at h
    exact .inl ⟨_, (Host.Outcome.next.inj h).symm⟩
  | .ok i =>
    rw [present_of_decode hf hw] at h
    rcases exec_next h with ⟨f, rfl⟩ | he
    · exact .inl ⟨f, by rw [encode_of_decode hw]⟩
    · exact .inr ⟨i, he⟩

/-- A word that records a fault is in FCMD. -/
theorem fcmd_of_present {s t : State} {w : Word} (hs : s.flag .fault = false) (ht : t.flag .fault = true)
    (h : present w s = .next t) : t.fcmd = w := by
  rcases present_next hs h with ⟨f, rfl⟩ | ⟨i, he⟩
  · rfl
  · rw [effect_fault he, hs] at ht
    cases ht

theorem dimsLegal_of_present {s t : State} {w : Word} (hd : DimsLegal s) (hs : s.flag .fault = false)
    (h : present w s = .next t) : DimsLegal t := by
  rcases present_next hs h with ⟨f, rfl⟩ | ⟨i, he⟩
  · exact hd.raise f w
  · exact hd.of_effect he

/-! ### A run -/

/-- R276: a faulted engine refuses every word of a run. -/
theorem runProgram_of_faulted {s : State} (hf : s.flag .fault = true) (words : List Word) (idx : Nat) :
    runProgram words idx s = .next (s, idx + words.length) := by
  induction words generalizing idx with
  | nil => rfl
  | cons w ws ih =>
    have quiet : recordsFault s s = false := by simp [recordsFault]
    rw [runProgram_cons_of_next (present_of_faulted w hf), quiet, if_neg Bool.false_ne_true, ih, List.length_cons]
    congr 2
    omega

theorem flag_fault_of_leavesRunning {ws : List Word} {s t : State} (h : leavesRunning ws s t) :
    t.flag .fault = false := by
  induction ws generalizing s with
  | nil =>
    obtain ⟨hf, rfl⟩ := h
    exact hf
  | cons w ws ih =>
    obtain ⟨-, u, -, hu⟩ := h
    exact ih hu

/-- The run of `words` from `s` records a fault at position `n` and ends in `t`: the words before it leave a running
engine, and the word there takes that to `t`, which is faulted. -/
def FaultsAt (words : List Word) (s : State) (n : Nat) (t : State) : Prop :=
  ∃ w u, words[n]? = some w ∧ leavesRunning (words.take n) s u ∧ present w u = .next t ∧ t.flag .fault = true

theorem faultsAt_zero {w : Word} {ws : List Word} {s t : State} (hs : s.flag .fault = false)
    (h : present w s = .next t) (ht : t.flag .fault = true) : FaultsAt (w :: ws) s 0 t :=
  ⟨w, s, rfl, ⟨hs, rfl⟩, h, ht⟩

theorem FaultsAt.cons {w : Word} {ws : List Word} {s u t : State} {n : Nat} (hs : s.flag .fault = false)
    (h : present w s = .next u) (hu : FaultsAt ws u n t) : FaultsAt (w :: ws) s (n + 1) t := by
  obtain ⟨v, x, hv, hx, hp, ht⟩ := hu
  exact ⟨v, x, hv, ⟨hs, u, h, hx⟩, hp, ht⟩

/-- From a running engine with legal dimensions a run leaves the engine running after all its words, or ends at the
first word that records a fault. -/
theorem runProgram_of_running {s : State} (hd : DimsLegal s) (hs : s.flag .fault = false) (words : List Word)
    (idx : Nat) :
    (∃ t, runProgram words idx s = .next (t, idx + words.length) ∧ leavesRunning words s t) ∨
      ∃ t n, runProgram words idx s = .next (t, idx + n) ∧ FaultsAt words s n t := by
  induction words generalizing s idx with
  | nil => exact .inl ⟨s, rfl, hs, rfl⟩
  | cons w ws ih =>
    obtain ⟨u, hu⟩ := present_answers hd w
    rw [runProgram_cons_of_next hu]
    by_cases hfu : u.flag .fault = true
    · rw [if_pos (recordsFault_eq_true.2 ⟨hs, hfu⟩)]
      exact .inr ⟨u, 0, rfl, faultsAt_zero hs hu hfu⟩
    · rw [if_neg fun h => hfu (recordsFault_eq_true.1 h).2]
      have shift : ∀ n, idx + 1 + n = idx + (n + 1) := fun n => by omega
      have hu_running : u.flag .fault = false := by simpa using hfu
      rcases ih (dimsLegal_of_present hd hs hu) hu_running (idx + 1) with ⟨t, hrun, ht⟩ | ⟨t, n, hrun, ht⟩
      · exact .inl ⟨t, by rw [hrun, shift, List.length_cons], hs, u, hu, ht⟩
      · exact .inr ⟨t, n + 1, by rw [hrun, shift], ht.cons hs hu⟩

/-- Settles O11: the three ends of a run, from a faulted engine, with no fault recorded, and at the first fault. -/
theorem runEndsAtTheFirstFault : Obligations.RunEndsAtTheFirstFault := by
  intro words s hd
  by_cases hs : s.flag .fault = true
  · refine ⟨s, words.length, by simpa using runProgram_of_faulted hs words 0, fun _ => ⟨rfl, rfl⟩, ?_, ?_⟩ <;>
      simp [hs]
  · have hs : s.flag .fault = false := by simpa using hs
    rcases runProgram_of_running hd hs words 0 with ⟨t, hrun, ht⟩ | ⟨t, n, hrun, w, u, hw, hu, hp, hft⟩
    · refine ⟨t, words.length, by simpa using hrun, by simp [hs], fun _ _ => ⟨rfl, ht⟩, fun _ hft => ?_⟩
      simp [flag_fault_of_leavesRunning ht] at hft
    · refine ⟨t, n, by simpa using hrun, by simp [hs], by simp [hft], fun _ _ => ⟨w, u, hw, hu, hp, ?_⟩⟩
      exact fcmd_of_present (flag_fault_of_leavesRunning hu) hft hp

end Sys2Proof.Machine
end

section
/-! Single operations: a step that takes a command or a reset, the machine just reset, and the commands RDCSR,
SETDIM, LDM and STM. -/

namespace Sys2Proof.Machine

open Sys2Proof.Claims

/-! ### A step -/

theorem step_of_command {s : State} {w : Word} {rest : List HostInput} (h : s.pending = .command w :: rest) :
    step s = present w (s.withPending rest) := by
  simp only [step, h, State.accept]

theorem step_of_reset {s : State} {rest : List HostInput} (h : s.pending = .reset :: rest) :
    step s = .next (s.withPending rest).resetEngine := by
  simp only [step, h, State.accept]

/-- Settles O5: the word taken, a running engine executes what it decodes to. -/
theorem stepExecutesTheDecodedCommand : Obligations.StepExecutesTheDecodedCommand := by
  intro s w rest i hp hf hd
  rw [step_of_command hp]
  exact present_of_decode hf hd

/-! ### Reset -/

theorem resetEngine_reg (s : State) (r : Reg) : s.resetEngine.reg r = 0 := reset_reg r

theorem reset_csr {n : Nat} (hn : n ≤ 6) : State.reset.csr n = some 0 := by
  interval_cases n <;> rfl

theorem resetEngine_csr (s : State) {n : Nat} (hn : n ≤ 6) : s.resetEngine.csr n = some 0 := by
  interval_cases n <;> rfl

/-- Settles O8: nothing is listed as written in any space, so each read answers the free value of the new era. -/
theorem resetMakesStorageUnspecifiedAndTheRestZero :
    Obligations.ResetMakesStorageUnspecifiedAndTheRestZero := by
  intro s rest hp
  refine ⟨(s.withPending rest).resetEngine, step_of_reset hp, resetEngine_reg _, fun n hn => resetEngine_csr _ hn,
    resetEngine_flag _, rfl, rfl, ?_⟩
  exact ⟨fun _ _ => rfl, fun _ _ => rfl, fun _ _ => rfl, fun _ => rfl, fun _ _ => rfl, fun _ _ => rfl,
    fun _ _ => rfl, fun _ => rfl, fun _ => rfl, rfl, rfl⟩

theorem storageWf_reset : StorageWf State.reset := by
  constructor <;> simp [State.reset, Memory.wf]

/-- Settles O10: with every flag 0 the invariants on what is ready ask nothing, and the others are of zeros. -/
theorem resetStateIsZeroAndMeetsTheInvariants : Obligations.ResetStateIsZeroAndMeetsTheInvariants :=
  ⟨reset_reg, fun _ hn => reset_csr hn, readyOrder_of_unready reset_flag, faultRecord_reset,
    dimsLegal_of_unready (reset_flag .dimRdy), reservedZero_reset, storageWf_reset,
    tablesHold_of_unready reset_flag, polyFromCatalog_of_zero (reset_flag _) rfl rfl, by decide, Nat.zero_le _⟩

/-! ### RDCSR (R233) -/

theorem exec_rdcsr (rd : Reg) (csr : Imm16) (s : State) : exec (.rdcsr rd csr) s =
    (s.csr csr.toNat).elim (.next (raise .illegalCmd (encode (.rdcsr rd csr)) s)) fun v =>
      .next (s.setReg rd v) := by
  simp only [exec, execRdcsr]
  cases s.csr csr.toNat <;> rfl

/-- Settles O20: by the seven numbers of R37, and there being no other. -/
theorem rdcsrReadsTheNumberedRegister : Obligations.RdcsrReadsTheNumberedRegister := by
  intro s rd
  refine ⟨exec_rdcsr rd 0 s, exec_rdcsr rd 1 s, exec_rdcsr rd 2 s, exec_rdcsr rd 3 s, exec_rdcsr rd 4 s,
    exec_rdcsr rd 5 s, exec_rdcsr rd 6 s, fun csr hcsr => ?_⟩
  rw [exec_rdcsr, csr_reserved s hcsr, Option.elim_none]

/-! ### SETDIM (R186) -/

/-- The state SETDIM leaves from a legal pair. -/
def setdimState (imm : Imm16) (s : State) : State := (s.setDim (imm.setWidth 32)).setFlag .dimRdy true

theorem exec_setdim (imm : Imm16) (s : State) : exec (.setdim imm) s =
    if legalDims (imm.toNat % 256) (imm.toNat / 256) then .next (setdimState imm s)
    else .next (raise .cfgDim (encode (.setdim imm)) s) := by
  simp only [exec, execSetdim, immK_toNat, immM_toNat, immM_append_immK]
  cases legalDims (imm.toNat % 256) (imm.toNat / 256) <;> rfl

theorem sameCsrsBut_setdimState (imm : Imm16) (s : State) : SameCsrsBut [0, 3] s (setdimState imm s) :=
  sameCsrsBut_of (by simp) (fun _ => rfl) (fun _ => rfl) (by simp) (fun _ => rfl) (fun _ => rfl) (fun _ => rfl)

theorem sameElementsBut_setdimState (imm : Imm16) (s : State) (P : Config.Space → Nat → Prop) :
    SameElementsBut P s (setdimState imm s) := fun sp _ _ _ => by cases sp <;> rfl

/-- Settles O32. -/
theorem setdimSetsLegalDimensions : Obligations.SetdimSetsLegalDimensions := by
  intro s k m imm hk hm
  subst hk hm
  rw [exec_setdim]
  refine ⟨fun hk hm hkm => ?_, fun hillegal => if_neg fun h => hillegal (legalDims_eq_true.1 h)⟩
  exact ⟨setdimState imm s, if_pos (legalDims_eq_true.2 ⟨hk, hm, hkm⟩), rfl, k_setDim s imm, m_setDim s imm,
    by simp [setdimState], fun b hb => setFlag_status_bit _ .dimRdy true b hb, sameRegsBut_of_regs rfl none,
    sameCsrsBut_setdimState imm s, sameElementsBut_setdimState imm s _, ⟨rfl, rfl, rfl, rfl⟩⟩

/-! ### LDM and STM (R191, R192) -/

section Matrix
variable {s : State} {ra rb : Reg} (hd : DimsLegal s) (hr : s.flag .dimRdy = true) (hrow : (s.reg ra).toNat < s.m)
  (hcol : (s.reg rb).toNat < s.k)
include hd hr hrow hcol

theorem exec_ldm (rd : Reg) : exec (.ldm rd ra rb) s =
    .next (s.setReg rd ((s.matAt (s.matIndex (s.reg ra).toNat (s.reg rb).toNat)).setWidth 32)) := by
  simp only [exec, execLdm, hr, needReady_true, rowCol_ok hrow hcol, needElements_ok (matIndex_lt hd hr hrow hcol),
    except_bind_ok, except_pure_eq, finish_ok]

theorem exec_stm {rc : Reg} (hv : (s.reg rc).toNat ≤ 255) : exec (.stm ra rb rc) s =
    .next (s.storeMat (s.matIndex (s.reg ra).toNat (s.reg rb).toNat) [byteOf s rc]) := by
  simp only [exec, execStm, hr, needReady_true, rowCol_ok hrow hcol, fv_ok hv,
    needElements_ok (matIndex_lt hd hr hrow hcol), except_bind_ok, except_pure_eq, finish_ok, byteOf]

end Matrix

/-- MAT after a write of one element (R79). -/
theorem matAt_storeMat_one (s : State) (j i : Nat) (v : Byte) :
    (s.storeMat j [v]).matAt i = if i = j then v else s.matAt i := by
  simp only [State.matAt, storeMat_mat, storeMat_resets, read?_store_one]
  split <;> rfl

theorem sameElementsBut_storeMat_one (s : State) (i : Nat) (v : Byte) :
    SameElementsBut (fun sp j => sp = .mat ∧ j = i) s (s.storeMat i [v]) :=
  sameElementsBut_of (fun _ _ _ => rfl) (fun _ _ _ => rfl)
    (fun j _ hj => by rw [matAt_storeMat_one, if_neg fun h => hj ⟨rfl, h⟩])
    (fun _ => rfl) (fun _ => rfl) (fun _ _ => rfl) (fun _ _ => rfl) (fun _ => rfl) (fun _ => rfl)

/-- Settles O35. -/
theorem ldmReadsTheRowMajorElement : Obligations.LdmReadsTheRowMajorElement :=
  fun _ rd _ _ hd hr hrow hcol => exec_ldm hd hr hrow hcol rd

/-- Settles O36. -/
theorem stmWritesTheRowMajorElement : Obligations.StmWritesTheRowMajorElement := by
  intro s ra rb rc i hd hr hrow hcol hv hi
  subst hi
  exact ⟨_, exec_stm hd hr hrow hcol hv, by rw [State.matIndex, matAt_storeMat_one, if_pos rfl],
    sameElementsBut_storeMat_one s _ _, sameRegsBut_of_regs rfl none, fun _ _ => rfl, ⟨rfl, rfl, rfl, rfl⟩⟩

end Sys2Proof.Machine
end

section
/-! R70, R78: the storage spaces in canonical form.  One rule for each write to storage, each by `wf_store`: what is
left to show is that the write ends inside its space. -/

namespace Sys2Proof.Machine

variable {i : Instr} {s t : State}

/-- What StorageWf sees of a state: the nine spaces. -/
def State.storageView (s : State) :
    Memory 16 × Memory 8 × List (Memory 8) × List (Memory 8) × Memory 8 × Memory 8 × Memory 8 × Memory 8 ×
      Memory 8 :=
  (s.log, s.antilog, s.mul, s.div, s.inv, s.weight, s.x, s.y, s.mat)

theorem StorageWf.of_storageView (h : StorageWf s) (hv : t.storageView = s.storageView) : StorageWf t := by
  simp only [State.storageView, Prod.mk.injEq] at hv
  obtain ⟨hlog, hanti, hmul, hdiv, hinv, hweight, hx, hy, hmat⟩ := hv
  obtain ⟨log, anti, mulRows, mul, divRows, div, inv, weight, x, y, mat⟩ := h
  constructor <;> simpa only [hlog, hanti, hmul, hdiv, hinv, hweight, hx, hy, hmat]

/-! ### The writes -/

theorem StorageWf.setX (h : StorageWf s) {j : Nat} (hj : j ≤ 255) (v : Byte) : StorageWf (s.setX j v) :=
  { h with x := wf_store j [v] h.x (Nat.succ_le_succ hj) }

theorem StorageWf.setY (h : StorageWf s) {j : Nat} (hj : j ≤ 255) (v : Byte) : StorageWf (s.setY j v) :=
  { h with y := wf_store j [v] h.y (Nat.succ_le_succ hj) }

theorem StorageWf.storeMat (h : StorageWf s) {j : Nat} {vs : List Byte} (hj : j + vs.length ≤ Config.matLen) :
    StorageWf (s.storeMat j vs) :=
  { h with mat := wf_store j vs h.mat hj }

theorem StorageWf.putInv (h : StorageWf s) {es : List Byte} (hes : es.length ≤ 255) : StorageWf (s.putInv es) :=
  { h with inv := wf_store 1 es h.inv (by omega) }

theorem StorageWf.putWeight (h : StorageWf s) {es : List Byte} (hes : es.length ≤ 256) :
    StorageWf (s.putWeight es) :=
  { h with weight := wf_store 0 es h.weight (by omega) }

theorem StorageWf.putField (h : StorageWf s) {lg : List (BitVec 16)} {al : List Byte} (hlg : lg.length ≤ 256)
    (hal : al.length ≤ Config.antilogLen) (ps p : Word) : StorageWf (s.putField lg al ps p) :=
  { h with
    log := wf_store 0 lg h.log (by omega)
    antilog := wf_store 0 al h.antilog (by omega) }

/-- GFBUILD fills LOG and ANTILOG to their last element (R123). -/
theorem StorageWf.gfbuildState (h : StorageWf s) (idx : Imm16) (e : Byte) : StorageWf (gfbuildState idx e s) :=
  have hlog := (logEntries_length (cycle (polyOf e))).le
  have hanti := (antilogEntries_length _ (cycle_length (polyOf e))).le
  (h.putField hlog hanti ((idx.setWidth 8).setWidth 32) ((polyOf e).setWidth 32)).of_storageView rfl

/-- A row has the 256 entries of its space and no more. -/
theorem wf_tableRow (f : Nat → Byte) : Memory.wf 256 (tableRow f) = true :=
  wf_store 0 _ rfl (by simp)

theorem wf_of_mem_map_tableRow {f : Nat → Nat → Byte} {l : List Nat} {row : Memory 8}
    (hrow : row ∈ l.map fun y => tableRow (f y)) : Memory.wf 256 row = true := by
  obtain ⟨y, -, rfl⟩ := List.mem_map.1 hrow
  exact wf_tableRow (f y)

/-- MDBUILD replaces both tables whole, by 256 rows each (R128). -/
theorem StorageWf.putMulDiv_rows (h : StorageWf s) : StorageWf (s.putMulDiv s.mulRows s.divRows) :=
  { h with
    mulRows := by simp [State.mulRows]
    mul := fun _ => wf_of_mem_map_tableRow
    divRows := by simp [State.divRows]
    div := fun _ => wf_of_mem_map_tableRow }

/-! ### CMCANON (R210) -/

/-- A row keeps its length when CMCANON rescales it. -/
theorem canonRow_length (s : State) (row : List Byte) : (s.canonRow row).1.length = row.length := by
  unfold State.canonRow
  split
  · rfl
  · simp [State.scaleRow]

/-- CMCANON writes rows `1..M-1`, of `K` cells each. -/
theorem canonRows_cells (s : State) : ((canonRows s).flatMap fun r => r.1).length = (s.m - 1) * s.k := by
  simp [canonRows, State.lowerRows, List.length_flatMap, Function.comp_def, canonRow_length, State.matRow]

/-- The rows written, from element `K` on, end where the matrix ends; with no row nothing is written. -/
theorem canonRows_inside (hmat : s.m * s.k ≤ Config.matLen) :
    s.k + ((canonRows s).flatMap fun r => r.1).length ≤ Config.matLen := by
  rw [canonRows_cells]
  cases hm : s.m with
  | zero =>
    have hk : s.k < 2 ^ 8 := (s.dim.extractLsb' 0 8).isLt
    simp only [Config.matLen]
    omega
  | succ n =>
    rw [hm, Nat.succ_mul] at hmat
    rw [Nat.add_sub_cancel]
    omega

theorem StorageWf.canonState (h : StorageWf s) (hmat : s.m * s.k ≤ Config.matLen) : StorageWf (canonState s) :=
  (h.storeMat (canonRows_inside hmat)).of_storageView rfl

/-! ### Every step -/

theorem StorageWf.of_effect (h : StorageWf s) (he : Effect i s t) : StorageWf t :=
  effect_cases he StorageWf
    (same := h)
    (register := fun _ _ => h.of_storageView rfl)
    (field := fun idx e _ _ _ => h.gfbuildState idx e)
    (mulDiv := fun _ => h.putMulDiv_rows.of_storageView rfl)
    (inv := fun _ => (h.putInv (by simp)).of_storageView rfl)
    (weight := fun _ => (h.putWeight (by simp)).of_storageView rfl)
    (dims := fun _ _ => h.of_storageView rfl)
    (x := fun _ v hj => h.setX hj v)
    (y := fun _ v hj => h.setY hj v)
    (mat := fun _ _ hj => h.storeMat hj)
    (canon := fun _ _ _ hmat => h.canonState hmat)

/-- Settles O48: fault entry writes no element, a command writes inside its space, and reset empties every space. -/
theorem stepKeepsStorageCanonical : Obligations.StepKeepsStorageCanonical := fun _ _ hs h =>
  step_keeps StorageWf
    (taken := fun _ _ h => h.of_storageView rfl)
    (entered := fun _ _ _ _ h => h.of_storageView rfl)
    (effect := fun _ _ _ _ h he => h.of_effect he)
    (reset := fun _ _ => storageWf_reset.of_storageView rfl) hs h

end Sys2Proof.Machine
end

section
/-! The decoder and the encoder as inverses, and the legal words as the words the decoder accepts (R91 to R100).
A format reads its own packing back; a word is its six fields, so that a word matches a row of the opcode map under
its mask exactly when its opcode is the row's and the fields the mask covers are 0. -/

namespace Sys2Proof

/-! ### A format reads its own packing back (R91) -/

section
variable (op : BitVec 8) (rd ra rb rc : Reg) (imm : Imm16)

theorem asZ_packZ (i : Instr) : asZ (packZ op) i = .ok i := by
  simp [asZ, ifUnusedZero]

theorem asRdImm_packI (f : Reg → Imm16 → Instr) : asRdImm (packI op rd imm) f = .ok (f rd imm) := by
  simp [asRdImm, ifUnusedZero]

theorem asImm_packI (f : Imm16 → Instr) : asImm (packI op 0 imm) f = .ok (f imm) := by
  simp [asImm, ifUnusedZero]

theorem asRdRa_packR (f : Reg → Reg → Instr) : asRdRa (packR op rd ra 0 0) f = .ok (f rd ra) := by
  simp [asRdRa, ifUnusedZero]

theorem asRdRaRb_packR (f : Reg → Reg → Reg → Instr) :
    asRdRaRb (packR op rd ra rb 0) f = .ok (f rd ra rb) := by
  simp [asRdRaRb, ifUnusedZero]

theorem asRaRb_packR (f : Reg → Reg → Instr) : asRaRb (packR op 0 ra rb 0) f = .ok (f ra rb) := by
  simp [asRaRb, ifUnusedZero]

theorem asRaRbRc_packR (f : Reg → Reg → Reg → Instr) :
    asRaRbRc (packR op 0 ra rb rc) f = .ok (f ra rb rc) := by
  simp [asRaRbRc, ifUnusedZero]

end

/-! ### Decoding what was encoded -/

/-- The decoder reads every field of a command back, and is left with the check of the CSR number (R99). -/
theorem decode_encode_eq_checkCsr (i : Instr) : decode (encode i) = checkCsr i := by
  cases i
  all_goals simp only [decode, encode, opField_packR, opField_packI, opField_packZ]
  case nop | mdbuild | invbuild | wtbuild | cmraw | cmcanon => exact asZ_packZ _ _
  case li => exact asRdImm_packI _ _ _ _
  case rdcsr => exact congrArg (Except.bind · checkCsr) (asRdImm_packI _ _ _ _)
  case gfbuild | setdim => exact asImm_packI _ _ _
  case mov | gfdbl | gflog | gfexp | gfinv | popc | bwcalc | bwlut | ldx | ldy | cmones =>
    exact asRdRa_packR _ _ _ _
  case gfadd | gfmul | gfdiv | gfmull | gfdivl | ldm => exact asRdRaRb_packR _ _ _ _ _
  case stx | sty => exact asRaRb_packR _ _ _ _
  case stm => exact asRaRbRc_packR _ _ _ _ _

theorem decode_encode {i : Instr} (h : i.wellFormed = true) : decode (encode i) = .ok i :=
  (decode_encode_eq_checkCsr i).trans (checkCsr_ok.2 ⟨h, rfl⟩)

/-- The word is that of the command, so decoding it was the check of the CSR number. -/
theorem wellFormed_of_decode {w : Word} {i : Instr} (h : decode w = .ok i) : i.wellFormed = true := by
  have hcheck : checkCsr i = .ok i := by rw [← decode_encode_eq_checkCsr, encode_of_decode h, h]
  exact (checkCsr_ok.1 hcheck).1

/-- Settles O1: a format reads its packing back, and a well-formed command passes the check of the CSR number. -/
theorem decodeOfEncodeIsTheCommand : Obligations.DecodeOfEncodeIsTheCommand := fun _ => decode_encode

/-- Settles O2. -/
theorem encodeOfDecodeIsTheWord : Obligations.EncodeOfDecodeIsTheWord :=
  fun _ _ h => ⟨encode_of_decode h, wellFormed_of_decode h⟩

/-- Settles O3: the listed words are those of the commands beside them, and the others evaluate to their refusals. -/
theorem sampleWordsDecodeAsListed : Obligations.SampleWordsDecodeAsListed :=
  ⟨decode_encode (i := .nop) rfl, decode_encode (i := .li 3 0x1D) rfl, decode_encode (i := .mov 1 2) rfl,
    decode_encode (i := .rdcsr 4 4) rfl, decode_encode (i := .gfbuild 0) rfl,
    decode_encode (i := .gfmul 2 0 1) rfl, decode_encode (i := .bwlut 9 2) rfl,
    decode_encode (i := .setdim 0x0303) rfl, decode_encode (i := .stx 0 1) rfl,
    decode_encode (i := .stm 0 1 2) rfl, decode_encode (i := .cmraw) rfl, rfl, rfl, rfl⟩

/-! ### A word is its six fields -/

section
variable (v w : Word)

theorem eq_iff_fields : v = w ↔ opField v = opField w ∧ rdField v = rdField w ∧ raField v = raField w ∧
    rbField v = rbField w ∧ rcField v = rcField w ∧ lowField v = lowField w := by
  refine ⟨fun h => by simp [h], fun ⟨hop, hrd, hra, hrb, hrc, hlow⟩ => ?_⟩
  simp only [opField, rdField, raField, rbField, rcField, lowField, ← BitVec.toNat_inj, BitVec.extractLsb'_toNat,
    Nat.shiftRight_eq_div_pow] at hop hrd hra hrb hrc hlow ⊢
  omega

theorem opField_and : opField (v &&& w) = opField v &&& opField w := BitVec.extractLsb'_and
theorem rdField_and : rdField (v &&& w) = rdField v &&& rdField w := BitVec.extractLsb'_and
theorem raField_and : raField (v &&& w) = raField v &&& raField w := BitVec.extractLsb'_and
theorem rbField_and : rbField (v &&& w) = rbField v &&& rbField w := BitVec.extractLsb'_and
theorem rcField_and : rcField (v &&& w) = rcField v &&& rcField w := BitVec.extractLsb'_and
theorem lowField_and : lowField (v &&& w) = lowField v &&& lowField w := BitVec.extractLsb'_and

end

/-! The fields of format Z below the opcode are 0 (R91). -/

theorem extractLsb'_packZ (op : BitVec 8) {lo len : Nat} (h : lo + len ≤ 24) :
    (packZ op).extractLsb' lo len = 0 := by
  apply BitVec.eq_of_getLsbD_eq
  intro i hi
  have hlt : lo + i < 24 := by omega
  simp [BitVec.getLsbD_extractLsb', packZ_getLsbD, hlt]

section
variable (op : BitVec 8)

@[simp] theorem rdField_packZ : rdField (packZ op) = 0 := extractLsb'_packZ op (by decide)
@[simp] theorem raField_packZ : raField (packZ op) = 0 := extractLsb'_packZ op (by decide)
@[simp] theorem rbField_packZ : rbField (packZ op) = 0 := extractLsb'_packZ op (by decide)
@[simp] theorem rcField_packZ : rcField (packZ op) = 0 := extractLsb'_packZ op (by decide)
@[simp] theorem lowField_packZ : lowField (packZ op) = 0 := extractLsb'_packZ op (by decide)

end

/-- A mask that covers the opcode leaves the opcode alone exactly when every field is 0 where it is covered. -/
theorem and_mask_eq_packZ_iff {w mask : Word} (hop : opField mask = 0xFF#8) :
    w &&& mask = packZ (opField w) ↔ rdField w &&& rdField mask = 0 ∧ raField w &&& raField mask = 0 ∧
      rbField w &&& rbField mask = 0 ∧ rcField w &&& rcField mask = 0 ∧ lowField w &&& lowField mask = 0 := by
  have hall : opField w &&& 0xFF#8 = opField w := BitVec.and_allOnes
  simp [eq_iff_fields, opField_and, rdField_and, raField_and, rbField_and, rcField_and, lowField_and, hop, hall]

@[simp] theorem reg_and_ones (r : Reg) : r &&& 15#4 = r := BitVec.and_allOnes
@[simp] theorem byte_and_ones (b : Byte) : b &&& 255#8 = b := BitVec.and_allOnes

/-! ### What a format accepts is what its mask says (R95, R97) -/

section
variable {w : Word}

theorem exists_ifUnusedZero_ok {ok : Bool} {i : Instr} : (∃ j, ifUnusedZero ok i = .ok j) ↔ ok = true := by
  simp [ifUnusedZero_ok]

theorem exists_asZ_ok_iff {i : Instr} : (∃ j, asZ w i = .ok j) ↔ w &&& 0xFFFFFFFF = packZ (opField w) := by
  have hall : w &&& 0xFFFFFFFF = w := BitVec.and_allOnes
  rw [asZ, exists_ifUnusedZero_ok, hall, beq_iff_eq]
  exact ⟨fun h => (packZ_fields h).symm, fun h => h ▸ zeroField_packZ _⟩

theorem exists_asRdImm_ok_iff {f : Reg → Imm16 → Instr} :
    (∃ j, asRdImm w f = .ok j) ↔ w &&& 0xFF0F0000 = packZ (opField w) := by
  rw [asRdImm, exists_ifUnusedZero_ok, and_mask_eq_packZ_iff rfl]
  simp [rdField, raField, rbField, rcField, lowField]

theorem exists_asImm_ok_iff {f : Imm16 → Instr} :
    (∃ j, asImm w f = .ok j) ↔ w &&& 0xFFFF0000 = packZ (opField w) := by
  rw [asImm, exists_ifUnusedZero_ok, and_mask_eq_packZ_iff rfl]
  simp [rdField, raField, rbField, rcField, lowField, and_comm]

theorem exists_asRdRa_ok_iff {f : Reg → Reg → Instr} :
    (∃ j, asRdRa w f = .ok j) ↔ w &&& 0xFF00FFFF = packZ (opField w) := by
  rw [asRdRa, exists_ifUnusedZero_ok, and_mask_eq_packZ_iff rfl]
  simp [rdField, raField, rbField, rcField, lowField, and_assoc, and_comm, and_left_comm]

theorem exists_asRdRaRb_ok_iff {f : Reg → Reg → Reg → Instr} :
    (∃ j, asRdRaRb w f = .ok j) ↔ w &&& 0xFF000FFF = packZ (opField w) := by
  rw [asRdRaRb, exists_ifUnusedZero_ok, and_mask_eq_packZ_iff rfl]
  simp [rdField, raField, rbField, rcField, lowField, and_comm]

theorem exists_asRaRb_ok_iff {f : Reg → Reg → Instr} :
    (∃ j, asRaRb w f = .ok j) ↔ w &&& 0xFFF00FFF = packZ (opField w) := by
  rw [asRaRb, exists_ifUnusedZero_ok, and_mask_eq_packZ_iff rfl]
  simp [rdField, raField, rbField, rcField, lowField, and_assoc, and_comm, and_left_comm]

theorem exists_asRaRbRc_ok_iff {f : Reg → Reg → Reg → Instr} :
    (∃ j, asRaRbRc w f = .ok j) ↔ w &&& 0xFFF000FF = packZ (opField w) := by
  rw [asRaRbRc, exists_ifUnusedZero_ok, and_mask_eq_packZ_iff rfl]
  simp [rdField, raField, rbField, rcField, lowField, and_comm]

theorem wellFormed_rdcsr {rd : Reg} {csr : Imm16} : (Instr.rdcsr rd csr).wellFormed = true ↔ csr.toNat ≤ 6 :=
  decide_eq_true_iff

/-- Of RDCSR's words the decoder accepts those whose CSR number is assigned (R99). -/
theorem exists_rdcsr_ok_iff : (∃ j, (asRdImm w .rdcsr).bind checkCsr = .ok j) ↔
    w &&& 0xFF0F0000 = packZ (opField w) ∧ (immField w).toNat ≤ 6 := by
  rw [← exists_asRdImm_ok_iff (f := .rdcsr), asRdImm, exists_ifUnusedZero_ok]
  cases raField w == 0 <;> simp [ifUnusedZero, Except.bind, checkCsr_ok, wellFormed_rdcsr]

end

/-! ### The opcode map (R95) -/

section
open Claims

variable {w : Word}

theorem and_opMask (w : Word) : w &&& 0xFF000000 = packZ (opField w) := by
  rw [and_mask_eq_packZ_iff rfl]
  simp [rdField, raField, rbField, rcField, lowField]

theorem and_opMask_eq_rdcsr_iff : w &&& 0xFF000000 = 0x03000000 ↔ opField w = 0x03 := by
  rw [and_opMask]
  exact ⟨fun h => (opField_packZ _).symm.trans (congrArg opField h), fun h => h ▸ rfl⟩

theorem and_immMask_toNat (w : Word) : (w &&& 0xFFFF).toNat = (immField w).toNat := by
  rw [immField, BitVec.extractLsb'_toNat, BitVec.toNat_and]
  exact Nat.and_two_pow_sub_one_eq_mod w.toNat 16

/-- The masks of the opcode map cover the opcode, and its matches are 0 below it. -/
theorem opMask_of_mem_opcodeRows : ∀ row ∈ opcodeRows,
    row.2 &&& 0xFF000000 = 0xFF000000 ∧ row.1 &&& 0xFF000000 = row.1 := by
  simp [opcodeRows]

theorem nodup_opcodeRows : (opcodeRows.map Prod.fst).Nodup := by
  simp [opcodeRows]

/-- A word can match no row but that of its opcode. -/
theorem match_eq_packZ_of_and_mask {row : Word × Word} (hmem : row ∈ opcodeRows) (hmatch : w &&& row.2 = row.1) :
    row.1 = packZ (opField w) := by
  obtain ⟨hmask, hrow⟩ := opMask_of_mem_opcodeRows row hmem
  rw [← and_opMask, ← hmask, ← BitVec.and_assoc, hmatch, hrow]

theorem match_iff_of_mem {mask : Word} (hmem : (packZ (opField w), mask) ∈ opcodeRows) :
    (∃ row ∈ opcodeRows, w &&& row.2 = row.1) ↔ w &&& mask = packZ (opField w) := by
  refine ⟨fun ⟨row, hrow, hmatch⟩ => ?_, fun h => ⟨_, hmem, h⟩⟩
  have hop := match_eq_packZ_of_and_mask hrow hmatch
  obtain rfl := List.inj_on_of_nodup_map nodup_opcodeRows hrow hmem hop
  exact hmatch

/-- The opcode bytes of R98. -/
def assignedOpcodes : List Nat :=
  [0x00, 0x01, 0x02, 0x03, 0x10, 0x11, 0x12, 0x13, 0x20, 0x21, 0x22, 0x23, 0x24, 0x25, 0x26, 0x27, 0x28,
   0x30, 0x31, 0x32, 0x40, 0x41, 0x42, 0x43, 0x44, 0x45, 0x46, 0x50, 0x51, 0x52]

theorem opcodes_of_opcodeRows : opcodeRows.map (fun row => (opField row.1).toNat) = assignedOpcodes := rfl

theorem opField_mem_of_legalWord (h : legalWord w) : (opField w).toNat ∈ assignedOpcodes := by
  obtain ⟨⟨row, hmem, hmatch⟩, -⟩ := h
  rw [← opcodes_of_opcodeRows]
  exact List.mem_map.2 ⟨row, hmem, by rw [match_eq_packZ_of_and_mask hmem hmatch, opField_packZ]⟩

/-- For a word whose opcode byte has a row, legal or not is that row's mask, and for RDCSR the CSR number. -/
theorem legalWord_iff_of_row {op : BitVec 8} {mask : Word} (hop : opField w = op)
    (hmem : (packZ op, mask) ∈ opcodeRows) :
    legalWord w ↔ w &&& mask = packZ (opField w) ∧ (op = 0x03 → (immField w).toNat ≤ 6) := by
  subst hop
  rw [legalWord, match_iff_of_mem hmem, and_opMask_eq_rdcsr_iff, and_immMask_toNat]

/-- Every row but that of RDCSR: what the row's format accepts is legal. -/
theorem ok_iff_legalWord_of_row {r : Except Illegal Instr} {op : BitVec 8} {mask : Word}
    (hr : (∃ i, r = .ok i) ↔ w &&& mask = packZ (opField w)) (hop : opField w = op)
    (hmem : (packZ op, mask) ∈ opcodeRows) (hne : op ≠ 0x03) : (∃ i, r = .ok i) ↔ legalWord w := by
  rw [legalWord_iff_of_row hop hmem, hr, and_iff_left fun h => absurd h hne]

/-- By the opcode byte: each of the 30 has one format and one row, and any other has neither. -/
theorem exists_decode_ok_iff_legalWord : (∃ i, decode w = .ok i) ↔ legalWord w := by
  unfold decode
  split
  all_goals rename_i hop
  case h_31 =>
    refine iff_of_false (by simp) fun h => ?_
    have hmem := opField_mem_of_legalWord h
    simp_all [assignedOpcodes]
  all_goals replace hop := opField_eq_of_toNat hop
  case h_4 => simp [exists_rdcsr_ok_iff, legalWord_iff_of_row hop (mask := 0xFF0F0000) (by decide)]
  case h_1 | h_6 | h_7 | h_8 | h_28 | h_29 =>
    exact ok_iff_legalWord_of_row exists_asZ_ok_iff hop (by decide) (by decide)
  case h_2 => exact ok_iff_legalWord_of_row exists_asRdImm_ok_iff hop (by decide) (by decide)
  case h_5 | h_21 => exact ok_iff_legalWord_of_row exists_asImm_ok_iff hop (by decide) (by decide)
  case h_3 | h_10 | h_11 | h_12 | h_15 | h_18 | h_19 | h_20 | h_22 | h_24 | h_30 =>
    exact ok_iff_legalWord_of_row exists_asRdRa_ok_iff hop (by decide) (by decide)
  case h_9 | h_13 | h_14 | h_16 | h_17 | h_26 =>
    exact ok_iff_legalWord_of_row exists_asRdRaRb_ok_iff hop (by decide) (by decide)
  case h_23 | h_25 =>
    exact ok_iff_legalWord_of_row exists_asRaRb_ok_iff hop (by decide) (by decide)
  case h_27 =>
    exact ok_iff_legalWord_of_row exists_asRaRbRc_ok_iff hop (by decide) (by decide)

end

/-- Settles O4: a word's opcode byte names its format and its row, and what the format accepts is the row's mask. -/
theorem decoderAcceptsExactlyTheOpcodeMap : Obligations.DecoderAcceptsExactlyTheOpcodeMap :=
  fun _ => exists_decode_ok_iff_legalWord

theorem exists_decode_error_of_not_legalWord {w : Word} (h : ¬ Claims.legalWord w) : ∃ e, decode w = .error e := by
  match hd : decode w with
  | .ok i => exact absurd (exists_decode_ok_iff_legalWord.1 ⟨i, hd⟩) h
  | .error e => exact ⟨e, rfl⟩

end Sys2Proof

namespace Sys2Proof.Machine

/-- Settles O6: the decoder refuses the word, so fault entry is all that presenting it does. -/
theorem illegalWordsRaiseIllegalCmd : Obligations.IllegalWordsRaiseIllegalCmd := by
  intro s w rest hp hf hw
  obtain ⟨e, hd⟩ := exists_decode_error_of_not_legalWord hw
  refine ⟨raise .illegalCmd w (s.withPending rest), ?_, rfl, rfl, rfl, by simp⟩
  rw [step_of_command hp]
  exact present_of_illegal hf hd

end Sys2Proof.Machine
end

section
/-! Table construction (40_field_tables.md): what each build command answers, said once, and what the tables it leaves
hold. -/

namespace Sys2Proof.Machine

open Sys2Proof.Claims

/-! ### What a usable catalog entry is (R124) -/

/-- The tests GFBUILD makes of an entry, in one. -/
def usableEntry (e : Byte) : Bool := (polyOf e).getLsbD 8 && isFullCycle (cycle (polyOf e))

/-- The top bit of the polynomial is that of the entry (R120). -/
theorem polyOf_top (e : Byte) : (polyOf e).getLsbD 8 = e.getLsbD 7 := by simp [polyOf]

/-- `A[0..254]` of R123, as the orbit of 1 under doubling. -/
theorem cycle_eq_map_orbit (e : Byte) : cycle (polyOf e) = (List.range 255).map (orbit e) := by
  apply List.ext_getElem?
  intro j
  by_cases hj : j < 255
  · rw [cycle_getElem? _ j hj, List.getElem?_map, List.getElem?_range hj, Option.map_some, orbit]
  · rw [List.getElem?_eq_none (by simpa using hj), List.getElem?_eq_none (by simpa using hj)]

/-- A value occurs once in a list of `n` values `f 0, f 1, …` exactly when one index below `n` has it. -/
theorem count_map_range_eq_one_iff (f : Nat → Byte) (n : Nat) (v : Byte) :
    ((List.range n).map f).count v = 1 ↔ ∃! j, j < n ∧ f j = v := by
  have hcount : ((List.range n).map f).count v = ((Finset.range n).filter fun j => f j = v).card := by
    rw [← Nat.count_eq_card_filter_range, Nat.count, List.count_eq_countP, List.countP_map]
    rfl
  rw [hcount, Finset.card_eq_one, Finset.singleton_iff_unique_mem]
  simp only [Finset.mem_filter, Finset.mem_range]

/-- The model's test of R124 (c) is primitivity. -/
theorem isFullCycle_iff_primitive (e : Byte) : isFullCycle (cycle (polyOf e)) = true ↔ primitive e := by
  rw [isFullCycle_iff_count]
  simp only [cycle_eq_map_orbit, count_map_range_eq_one_iff, primitive]

theorem usableEntry_iff {e : Byte} : usableEntry e = true ↔ e.getLsbD 7 = true ∧ primitive e := by
  rw [usableEntry, Bool.and_eq_true, polyOf_top, isFullCycle_iff_primitive]

theorem usableEntry_eq_false_iff {e : Byte} : usableEntry e = false ↔ e.getLsbD 7 = false ∨ ¬ primitive e := by
  rw [← Bool.not_eq_true, usableEntry_iff, not_and_or, Bool.not_eq_true]

/-! ### What the build commands answer -/

/-- Two checks that raise the same fault are one. -/
theorem check_bind_check {α : Type} (a b : Bool) (f : EngineFault) (r : Except Stop α) :
    (check a f >>= fun _ => check b f >>= fun _ => r) = (check (a && b) f >>= fun _ => r) := by
  cases a <;> rfl

section
variable {s : State}

theorem exec_gfbuild_of_noEntry {idx : Imm16} (h : s.catalog[idx.toNat]? = none) :
    exec (.gfbuild idx) s = .next (raise .cfgPoly (encode (.gfbuild idx)) s) := by
  simp only [exec, execGfbuild, h, finish_engine]

/-- GFBUILD makes its two tests of the entry together (R124): either raises CfgPoly. -/
theorem exec_gfbuild_of_entry {idx : Imm16} {e : Byte} (h : s.catalog[idx.toNat]? = some e) :
    exec (.gfbuild idx) s =
      if usableEntry e then .next (gfbuildState idx e s)
      else .next (raise .cfgPoly (encode (.gfbuild idx)) s) := by
  simp only [exec, execGfbuild, h, check_bind_check, except_pure_eq]
  change finish _ s (check (usableEntry e) .cfgPoly >>= fun _ => .ok (gfbuildState idx e s)) = _
  cases usableEntry e <;> rfl

theorem exec_mdbuild (h : s.flag .fieldRdy = true) :
    exec .mdbuild s = .next ((s.putMulDiv s.mulRows s.divRows).setFlag .mulDivRdy true) := by
  simp only [exec, execMdbuild, h, needReady_true, except_bind_ok, except_pure_eq, finish_ok]

theorem exec_invbuild (h : s.flag .mulDivRdy = true) : exec .invbuild s =
    .next ((s.putInv ((List.range' 1 255).map fun x => s.divAt (BitVec.ofNat 8 x) 1)).setFlag .invRdy true) := by
  simp only [exec, execInvbuild, h, needReady_true, except_bind_ok, except_pure_eq, finish_ok]

theorem exec_wtbuild (h : s.flag .mulDivRdy = true) : exec .wtbuild s =
    .next ((s.putWeight ((List.range 256).map fun v =>
      BitVec.ofNat 8 (s.weightOf (BitVec.ofNat 8 v)))).setFlag .weightRdy true) := by
  simp only [exec, execWtbuild, h, needReady_true, except_bind_ok, except_pure_eq, finish_ok]

/-! ### What a build command leaves unchanged (R47) -/

theorem sameCsrsBut_setFlag (s : State) (f : Flag) (b : Bool) : SameCsrsBut [0] s (s.setFlag f b) :=
  sameCsrsBut_of (by simp) (fun _ => rfl) (fun _ => rfl) (fun _ => rfl) (fun _ => rfl) (fun _ => rfl) (fun _ => rfl)

theorem sameElementsBut_setFlag {t : State} {P : Config.Space → Nat → Prop} (h : SameElementsBut P s t) (f : Flag)
    (b : Bool) : SameElementsBut P s (t.setFlag f b) := fun sp i hi hP => by
  rw [← h sp i hi hP]
  cases sp <;> rfl

/-- A build that writes elements alone, and then sets its ready flag, changes nothing else. -/
theorem frame_of_setFlag {t : State} {P : Config.Space → Nat → Prop} (f : Flag) (hregs : t.regs = s.regs)
    (hcsr : ∀ n, t.csr n = s.csr n) (helements : SameElementsBut P s t) (hrest : SameRest s t) :
    (t.setFlag f true).flag f = true ∧
      (∀ b, b ≠ f.bit → (t.setFlag f true).status.getLsbD b = s.status.getLsbD b) ∧
      SameRegsBut none s (t.setFlag f true) ∧ SameCsrsBut [0] s (t.setFlag f true) ∧
      SameElementsBut P s (t.setFlag f true) ∧ SameRest s (t.setFlag f true) := by
  have hstatus : t.status = s.status := Option.some.inj (hcsr 0)
  obtain ⟨hcatalog, hpending, hresets, hera⟩ := hrest
  refine ⟨by simp, fun b hb => ?_, sameRegsBut_of_regs hregs none, fun n hn => ?_,
    sameElementsBut_setFlag helements f true, ⟨hcatalog, hpending, hresets, hera⟩⟩
  · rw [setFlag_status_bit t f true b hb, hstatus]
  · rw [sameCsrsBut_setFlag t f true n hn, hcsr]

end

/-! ### LOG and ANTILOG (R123) -/

/-- ANTILOG is the orbit of 1 under doubling with the polynomial in POLY (R50). -/
theorem FieldTables.antilogAt_eq_iterate {s : State} (h : FieldTables s) {j : Nat} (hj : j ≤ 254) :
    s.antilogAt j = (dblByte s.poly9)^[j] 1 := by
  induction j with
  | zero => exact h.first
  | succ j ih =>
    rw [h.doubles (j + 1) (by omega) hj, Nat.add_sub_cancel, ih (by omega), Function.iterate_succ_apply']

theorem fieldTables_gfbuildState (s : State) (idx : Imm16) {e : Byte} (h : usableEntry e = true) :
    FieldTables (gfbuildState idx e s) := by
  obtain ⟨htop, hfull⟩ := Bool.and_eq_true_iff.1 h
  exact fieldTables_of_entries rfl htop (polyOf_low e) hfull rfl rfl

theorem antilogAt_gfbuildState (s : State) (idx : Imm16) {e : Byte} (h : usableEntry e = true) {j : Nat}
    (hj : j < 255) : (gfbuildState idx e s).antilogAt j = orbit e j := by
  have hpoly : (gfbuildState idx e s).poly9 = polyOf e := poly9_of_setWidth rfl
  rw [(fieldTables_gfbuildState s idx h).antilogAt_eq_iterate (by omega), hpoly, orbit]

/-- GFBUILD writes bits 0 to 3 of STATUS (R47). -/
theorem gfbuildState_status_bit (s : State) (idx : Imm16) (e : Byte) {b : Nat} (hb : 4 ≤ b) :
    (gfbuildState idx e s).status.getLsbD b = s.status.getLsbD b := by
  have hne : ∀ f : Flag, f.bit < 4 → b ≠ f.bit := fun f hf => by omega
  rw [gfbuildState, setFlag_status_bit _ .weightRdy _ b (hne _ (by decide)),
    setFlag_status_bit _ .invRdy _ b (hne _ (by decide)), setFlag_status_bit _ .mulDivRdy _ b (hne _ (by decide)),
    setFlag_status_bit _ .fieldRdy _ b (hne _ (by decide)), putField_status]

theorem sameCsrsBut_gfbuildState (s : State) (idx : Imm16) (e : Byte) :
    SameCsrsBut [0, 1, 2] s (gfbuildState idx e s) :=
  sameCsrsBut_of (by simp) (by simp) (by simp) (fun _ => rfl) (fun _ => rfl) (fun _ => rfl) (fun _ => rfl)

/-- X, Y and MAT are no tables: GFBUILD leaves them, in this era of theirs. -/
theorem sameElementsBut_gfbuildState (s : State) (idx : Imm16) (e : Byte) :
    SameElementsBut (fun sp _ => sp ≠ .x ∧ sp ≠ .y ∧ sp ≠ .mat) s (gfbuildState idx e s) := by
  intro sp i _ hwritten
  have hsp : sp = .x ∨ sp = .y ∨ sp = .mat := by tauto
  obtain rfl | rfl | rfl := hsp <;> rfl

/-- Settles O18: an entry that is there and passes both tests is built, and then FAULT is 0 as before. -/
theorem cfgPolyExactlyWhenTheEntryIsUnusable : Obligations.CfgPolyExactlyWhenTheEntryIsUnusable := by
  intro idx s hrunning
  cases hentry : s.catalog[idx.toNat]? with
  | none => exact iff_of_true (exec_gfbuild_of_noEntry hentry) (.inl (List.getElem?_eq_none_iff.1 hentry))
  | some e =>
    have hlt : ¬ s.catalog.length ≤ idx.toNat := not_le.2 (List.getElem?_eq_some_iff.1 hentry).1
    simp only [exec_gfbuild_of_entry hentry, hlt, false_or, Option.some.injEq, exists_eq_left',
      ← usableEntry_eq_false_iff]
    cases usableEntry e with
    | false => simp
    | true =>
      have hbuilt : gfbuildState idx e s ≠ raise .cfgPoly (encode (.gfbuild idx)) s := fun h => by
        have hfault := congrArg (fun t => t.flag .fault) h
        simp [gfbuildState, hrunning] at hfault
      simpa using hbuilt

/-- Settles O21: the tables are those of R49 and R50 for the entry's polynomial, whose ANTILOG is the orbit of 1. -/
theorem gfbuildBuildsLogAndAntilog : Obligations.GfbuildBuildsLogAndAntilog := by
  intro s idx e hentry htop hprimitive
  have husable : usableEntry e = true := usableEntry_iff.2 ⟨htop, hprimitive⟩
  have htables := fieldTables_gfbuildState s idx husable
  have horbit : ∀ j < 255, (gfbuildState idx e s).antilogAt j = orbit e j :=
    fun j hj => antilogAt_gfbuildState s idx husable hj
  have hexec : exec (.gfbuild idx) s = .next (gfbuildState idx e s) := by
    rw [exec_gfbuild_of_entry hentry, if_pos husable]
  refine ⟨gfbuildState idx e s, hexec, rfl, polyOf_setWidth e, htables.logZero, fun j hj => ⟨horbit j hj, ?_⟩,
    fun i hlo hhi => ?_, htables.pads, flag_gfbuildState idx e s _, flag_gfbuildState idx e s _,
    flag_gfbuildState idx e s _, flag_gfbuildState idx e s _, fun b hb => gfbuildState_status_bit s idx e hb,
    sameRegsBut_of_regs rfl none, sameCsrsBut_gfbuildState s idx e, sameElementsBut_gfbuildState s idx e,
    rfl, rfl, rfl, rfl, rfl, rfl, rfl⟩
  · rw [← horbit j hj, htables.logAntilog j (by omega)]
  · rw [htables.wraps i hlo hhi, horbit (i - 255) (by omega)]

/-! ### MUL and DIV (R128) -/

theorem sameElementsBut_putMulDiv (s : State) (mul div : List (Memory 8)) :
    SameElementsBut (fun sp _ => sp = .mul ∨ sp = .div) s (s.putMulDiv mul div) := by
  intro sp i _ hwritten
  cases sp
  case mul | div => simp at hwritten
  all_goals rfl

/-- Settles O22: the rows MDBUILD leaves are the tables of R51 and R52. -/
theorem mdbuildBuildsMulAndDiv : Obligations.MdbuildBuildsMulAndDiv := by
  intro s hready
  obtain ⟨hmulZero, hmul, hdivZero, hdiv⟩ := mulDivTables_of_rows (s := s)
    (t := (s.putMulDiv s.mulRows s.divRows).setFlag .mulDivRdy true) rfl rfl (fun _ => rfl) (fun _ => rfl)
  exact ⟨_, exec_mdbuild hready, fun y x h => ⟨hmulZero y x h, hdivZero y x h⟩,
    fun y x hy hx => ⟨hmul y x hy hx, hdiv y x hy hx⟩,
    frame_of_setFlag .mulDivRdy rfl (fun _ => rfl) (sameElementsBut_putMulDiv s _ _) ⟨rfl, rfl, rfl, rfl⟩⟩

/-! ### INV (R130) -/

/-- INV is written from index 1 on. -/
theorem invAt_putInv_zero (s : State) (es : List Byte) : (s.putInv es).invAt 0 = s.invAt 0 := by
  have h : Memory.read? (s.inv.store 1 es) 0 = Memory.read? s.inv 0 := by
    rw [read?_store, if_neg (by omega)]
  simp only [State.invAt, putInv_inv, putInv_tableEra, BitVec.ofNat_eq_ofNat, BitVec.toNat_ofNat, Nat.zero_mod, h]

theorem sameElementsBut_putInv (s : State) (es : List Byte) :
    SameElementsBut (fun sp i => sp = .inv ∧ i ≠ 0) s (s.putInv es) := by
  intro sp i _ hwritten
  cases sp
  case inv =>
    have hi : i = 0 := by simpa using hwritten
    subst hi
    exact congrArg (BitVec.setWidth 16) (invAt_putInv_zero s es)
  all_goals rfl

/-- Settles O23. -/
theorem invbuildBuildsInv : Obligations.InvbuildBuildsInv := by
  intro s hready
  refine ⟨_, exec_invbuild hready, fun x hx => ?_,
    frame_of_setFlag .invRdy rfl (fun _ => rfl) (sameElementsBut_putInv s _) ⟨rfl, rfl, rfl, rfl⟩⟩
  rw [invAt_of_store rfl hx, ofNat_toNat_byte]

/-! ### WEIGHT (R131, R171) -/

theorem popcount_eq_ones (b : Byte) : popcount b = ones b := by
  calc popcount b
      = ∑ i ∈ Finset.range 8, (b.getLsbD i).toNat := rfl
    _ = ∑ i : Fin 8, (b.getLsbD i.val).toNat := Finset.sum_range _
    _ = ∑ i : Fin 8, if b.getLsbD i.val = true then 1 else 0 :=
        Finset.sum_congr rfl fun i _ => by cases b.getLsbD i.val <;> rfl
    _ = ones b := (Finset.card_filter _ _).symm

/-- `n` rounds of the loop of R171 add the popcounts of the first `n` successive products by 2. -/
theorem weightLoop_eq_sum (s : State) (n : Nat) (v : Byte) :
    s.weightLoop n v = ∑ j ∈ Finset.range n, ones ((s.mulAt 2)^[j] v) := by
  induction n generalizing v with
  | zero => rfl
  | succ n ih =>
    rw [State.weightLoop, ih, popcount_eq_ones, Finset.sum_range_succ', Nat.add_comm]
    rfl

theorem sameElementsBut_putWeight (s : State) (es : List Byte) :
    SameElementsBut (fun sp _ => sp = .weight) s (s.putWeight es) := by
  intro sp i _ hwritten
  cases sp
  case weight => simp at hwritten
  all_goals rfl

/-- Settles O24: a weight is at most 64, so its entry holds all of it. -/
theorem wtbuildBuildsWeight : Obligations.WtbuildBuildsWeight := by
  intro s hready
  refine ⟨_, exec_wtbuild hready, fun v => ?_,
    frame_of_setFlag .weightRdy rfl (fun _ => rfl) (sameElementsBut_putWeight s _) ⟨rfl, rfl, rfl, rfl⟩⟩
  have hle := weightOf_le s v
  rw [weightAt_of_store rfl v, ofNat_toNat_byte, BitVec.toNat_ofNat, Nat.mod_eq_of_lt (by omega)]
  exact weightLoop_eq_sum s 8 v

end Sys2Proof.Machine
end

section
/-! Field arithmetic (41_field_ops.md): what GFADD to GFDIVL answer when they are ready and their operands are in
range, one equation each, with the fault of a zero divisor (R271) as its own branch. -/

namespace Sys2Proof.Machine

open Sys2Proof.Claims

/-! ### A field value and its register (R140) -/

/-- A field value in a register is all the register holds. -/
theorem setWidth_byteOf {s : State} {r : Reg} (h : (s.reg r).toNat ≤ 255) : (byteOf s r).setWidth 32 = s.reg r := by
  apply BitVec.eq_of_toNat_eq
  simp only [byteOf, BitVec.toNat_setWidth]
  omega

theorem byteOf_eq_zero_iff {s : State} {r : Reg} (h : (s.reg r).toNat ≤ 255) : byteOf s r = 0 ↔ s.reg r = 0 := by
  constructor
  · intro hzero
    rw [← setWidth_byteOf h, hzero]
    rfl
  · intro hzero
    rw [byteOf, hzero]
    rfl

theorem byteOf_bne_zero {s : State} {r : Reg} (h : (s.reg r).toNat ≤ 255) :
    (byteOf s r != 0) = !decide (s.reg r = 0) := by
  rw [bne, beq_eq_decide, decide_eq_decide.2 (byteOf_eq_zero_iff h)]

/-- `fv_ok` with the operand under the name the statements give it. -/
theorem fv_eq_byteOf {s : State} {r : Reg} (h : (s.reg r).toNat ≤ 255) : s.fv r = .ok (byteOf s r) := fv_ok h

/-- The end of a command whose last check is that some condition does not hold. -/
theorem finish_check_not (cmd : Word) (s t : State) (c : Prop) [Decidable c] (f : EngineFault) :
    finish cmd s (check (!decide c) f >>= fun _ => .ok t) = if c then .next (raise f cmd s) else .next t := by
  by_cases h : c
  · simp only [h, decide_true, Bool.not_true, check_false, except_bind_error, finish_engine, if_true]
  · simp only [h, decide_false, Bool.not_false, check_true, except_bind_ok, finish_ok, if_false]

/-! ### Doubling (R142) -/

/-- Doubling of a field value, on the 32 bits of the register that holds it and of POLY. -/
theorem setWidth_dbl {s : State} {r : Reg} {p : Word} (h : (s.reg r).toNat ≤ 255) (hp : p.toNat < 2 ^ 9) :
    (dbl (p.setWidth 9) (byteOf s r)).setWidth 32 =
      if 255 < (s.reg r <<< 1).toNat then (s.reg r <<< 1) ^^^ p else s.reg r <<< 1 := by
  have hwide : ((byteOf s r).setWidth 9 <<< 1).setWidth 32 = s.reg r <<< 1 := by
    apply BitVec.eq_of_toNat_eq
    simp only [byteOf, BitVec.toNat_setWidth, BitVec.toNat_shiftLeft, Nat.shiftLeft_eq]
    omega
  have hpoly : (p.setWidth 9).setWidth 32 = p := by
    apply BitVec.eq_of_toNat_eq
    simp only [BitVec.toNat_setWidth]
    omega
  have hexceeds : (byteOf s r).setWidth 9 <<< 1 > 255#9 ↔ 255 < (s.reg r <<< 1).toNat := by
    rw [← hwide, gt_iff_lt, BitVec.lt_def, BitVec.toNat_setWidth]
    have := ((byteOf s r).setWidth 9 <<< 1).isLt
    simp only [BitVec.toNat_ofNat]
    omega
  simp only [dbl, hexceeds]
  split
  · rw [BitVec.setWidth_xor, hwide, hpoly]
  · exact hwide

/-! ### What each command answers -/

section
variable {s : State} {ra rb : Reg} (rd : Reg)

theorem exec_gfadd (ha : (s.reg ra).toNat ≤ 255) (hb : (s.reg rb).toNat ≤ 255) :
    exec (.gfadd rd ra rb) s = .next (s.setReg rd ((byteOf s ra ^^^ byteOf s rb).setWidth 32)) := by
  simp only [exec, execGfadd, fv_eq_byteOf ha, fv_eq_byteOf hb, except_bind_ok, except_pure_eq, finish_ok]

theorem exec_gfdbl (hr : s.flag .fieldRdy = true) (ha : (s.reg ra).toNat ≤ 255) :
    exec (.gfdbl rd ra) s = .next (s.setReg rd ((dbl (s.poly.setWidth 9) (byteOf s ra)).setWidth 32)) := by
  simp only [exec, execGfdbl, hr, needReady_true, fv_eq_byteOf ha, except_bind_ok, except_pure_eq, finish_ok]

theorem exec_gflog (hr : s.flag .fieldRdy = true) (ha : (s.reg ra).toNat ≤ 255) :
    exec (.gflog rd ra) s = .next (s.setReg rd ((s.logAt (byteOf s ra)).setWidth 32)) := by
  simp only [exec, execGflog, hr, needReady_true, fv_eq_byteOf ha, except_bind_ok, except_pure_eq, finish_ok]

theorem exec_gfexp (hr : s.flag .fieldRdy = true) (ha : (s.reg ra).toNat ≤ 1024) :
    exec (.gfexp rd ra) s = .next (s.setReg rd ((s.antilogAt (s.reg ra).toNat).setWidth 32)) := by
  simp only [exec, execGfexp, hr, needReady_true, upTo_ok ha, except_bind_ok, except_pure_eq, finish_ok]

theorem exec_gfmul (hr : s.flag .mulDivRdy = true) (ha : (s.reg ra).toNat ≤ 255) (hb : (s.reg rb).toNat ≤ 255) :
    exec (.gfmul rd ra rb) s = .next (s.setReg rd ((s.mulAt (byteOf s rb) (byteOf s ra)).setWidth 32)) := by
  simp only [exec, execGfmul, hr, needReady_true, fv_eq_byteOf ha, fv_eq_byteOf hb, except_bind_ok, except_pure_eq,
    finish_ok]

theorem exec_gfmull (hr : s.flag .fieldRdy = true) (ha : (s.reg ra).toNat ≤ 255) (hb : (s.reg rb).toNat ≤ 255) :
    exec (.gfmull rd ra rb) s = .next (s.setReg rd
      ((s.antilogAt ((s.logAt (byteOf s ra)).toNat + (s.logAt (byteOf s rb)).toNat)).setWidth 32)) := by
  simp only [exec, execGfmull, hr, needReady_true, fv_eq_byteOf ha, fv_eq_byteOf hb, except_bind_ok, except_pure_eq,
    finish_ok]

theorem exec_gfdiv (hr : s.flag .mulDivRdy = true) (ha : (s.reg ra).toNat ≤ 255) (hb : (s.reg rb).toNat ≤ 255) :
    exec (.gfdiv rd ra rb) s =
      if s.reg rb = 0 then .next (raise .divZero (encode (.gfdiv rd ra rb)) s)
      else .next (s.setReg rd ((s.divAt (byteOf s rb) (byteOf s ra)).setWidth 32)) := by
  simp only [exec, execGfdiv, hr, needReady_true, fv_eq_byteOf ha, fv_eq_byteOf hb, except_bind_ok, except_pure_eq,
    byteOf_bne_zero hb, finish_check_not]

theorem exec_gfinv (hr : s.flag .invRdy = true) (ha : (s.reg ra).toNat ≤ 255) :
    exec (.gfinv rd ra) s =
      if s.reg ra = 0 then .next (raise .divZero (encode (.gfinv rd ra)) s)
      else .next (s.setReg rd ((s.invAt (byteOf s ra)).setWidth 32)) := by
  simp only [exec, execGfinv, hr, needReady_true, fv_eq_byteOf ha, except_bind_ok, except_pure_eq,
    byteOf_bne_zero ha, finish_check_not]

theorem exec_gfdivl (hr : s.flag .fieldRdy = true) (ha : (s.reg ra).toNat ≤ 255) (hb : (s.reg rb).toNat ≤ 255) :
    exec (.gfdivl rd ra rb) s =
      if s.reg rb = 0 then .next (raise .divZero (encode (.gfdivl rd ra rb)) s)
      else .next (s.setReg rd
        ((s.antilogAt ((s.logAt (byteOf s ra)).toNat + (255 - (s.logAt (byteOf s rb)).toNat))).setWidth 32)) := by
  simp only [exec, execGfdivl, hr, needReady_true, fv_eq_byteOf ha, fv_eq_byteOf hb, except_bind_ok, except_pure_eq,
    byteOf_bne_zero hb, finish_check_not]

end

/-! ### The statements -/

/-- Settles O25: the XOR of two bytes, widened, is the XOR of the registers. -/
theorem gfaddXorsFieldValues : Obligations.GfaddXorsFieldValues := by
  intro s rd ra rb ha hb
  rw [exec_gfadd rd ha hb, BitVec.setWidth_xor, setWidth_byteOf ha, setWidth_byteOf hb]

/-- Settles O26. -/
theorem gfdblDoublesWithPoly : Obligations.GfdblDoublesWithPoly := by
  intro s rd ra hr hp ha
  rw [exec_gfdbl rd hr ha, setWidth_dbl ha hp]

/-- Settles O27. -/
theorem gflogAndGfexpReadTheirTables : Obligations.GflogAndGfexpReadTheirTables :=
  fun _ rd _ hr => ⟨exec_gflog rd hr, exec_gfexp rd hr⟩

/-- Settles O28: with a divisor that is not 0 the fault branch is not taken. -/
theorem gfmulGfdivGfinvReadTheirTables : Obligations.GfmulGfdivGfinvReadTheirTables :=
  fun _ rd _ _ ha =>
    ⟨fun hr hb => exec_gfmul rd hr ha hb,
     fun hr hb hdivisor => (exec_gfdiv rd hr ha hb).trans (if_neg hdivisor),
     fun hr hdivisor => (exec_gfinv rd hr ha).trans (if_neg hdivisor)⟩

/-- Settles O29. -/
theorem gfmullAndGfdivlAddLogs : Obligations.GfmullAndGfdivlAddLogs :=
  fun _ rd _ _ hr ha hb =>
    ⟨exec_gfmull rd hr ha hb, fun hdivisor => (exec_gfdivl rd hr ha hb).trans (if_neg hdivisor)⟩

end Sys2Proof.Machine
end

section
/-! The laws of the field the tables hold (R158 to R160).  LOG and ANTILOG number the non-zero bytes as the powers
of doubling, so multiplying by `y` is doubling `LOG[y]` times, dividing by `y` is doubling `255 - LOG[y]` times, and
doubling 255 times changes nothing.  With doubling additive for XOR, every law follows. -/

namespace Sys2Proof.Machine

/-! ### Doubling is additive (R142) -/

/-- Doubling on bytes: shift left, and XOR with the low byte of the polynomial if a bit was shifted out. -/
theorem dblByte_eq (p : BitVec 9) (a : Byte) :
    dblByte p a = (a <<< 1) ^^^ (if a.msb then p.setWidth 8 else 0) := by
  have hlow : (a.setWidth 9 <<< 1).setWidth 8 = a <<< 1 := by
    apply BitVec.eq_of_toNat_eq
    simp only [BitVec.toNat_setWidth, BitVec.toNat_shiftLeft, Nat.shiftLeft_eq]
    omega
  have hexceeds : a.setWidth 9 <<< 1 > 255#9 ↔ a.msb = true := by
    have := a.isLt
    rw [gt_iff_lt, BitVec.lt_def, BitVec.msb_eq_decide, decide_eq_true_iff]
    simp only [BitVec.toNat_setWidth, BitVec.toNat_shiftLeft, BitVec.toNat_ofNat, Nat.shiftLeft_eq]
    omega
  simp only [dblByte, dbl, hexceeds]
  split
  · rw [BitVec.setWidth_xor, hlow]
  · rw [hlow]
    exact BitVec.xor_zero.symm

theorem ite_xor (b c : Bool) (q : Byte) :
    (if b ^^ c then q else 0) = (if b then q else 0) ^^^ (if c then q else 0) := by
  cases b <;> cases c <;> simp

theorem dblByte_xor (p : BitVec 9) (a b : Byte) : dblByte p (a ^^^ b) = dblByte p a ^^^ dblByte p b := by
  simp only [dblByte_eq, BitVec.shiftLeft_xor_distrib, BitVec.msb_xor, ite_xor]
  ac_rfl

theorem dblByte_zero (p : BitVec 9) : dblByte p 0 = 0 := by simp [dblByte_eq]

theorem dblByte_one (p : BitVec 9) : dblByte p 1 = 2 := by simp [dblByte_eq]

/-- With constant term 1 doubling loses nothing: bit 0 of the double tells what was shifted out. -/
theorem dblByte_eq_zero {p : BitVec 9} (hp : p.getLsbD 0 = true) {a : Byte} (h : dblByte p a = 0) : a = 0 := by
  rw [dblByte_eq] at h
  have hmsb : a.msb = false := by
    cases hm : a.msb with
    | false => rfl
    | true =>
      have hbit : ((a <<< 1) ^^^ p.setWidth 8).getLsbD 0 = true := by simpa using hp
      rw [hm, if_pos rfl] at h
      simp [h] at hbit
  have hshift : a <<< 1 = 0 := by simpa [hmsb] using h
  have htop : 2 * a.toNat < 2 ^ 8 := BitVec.msb_eq_false_iff_two_mul_lt.1 hmsb
  have hnat := congrArg BitVec.toNat hshift
  simp only [BitVec.toNat_shiftLeft, Nat.shiftLeft_eq, BitVec.ofNat_eq_ofNat, BitVec.toNat_ofNat] at hnat
  apply BitVec.eq_of_toNat_eq
  simp only [BitVec.ofNat_eq_ofNat, BitVec.toNat_ofNat]
  omega

theorem dblByte_injective {p : BitVec 9} (hp : p.getLsbD 0 = true) : Function.Injective (dblByte p) := by
  intro a b h
  have hzero : dblByte p (a ^^^ b) = 0 := (dblByte_xor p a b).trans (h ▸ BitVec.xor_self)
  exact BitVec.xor_eq_zero_iff.1 (dblByte_eq_zero hp hzero)

theorem iterate_dblByte_zero (p : BitVec 9) (n : Nat) : (dblByte p)^[n] 0 = 0 :=
  Function.iterate_fixed (dblByte_zero p) n

theorem iterate_dblByte_xor (p : BitVec 9) (n : Nat) (a b : Byte) :
    (dblByte p)^[n] (a ^^^ b) = (dblByte p)^[n] a ^^^ (dblByte p)^[n] b := by
  induction n generalizing a b with
  | zero => rfl
  | succ n ih => rw [Function.iterate_succ_apply, dblByte_xor, ih]; rfl

/-! ### LOG and ANTILOG number the powers of doubling (R49, R50) -/

/-- `a` doubled `n` times with the polynomial in POLY. -/
def State.dblTimes (s : State) (n : Nat) (a : Byte) : Byte := (dblByte s.poly9)^[n] a

theorem dblTimes_zero (s : State) (n : Nat) : s.dblTimes n 0 = 0 := iterate_dblByte_zero _ n

theorem dblTimes_xor (s : State) (n : Nat) (a b : Byte) : s.dblTimes n (a ^^^ b) = s.dblTimes n a ^^^ s.dblTimes n b :=
  iterate_dblByte_xor _ n a b

theorem dblTimes_dblTimes (s : State) (m n : Nat) (a : Byte) : s.dblTimes m (s.dblTimes n a) = s.dblTimes (m + n) a :=
  (Function.iterate_add_apply _ m n a).symm

section
variable {s : State} (h : FieldTables s)
include h

/-- Every non-zero byte is 1 doubled as often as its LOG says. -/
theorem FieldTables.dblTimes_logAt {v : Byte} (hv : v ≠ 0) : s.dblTimes (s.logAt v).toNat 1 = v :=
  (h.antilogAt_eq_iterate (h.logLt v hv)).symm.trans (h.antilogLog v hv)

/-- 1 doubled 255 times is a non-zero byte, so one of the 255 met before; were it not the first, the one before it
would have been met twice. -/
theorem FieldTables.dblTimes_255_one : s.dblTimes 255 1 = 1 := by
  have hstep : s.dblTimes 255 1 = dblByte s.poly9 (s.antilogAt 254) := by
    rw [h.antilogAt_eq_iterate le_rfl, ← Function.iterate_succ_apply' (dblByte s.poly9)]
    rfl
  have hne : s.dblTimes 255 1 ≠ 0 := fun hzero => by
    have hprev : s.antilogAt 254 = 0 := dblByte_eq_zero h.polyLow (hstep ▸ hzero)
    have hlog := h.logAntilog 254 le_rfl
    rw [hprev, h.logZero] at hlog
    exact absurd hlog (by decide)
  obtain ⟨j, hj⟩ : ∃ j, j = (s.logAt (s.dblTimes 255 1)).toNat := ⟨_, rfl⟩
  have hlt : j ≤ 254 := hj ▸ h.logLt _ hne
  have hmet : s.antilogAt j = s.dblTimes 255 1 := hj ▸ h.antilogLog _ hne
  cases j with
  | zero => rw [← hmet, h.first]
  | succ j =>
    have hdouble : dblByte s.poly9 (s.antilogAt j) = dblByte s.poly9 (s.antilogAt 254) := by
      rw [← hstep, ← hmet, h.doubles (j + 1) (by omega) hlt, Nat.add_sub_cancel]
    have hlog := congrArg (fun v => (s.logAt v).toNat) (dblByte_injective h.polyLow hdouble)
    simp only [h.logAntilog j (by omega), h.logAntilog 254 le_rfl] at hlog
    omega

/-- Doubling 255 times changes no byte. -/
theorem FieldTables.dblTimes_255 (a : Byte) : s.dblTimes 255 a = a := by
  by_cases ha : a = 0
  · rw [ha, dblTimes_zero]
  · calc s.dblTimes 255 a
        = s.dblTimes 255 (s.dblTimes (s.logAt a).toNat 1) := by rw [h.dblTimes_logAt ha]
      _ = s.dblTimes (s.logAt a).toNat (s.dblTimes 255 1) := by
          rw [dblTimes_dblTimes, dblTimes_dblTimes, Nat.add_comm]
      _ = a := by rw [h.dblTimes_255_one, h.dblTimes_logAt ha]

theorem FieldTables.dblTimes_mod (n : Nat) (a : Byte) : s.dblTimes (n % 255) a = s.dblTimes n a :=
  Function.IsPeriodicPt.iterate_mod_apply (h.dblTimes_255 a) n

/-- ANTILOG as far as its wrap goes (R50). -/
theorem FieldTables.antilogAt_eq_dblTimes {n : Nat} (hn : n ≤ 509) : s.antilogAt n = s.dblTimes n 1 := by
  by_cases hlt : n ≤ 254
  · exact h.antilogAt_eq_iterate hlt
  · have hwrap : n = 255 + (n - 255) := by omega
    rw [h.wraps n (by omega) hn, h.antilogAt_eq_iterate (by omega)]
    conv_rhs => rw [hwrap, ← dblTimes_dblTimes, h.dblTimes_255]
    rfl

theorem FieldTables.logAt_dblTimes_one (n : Nat) : (s.logAt (s.dblTimes n 1)).toNat = n % 255 := by
  have hlt : n % 255 ≤ 254 := by omega
  rw [← h.dblTimes_mod, ← h.antilogAt_eq_dblTimes (by omega), h.logAntilog _ hlt]

theorem FieldTables.dblTimes_ne_zero {n : Nat} {a : Byte} (ha : a ≠ 0) : s.dblTimes n a ≠ 0 := by
  have hinj : Function.Injective (dblByte s.poly9)^[n] := (dblByte_injective h.polyLow).iterate n
  exact fun hzero => ha (hinj (hzero.trans (dblTimes_zero s n).symm))

/-- Multiplying by `y` is doubling `LOG[y]` times (R51). -/
theorem FieldTables.mulAt_eq_dblTimes (hmd : MulDivTables s) {y : Byte} (hy : y ≠ 0) (x : Byte) :
    s.mulAt y x = s.dblTimes (s.logAt y).toNat x := by
  by_cases hx : x = 0
  · rw [hx, hmd.mulZero y 0 (.inr rfl), dblTimes_zero]
  · have hlogx := h.logLt x hx
    have hlogy := h.logLt y hy
    rw [hmd.mul y x hy hx, h.antilogAt_eq_dblTimes (by omega), Nat.add_comm, ← dblTimes_dblTimes,
      h.dblTimes_logAt hx]

/-- Dividing by `y` is doubling `255 - LOG[y]` times (R52). -/
theorem FieldTables.divAt_eq_dblTimes (hmd : MulDivTables s) {y : Byte} (hy : y ≠ 0) (x : Byte) :
    s.divAt y x = s.dblTimes (255 - (s.logAt y).toNat) x := by
  by_cases hx : x = 0
  · rw [hx, hmd.divZero y 0 (.inr rfl), dblTimes_zero]
  · have hlogx := h.logLt x hx
    rw [hmd.div y x hy hx, h.antilogAt_eq_dblTimes (by omega), Nat.add_comm, ← dblTimes_dblTimes,
      h.dblTimes_logAt hx]

/-- The sentinel in `LOG[0]` takes every sum it is in to the zeros of ANTILOG (R49, R50). -/
theorem FieldTables.antilogAt_add_logZero {n : Nat} (hn : n ≤ 512) :
    s.antilogAt ((s.logAt 0).toNat + n) = 0 := by
  rw [h.logZero]
  change s.antilogAt (512 + n) = 0
  exact h.pads _ (by omega) (by omega)

theorem FieldTables.logAt_le (v : Byte) : (s.logAt v).toNat ≤ 512 := by
  by_cases hv : v = 0
  · rw [hv, h.logZero]
    rfl
  · exact (h.logLt v hv).trans (by decide)

end

/-! ### The laws -/

section
variable {s : State} (h : FieldTables s) (hmd : MulDivTables s)

include hmd in
theorem MulDivTables.mulAt_comm (a b : Byte) : s.mulAt b a = s.mulAt a b := by
  by_cases hzero : b = 0 ∨ a = 0
  · rw [hmd.mulZero b a hzero, hmd.mulZero a b hzero.symm]
  · obtain ⟨hb, ha⟩ := not_or.1 hzero
    rw [hmd.mul b a hb ha, hmd.mul a b ha hb, Nat.add_comm]

include h hmd

theorem FieldTables.mulAt_one (a : Byte) : s.mulAt 1 a = a := by
  have hlog : (s.logAt 1).toNat = 0 := h.logAt_dblTimes_one 0
  rw [h.mulAt_eq_dblTimes hmd (by decide), hlog]
  rfl

/-- A product divided by its non-zero factor: 255 doublings in all. -/
theorem FieldTables.divAt_mulAt {b : Byte} (hb : b ≠ 0) (a : Byte) : s.divAt b (s.mulAt b a) = a := by
  have hlog := h.logLt b hb
  rw [h.divAt_eq_dblTimes hmd hb, h.mulAt_eq_dblTimes hmd hb, dblTimes_dblTimes, Nat.sub_add_cancel (by omega),
    h.dblTimes_255]

theorem FieldTables.mulAt_eq_zero {a b : Byte} (hab : s.mulAt b a = 0) : a = 0 ∨ b = 0 := by
  by_cases hb : b = 0
  · exact .inr hb
  · left
    rw [← h.divAt_mulAt hmd hb a, hab, hmd.divZero b 0 (.inr rfl)]

theorem FieldTables.mulAt_xor (c a b : Byte) : s.mulAt c (a ^^^ b) = s.mulAt c a ^^^ s.mulAt c b := by
  by_cases hc : c = 0
  · simp only [hc, hmd.mulZero 0 _ (.inl rfl)]
    rfl
  · simp only [h.mulAt_eq_dblTimes hmd hc, dblTimes_xor]

/-- The log of a product of non-zero bytes is the sum of their logs, modulo 255. -/
theorem FieldTables.logAt_mulAt {a b : Byte} (ha : a ≠ 0) (hb : b ≠ 0) :
    (s.logAt (s.mulAt b a)).toNat = ((s.logAt a).toNat + (s.logAt b).toNat) % 255 := by
  have hproduct : s.mulAt b a = s.dblTimes ((s.logAt b).toNat + (s.logAt a).toNat) 1 := by
    rw [h.mulAt_eq_dblTimes hmd hb, ← dblTimes_dblTimes, h.dblTimes_logAt ha]
  rw [hproduct, h.logAt_dblTimes_one, Nat.add_comm]

theorem FieldTables.mulAt_assoc (a b c : Byte) : s.mulAt c (s.mulAt b a) = s.mulAt (s.mulAt c b) a := by
  by_cases hc : c = 0
  · simp only [hc, hmd.mulZero 0 _ (.inl rfl)]
  by_cases hb : b = 0
  · simp only [hb, hmd.mulZero 0 _ (.inl rfl), hmd.mulZero c 0 (.inr rfl)]
  have hcb : s.mulAt c b ≠ 0 := fun hzero => (h.mulAt_eq_zero hmd hzero).elim hb hc
  calc s.mulAt c (s.mulAt b a)
      = s.dblTimes ((s.logAt c).toNat + (s.logAt b).toNat) a := by
        rw [h.mulAt_eq_dblTimes hmd hc, h.mulAt_eq_dblTimes hmd hb, dblTimes_dblTimes]
    _ = s.mulAt (s.mulAt c b) a := by
        rw [h.mulAt_eq_dblTimes hmd hcb, h.logAt_mulAt hmd hb hc, h.dblTimes_mod, Nat.add_comm]

/-- 2 is 1 doubled, so the product by 2 is doubling. -/
theorem FieldTables.mulAt_two (a : Byte) : s.mulAt 2 a = dblByte s.poly9 a := by
  have hlog : (s.logAt 2).toNat = 1 := by
    rw [← dblByte_one s.poly9]
    exact h.logAt_dblTimes_one 1
  rw [h.mulAt_eq_dblTimes hmd (by decide), hlog]
  rfl

/-- `DIV[b][1]`, which INV holds, is the inverse. -/
theorem FieldTables.mulAt_divAt_one {b : Byte} (hb : b ≠ 0) (a : Byte) : s.mulAt (s.divAt b 1) a = s.divAt b a := by
  have hinv : s.divAt b 1 = s.dblTimes (255 - (s.logAt b).toNat) 1 := h.divAt_eq_dblTimes hmd hb 1
  have hne : s.divAt b 1 ≠ 0 := hinv ▸ h.dblTimes_ne_zero (by decide)
  rw [h.mulAt_eq_dblTimes hmd hne, hinv, h.logAt_dblTimes_one, h.dblTimes_mod, h.divAt_eq_dblTimes hmd hb]

theorem FieldTables.divAt_self {a : Byte} (ha : a ≠ 0) : s.divAt a a = 1 := by
  have hproduct : s.mulAt a 1 = a := (hmd.mulAt_comm 1 a).trans (h.mulAt_one hmd a)
  calc s.divAt a a = s.divAt a (s.mulAt a 1) := by rw [hproduct]
    _ = 1 := h.divAt_mulAt hmd ha 1

end

/-- With MULDIV_RDY 1, LOG, ANTILOG, MUL and DIV all hold their tables (R45). -/
theorem TablesHold.fieldTables {s : State} (h : TablesHold s) (hr : s.flag .mulDivRdy = true) : FieldTables s :=
  h.field (h.order.mulDiv hr)

/-! ### The statements -/

/-- Settles O53: with a zero operand both paths give 0, else they read the same entry of ANTILOG. -/
theorem logPathEqualsTablePath : Obligations.LogPathEqualsTablePath := by
  intro s htables hr a b
  have h := htables.fieldTables hr
  have hmd := htables.mulDiv hr
  constructor
  · by_cases ha : a = 0
    · rw [ha, h.antilogAt_add_logZero (h.logAt_le b), hmd.mulZero b 0 (.inr rfl)]
    by_cases hb : b = 0
    · rw [hb, Nat.add_comm, h.antilogAt_add_logZero (h.logAt_le a), hmd.mulZero 0 a (.inl rfl)]
    · exact (hmd.mul b a hb ha).symm
  · intro hb
    by_cases ha : a = 0
    · rw [ha, h.antilogAt_add_logZero (by omega), hmd.divZero b 0 (.inr rfl)]
    · exact (hmd.div b a hb ha).symm

/-- Settles O54. -/
theorem documentedFieldLawsHold : Obligations.DocumentedFieldLawsHold := by
  intro s htables hr a b
  have h := htables.fieldTables hr
  have hmd := htables.mulDiv hr
  exact ⟨hmd.mulAt_comm a b, h.mulAt_one hmd a, fun hb => h.divAt_mulAt hmd hb a, hmd.mulZero 0 a (.inl rfl)⟩

/-- Settles O55: each law is one about numbers of doublings. -/
theorem theBytesAreAField : Obligations.TheBytesAreAField := by
  intro s htables hr hinvRdy
  have h := htables.fieldTables hr
  have hmd := htables.mulDiv hr
  have hquotient : ∀ a b : Byte, b ≠ 0 → s.divAt b a = s.mulAt (s.invAt b) a := fun a b hb => by
    rw [htables.inv hinvRdy b hb, h.mulAt_divAt_one hmd hb]
  have hdouble : s.mulAt 2 = dblByte s.poly9 := funext (h.mulAt_two hmd)
  refine ⟨h.mulAt_assoc hmd, fun a b c => h.mulAt_xor hmd c a b, fun a ha => ?_, hquotient,
    fun a b => h.mulAt_eq_zero hmd, fun a => (h.mulAt_two hmd a).symm, fun a b => h.logAt_mulAt hmd,
    fun e he => ?_⟩
  · rw [← hquotient a a ha, h.divAt_self hmd ha]
  · rw [hdouble, h.antilogAt_eq_iterate he]

end Sys2Proof.Machine
end

section
/-! Division by zero (R271 code 3): what the remaining commands answer when they are ready and their operands are in
range, one equation each, and which of them raise DivZero. -/

namespace Sys2Proof.Machine

open Sys2Proof.Claims

/-! ### Commands that read or write one value -/

section
variable {s : State} {ra rb : Reg}

theorem exec_popc (rd : Reg) (ha : (s.reg ra).toNat ≤ 255) :
    exec (.popc rd ra) s = .next (s.setReg rd (BitVec.ofNat 32 (popcount (byteOf s ra)))) := by
  simp only [exec, execPopc, fv_eq_byteOf ha, except_bind_ok, except_pure_eq, finish_ok]

theorem exec_bwcalc (rd : Reg) (hr : s.flag .mulDivRdy = true) (ha : (s.reg ra).toNat ≤ 255) :
    exec (.bwcalc rd ra) s = .next (s.setReg rd (BitVec.ofNat 32 (s.weightOf (byteOf s ra)))) := by
  simp only [exec, execBwcalc, hr, needReady_true, fv_eq_byteOf ha, except_bind_ok, except_pure_eq, finish_ok]

theorem exec_bwlut (rd : Reg) (hr : s.flag .weightRdy = true) (ha : (s.reg ra).toNat ≤ 255) :
    exec (.bwlut rd ra) s = .next (s.setReg rd ((s.weightAt (byteOf s ra)).setWidth 32)) := by
  simp only [exec, execBwlut, hr, needReady_true, fv_eq_byteOf ha, except_bind_ok, except_pure_eq, finish_ok]

theorem exec_ldx (rd : Reg) (ha : (s.reg ra).toNat ≤ 255) :
    exec (.ldx rd ra) s = .next (s.setReg rd ((s.xAt (s.reg ra).toNat).setWidth 32)) := by
  simp only [exec, execLdx, upTo_ok ha, except_bind_ok, except_pure_eq, finish_ok]

theorem exec_ldy (rd : Reg) (ha : (s.reg ra).toNat ≤ 255) :
    exec (.ldy rd ra) s = .next (s.setReg rd ((s.yAt (s.reg ra).toNat).setWidth 32)) := by
  simp only [exec, execLdy, upTo_ok ha, except_bind_ok, except_pure_eq, finish_ok]

theorem exec_stx (ha : (s.reg ra).toNat ≤ 255) (hb : (s.reg rb).toNat ≤ 255) :
    exec (.stx ra rb) s = .next (s.setX (s.reg ra).toNat (byteOf s rb)) := by
  simp only [exec, execStx, upTo_ok ha, fv_eq_byteOf hb, except_bind_ok, except_pure_eq, finish_ok]

theorem exec_sty (ha : (s.reg ra).toNat ≤ 255) (hb : (s.reg rb).toNat ≤ 255) :
    exec (.sty ra rb) s = .next (s.setY (s.reg ra).toNat (byteOf s rb)) := by
  simp only [exec, execSty, upTo_ok ha, fv_eq_byteOf hb, except_bind_ok, except_pure_eq, finish_ok]

/-! ### The commands of the CauchyMatrixBuilder (R206 to R215) -/

section
variable (hd : DimsLegal s) (hdim : s.flag .dimRdy = true)
include hd hdim

theorem exec_cmones (rd : Reg) (hweight : s.flag .weightRdy = true) (ha : (s.reg ra).toNat ≤ s.k) :
    exec (.cmones rd ra) s = .next (s.setReg rd (BitVec.ofNat 32
      ((List.range s.m).map fun r => s.rowWeight ((s.matRow r).take (s.reg ra).toNat)).sum)) := by
  simp only [exec, execCmones, hweight, hdim, Bool.and_self, needReady_true, upTo_ok ha,
    needElements_ok (matBytes_le hd hdim), except_bind_ok, except_pure_eq, finish_ok]

theorem exec_cmraw (hmulDiv : s.flag .mulDivRdy = true) (hinv : s.flag .invRdy = true) :
    exec .cmraw s = if s.vectorsMeet then .next (raise .divZero (encode .cmraw) s)
      else .next (s.storeMat 0 (rawBytes s)) := by
  simp only [exec, execCmraw, hmulDiv, hinv, hdim, Bool.and_self, needReady_true,
    needElements_ok (matBytes_le hd hdim), except_bind_ok, except_pure_eq]
  cases s.vectorsMeet <;> rfl

theorem exec_cmcanon (hmulDiv : s.flag .mulDivRdy = true) (hweight : s.flag .weightRdy = true) :
    exec .cmcanon s = if !s.lowerRows.all fun row => row.all fun v => v != 0 then
        .next (raise .divZero (encode .cmcanon) s)
      else .next (canonState s) := by
  simp only [exec, execCmcanon, hmulDiv, hweight, hdim, Bool.and_self, needReady_true,
    needElements_ok (matBytes_le hd hdim), except_bind_ok, except_pure_eq]
  cases s.lowerRows.all fun row => row.all fun v => v != 0 <;> rfl

end

end

/-- R208 in the words of the statements. -/
theorem vectorsMeet_eq_true_iff {s : State} : s.vectorsMeet = true ↔ dividesByZero s .cmraw := by
  simp only [State.vectorsMeet, dividesByZero, List.any_eq_true, List.mem_range, beq_iff_eq]
  constructor
  · rintro ⟨y, hy, x, hx, hmeet⟩
    exact ⟨x, y, hx, hy, hmeet⟩
  · rintro ⟨x, y, hx, hy, hmeet⟩
    exact ⟨y, hy, x, hx, hmeet⟩

/-- R211 in the words of the statements: some cell of the rows `1..M-1` is 0. -/
theorem lowerRows_have_zero_iff {s : State} :
    (!s.lowerRows.all fun row => row.all fun v => v != 0) = true ↔ dividesByZero s .cmcanon := by
  simp only [State.lowerRows, State.matRow, State.matIndex, dividesByZero, List.all_map, Bool.not_eq_true',
    List.all_eq_false, List.mem_range'_1, List.mem_range, Function.comp_apply, Bool.not_eq_true, bne_eq_false_iff_eq]
  constructor
  · rintro ⟨y, hy, x, hx, hzero⟩
    exact ⟨y, x, hy.1, by omega, hx, hzero⟩
  · rintro ⟨y, x, hlo, hhi, hx, hzero⟩
    exact ⟨y, ⟨hlo, by omega⟩, x, hx, hzero⟩

/-! ### Which fault a running engine enters -/

section
variable {i : Instr} {s t : State} {f g : EngineFault}

/-- A command that completes on a running engine raises no fault. -/
theorem exec_ne_raise_of_completes (h : exec i s = .next t) (ht : t.flag .fault = false) :
    exec i s ≠ .next (raise f (encode i) s) := by
  intro hraise
  have htf : t = raise f (encode i) s := Host.Outcome.next.inj (h.symm.trans hraise)
  simp [htf] at ht

theorem exec_ne_raise_of_raises (h : exec i s = .next (raise g (encode i) s)) (hgf : g ≠ f) :
    exec i s ≠ .next (raise f (encode i) s) :=
  fun hraise => hgf (raise_inj.1 (Host.Outcome.next.inj (h.symm.trans hraise)))

/-- A command that raises a fault on one condition, and else completes, raises it on that condition alone. -/
theorem exec_eq_raise_iff_of_ite {c : Prop} [Decidable c]
    (h : exec i s = if c then .next (raise f (encode i) s) else .next t) (ht : t.flag .fault = false) :
    exec i s = .next (raise f (encode i) s) ↔ c := by
  by_cases hc : c
  · exact iff_of_true (h.trans (if_pos hc)) hc
  · exact iff_of_false (exec_ne_raise_of_completes (h.trans (if_neg hc)) ht) hc

end

section
variable {s : State} (hrun : s.flag .fault = false)
include hrun

theorem exec_rdcsr_ne_divZero (rd : Reg) (csr : Imm16) :
    exec (.rdcsr rd csr) s ≠ .next (raise .divZero (encode (.rdcsr rd csr)) s) := by
  have h := exec_rdcsr rd csr s
  cases hcsr : s.csr csr.toNat with
  | none =>
    rw [hcsr, Option.elim_none] at h
    exact exec_ne_raise_of_raises h (by decide)
  | some v =>
    rw [hcsr, Option.elim_some] at h
    exact exec_ne_raise_of_completes h hrun

theorem exec_gfbuild_ne_divZero (idx : Imm16) :
    exec (.gfbuild idx) s ≠ .next (raise .divZero (encode (.gfbuild idx)) s) := by
  have hcfg : EngineFault.cfgPoly ≠ .divZero := by decide
  cases hentry : s.catalog[idx.toNat]? with
  | none => exact exec_ne_raise_of_raises (exec_gfbuild_of_noEntry hentry) hcfg
  | some e =>
    have h := exec_gfbuild_of_entry hentry
    by_cases husable : usableEntry e = true
    · exact exec_ne_raise_of_completes (h.trans (if_pos husable)) (by simp [gfbuildState, hrun])
    · exact exec_ne_raise_of_raises (h.trans (if_neg husable)) hcfg

theorem exec_setdim_ne_divZero (imm : Imm16) :
    exec (.setdim imm) s ≠ .next (raise .divZero (encode (.setdim imm)) s) := by
  have h := exec_setdim imm s
  by_cases hlegal : legalDims (imm.toNat % 256) (imm.toNat / 256) = true
  · exact exec_ne_raise_of_completes (h.trans (if_pos hlegal)) (by simp [setdimState, hrun])
  · exact exec_ne_raise_of_raises (h.trans (if_neg hlegal)) (by decide)

end

/-- The first flag of a ready command's row (R273); most rows have no other. -/
theorem flag_of_ready {i : Instr} {s : State} {f : Flag} {fs : List Flag} (h : ready i s)
    (hi : requiredFlags i = f :: fs) : s.flag f = true :=
  h f (hi ▸ List.mem_cons_self)

/-- Settles O17, command by command: each equation says whether the command divides, and by what. -/
theorem divZeroExactlyWhereADivisorIsZero : Obligations.DivZeroExactlyWhereADivisorIsZero := by
  intro i s hrun hd hready hok
  have completes : ∀ {t}, exec i s = .next t → t.flag .fault = false → ¬ dividesByZero s i →
      (exec i s = .next (raise .divZero (encode i) s) ↔ dividesByZero s i) :=
    fun h ht hi => iff_of_false (exec_ne_raise_of_completes h ht) hi
  cases i with
  | gfdiv rd ra rb =>
    obtain ⟨ha, hb⟩ := hok
    exact exec_eq_raise_iff_of_ite (c := s.reg rb = 0) (exec_gfdiv rd (flag_of_ready hready rfl) ha hb) hrun
  | gfdivl rd ra rb =>
    obtain ⟨ha, hb⟩ := hok
    exact exec_eq_raise_iff_of_ite (c := s.reg rb = 0) (exec_gfdivl rd (flag_of_ready hready rfl) ha hb) hrun
  | gfinv rd ra =>
    exact exec_eq_raise_iff_of_ite (c := s.reg ra = 0) (exec_gfinv rd (flag_of_ready hready rfl) hok) hrun
  | cmraw =>
    have hflags : s.flag .mulDivRdy = true ∧ s.flag .invRdy = true ∧ s.flag .dimRdy = true := by
      simpa [ready, requiredFlags] using hready
    obtain ⟨hmulDiv, hinv, hdim⟩ := hflags
    exact (exec_eq_raise_iff_of_ite (exec_cmraw hd hdim hmulDiv hinv) hrun).trans vectorsMeet_eq_true_iff
  | cmcanon =>
    have hflags : s.flag .mulDivRdy = true ∧ s.flag .weightRdy = true ∧ s.flag .dimRdy = true := by
      simpa [ready, requiredFlags] using hready
    obtain ⟨hmulDiv, hweight, hdim⟩ := hflags
    exact (exec_eq_raise_iff_of_ite (exec_cmcanon hd hdim hmulDiv hweight) hrun).trans lowerRows_have_zero_iff
  | rdcsr rd csr => exact iff_of_false (exec_rdcsr_ne_divZero hrun rd csr) id
  | gfbuild idx => exact iff_of_false (exec_gfbuild_ne_divZero hrun idx) id
  | setdim imm => exact iff_of_false (exec_setdim_ne_divZero hrun imm) id
  | nop => exact completes rfl hrun id
  | li rd imm => exact completes rfl hrun id
  | mov rd ra => exact completes rfl hrun id
  | mdbuild => exact completes (exec_mdbuild (flag_of_ready hready rfl)) (by simp [hrun]) id
  | invbuild => exact completes (exec_invbuild (flag_of_ready hready rfl)) (by simp [hrun]) id
  | wtbuild => exact completes (exec_wtbuild (flag_of_ready hready rfl)) (by simp [hrun]) id
  | gfadd rd ra rb => exact completes (exec_gfadd rd hok.1 hok.2) hrun id
  | gfdbl rd ra => exact completes (exec_gfdbl rd (flag_of_ready hready rfl) hok) hrun id
  | gflog rd ra => exact completes (exec_gflog rd (flag_of_ready hready rfl) hok) hrun id
  | gfexp rd ra => exact completes (exec_gfexp rd (flag_of_ready hready rfl) hok) hrun id
  | gfmul rd ra rb => exact completes (exec_gfmul rd (flag_of_ready hready rfl) hok.1 hok.2) hrun id
  | gfmull rd ra rb => exact completes (exec_gfmull rd (flag_of_ready hready rfl) hok.1 hok.2) hrun id
  | popc rd ra => exact completes (exec_popc rd hok) hrun id
  | bwcalc rd ra => exact completes (exec_bwcalc rd (flag_of_ready hready rfl) hok) hrun id
  | bwlut rd ra => exact completes (exec_bwlut rd (flag_of_ready hready rfl) hok) hrun id
  | ldx rd ra => exact completes (exec_ldx rd hok) hrun id
  | ldy rd ra => exact completes (exec_ldy rd hok) hrun id
  | stx ra rb => exact completes (exec_stx hok.1 hok.2) hrun id
  | sty ra rb => exact completes (exec_sty hok.1 hok.2) hrun id
  | ldm rd ra rb => exact completes (exec_ldm hd (flag_of_ready hready rfl) hok.1 hok.2 rd) hrun id
  | stm ra rb rc =>
    obtain ⟨hrow, hcol, hv⟩ := hok
    exact completes (exec_stm hd (flag_of_ready hready rfl) hrow hcol hv) hrun id
  | cmones rd ra =>
    have hdim : s.flag .dimRdy = true := hready _ (List.mem_of_mem_getLast? rfl)
    exact completes (exec_cmones hd hdim rd (flag_of_ready hready rfl) hok) hrun id

end Sys2Proof.Machine
end

section
/-! The BitWeight unit (42_bitweight.md): the popcount as a count, the weight as the popcounts of eight doublings, and
the three commands that answer them. -/

namespace Sys2Proof.Machine

open Sys2Proof.Claims

/-! ### Counts of 1 bits (R170) -/

/-- Each of the eight bits is 1 in a byte or in its complement. -/
theorem ones_add_ones_not (v : Byte) : ones v + ones (~~~v) = 8 := by
  have hnot : ∀ i : Fin 8, (~~~v).getLsbD i.val = true ↔ ¬ v.getLsbD i.val = true := fun i => by
    simp [i.isLt]
  simp only [ones, hnot]
  exact Finset.card_filter_add_card_filter_not _

theorem ones_zero : ones 0 = 0 := by decide

theorem ones_pos {v : Byte} (hv : v ≠ 0) : 1 ≤ ones v := by
  have hbit : ∃ i : Fin 8, v.getLsbD i.val = true := by
    by_contra hnone
    refine hv (BitVec.eq_of_getLsbD_eq fun i hi => ?_)
    simpa using fun hset => hnone ⟨⟨i, hi⟩, hset⟩
  obtain ⟨i, hi⟩ := hbit
  exact Finset.card_pos.2 ⟨i, Finset.mem_filter.2 ⟨Finset.mem_univ i, hi⟩⟩

theorem ones_one_shiftLeft {j : Nat} (hj : j < 8) : ones ((1 : Byte) <<< j) = 1 := by
  have hbyte : ∀ j : Fin 8, ones ((1 : Byte) <<< j.val) = 1 := by decide
  exact hbyte ⟨j, hj⟩

/-- The bytes numbered from 0 to 255 are all bytes. -/
theorem sum_range_ofNat_byte (f : Byte → Nat) : ∑ n ∈ Finset.range 256, f (BitVec.ofNat 8 n) = ∑ v, f v := by
  rw [Finset.sum_range]
  refine Fintype.sum_equiv (BitVec.equivFin (m := 8)).toEquiv.symm _ _ fun i => congrArg f ?_
  exact BitVec.eq_of_toNat_eq (Nat.mod_eq_of_lt i.isLt)

/-- A byte and its complement have 8 bits set between them, so the mean over all bytes is 4. -/
theorem sum_ones : ∑ v : Byte, ones v = 1024 := by
  have hnot : ∑ v : Byte, ones (~~~v) = ∑ v : Byte, ones v :=
    Function.Bijective.sum_comp (e := fun v : Byte => ~~~v)
      (Function.Involutive.bijective fun _ => BitVec.not_not) ones
  have hboth : ∑ v : Byte, (ones v + ones (~~~v)) = 256 * 8 := by
    simp only [ones_add_ones_not, Finset.sum_const, Finset.card_univ, card_byte, smul_eq_mul]
  rw [Finset.sum_add_distrib, hnot] at hboth
  omega

/-! ### Doubling and the bits (R142) -/

/-- The powers of 2 below 256 shift nothing out, so no polynomial enters. -/
theorem iterate_dblByte_one (p : BitVec 9) {j : Nat} (hj : j < 8) : (dblByte p)^[j] 1 = (1 : Byte) <<< j := by
  induction j with
  | zero => rfl
  | succ j ih =>
    have hmsb : ((1 : Byte) <<< j).msb = false := by
      have hlow : ∀ j : Fin 7, ((1 : Byte) <<< j.val).msb = false := by decide
      exact hlow ⟨j, by omega⟩
    rw [Function.iterate_succ_apply', ih (by omega), dblByte_eq, hmsb, BitVec.shiftLeft_add]
    exact BitVec.xor_zero

theorem FieldTables.dblTimes_bijective {s : State} (h : FieldTables s) (n : Nat) : Function.Bijective (s.dblTimes n) :=
  Finite.injective_iff_bijective.1 ((dblByte_injective h.polyLow).iterate n)

/-! ### The weight (R171, R172) -/

section
variable {s : State} (h : FieldTables s) (hmd : MulDivTables s)
include h hmd

theorem FieldTables.weightOf_eq_sum (v : Byte) : s.weightOf v = ∑ j ∈ Finset.range 8, ones (s.dblTimes j v) := by
  have hdouble : s.mulAt 2 = dblByte s.poly9 := funext (h.mulAt_two hmd)
  rw [State.weightOf, weightLoop_eq_sum, hdouble]
  rfl

theorem FieldTables.weightOf_zero : s.weightOf 0 = 0 := by
  simp only [h.weightOf_eq_sum hmd, dblTimes_zero, ones_zero, Finset.sum_const_zero]

theorem FieldTables.weightOf_one : s.weightOf 1 = 8 := by
  rw [h.weightOf_eq_sum hmd]
  refine Finset.sum_eq_card_nsmul (s := Finset.range 8) (b := 1) fun j hj => ?_
  have hlt := Finset.mem_range.1 hj
  rw [State.dblTimes, iterate_dblByte_one _ hlt, ones_one_shiftLeft hlt]

/-- The eight values are non-zero bytes, and each has a bit set. -/
theorem FieldTables.le_weightOf {v : Byte} (hv : v ≠ 0) : 8 ≤ s.weightOf v := by
  rw [h.weightOf_eq_sum hmd]
  exact Finset.card_nsmul_le_sum (Finset.range 8) _ 1 fun _ _ => ones_pos (h.dblTimes_ne_zero hv)

/-- Every number of doublings permutes the bytes, so each of the eight columns has as many bits set as all bytes. -/
theorem FieldTables.sum_weightOf : ∑ v, s.weightOf v = 8192 := by
  have hcolumn : ∀ j, ∑ v, ones (s.dblTimes j v) = 1024 := fun j =>
    ((h.dblTimes_bijective j).sum_comp ones).trans sum_ones
  calc ∑ v, s.weightOf v
      = ∑ v, ∑ j ∈ Finset.range 8, ones (s.dblTimes j v) := by simp only [h.weightOf_eq_sum hmd]
    _ = ∑ j ∈ Finset.range 8, ∑ v, ones (s.dblTimes j v) := Finset.sum_comm
    _ = 8192 := by simp only [hcolumn, Finset.sum_const, Finset.card_range, smul_eq_mul]

end

/-! ### The statements -/

/-- Settles O30. -/
theorem popcAndBwcalcCountOnes : Obligations.PopcAndBwcalcCountOnes := by
  intro s rd ra ha
  constructor
  · rw [exec_popc rd ha, popcount_eq_ones]
  · intro hr
    rw [exec_bwcalc rd hr ha, State.weightOf, weightLoop_eq_sum]

/-- Settles O31. -/
theorem bwlutReadsWeight : Obligations.BwlutReadsWeight := fun _ rd _ => exec_bwlut rd

/-- Settles O56: every clause is one about the bits set in the eight doublings of a byte. -/
theorem weightValuesAndBounds : Obligations.WeightValuesAndBounds := by
  intro s htables hr
  have h := htables.fieldTables hr
  have hmd := htables.mulDiv hr
  exact ⟨h.weightOf_zero hmd, h.weightOf_one hmd, fun v hv => ⟨h.le_weightOf hmd hv, weightOf_le s v⟩,
    (sum_range_ofNat_byte s.weightOf).trans (h.sum_weightOf hmd)⟩

/-- Settles O57: a ready WEIGHT holds the weight that the loop computes (R54). -/
theorem bwlutEqualsBwcalc : Obligations.BwlutEqualsBwcalc := by
  intro s rd ra htables hmulDiv hweight ha
  have hentry : (s.weightAt (byteOf s ra)).setWidth 32 = BitVec.ofNat 32 (s.weightOf (byteOf s ra)) := by
    rw [← htables.weight hweight, BitVec.ofNat_toNat]
  rw [exec_bwlut rd hweight ha, exec_bwcalc rd hmulDiv ha, hentry]

end Sys2Proof.Machine
end

section
/-! The vectors X and Y (43_vector_matrix_access.md): an element after a write of one element, and what the write
leaves unchanged. -/

namespace Sys2Proof.Machine

open Sys2Proof.Claims

/-! ### One element written (R79) -/

theorem xAt_setX (s : State) (j i : Nat) (v : Byte) :
    (s.setX j v).xAt i = if i = j then v else s.xAt i := by
  simp only [State.xAt, setX_x, setX_resets, read?_store_one]
  split <;> rfl

theorem yAt_setY (s : State) (j i : Nat) (v : Byte) :
    (s.setY j v).yAt i = if i = j then v else s.yAt i := by
  simp only [State.yAt, setY_y, setY_resets, read?_store_one]
  split <;> rfl

theorem sameElementsBut_setX (s : State) (i : Nat) (v : Byte) :
    SameElementsBut (fun sp j => sp = .x ∧ j = i) s (s.setX i v) :=
  sameElementsBut_of (fun j _ hj => by rw [xAt_setX, if_neg fun h => hj ⟨rfl, h⟩])
    (fun _ _ _ => rfl) (fun _ _ _ => rfl)
    (fun _ => rfl) (fun _ => rfl) (fun _ _ => rfl) (fun _ _ => rfl) (fun _ => rfl) (fun _ => rfl)

theorem sameElementsBut_setY (s : State) (i : Nat) (v : Byte) :
    SameElementsBut (fun sp j => sp = .y ∧ j = i) s (s.setY i v) :=
  sameElementsBut_of (fun _ _ _ => rfl)
    (fun j _ hj => by rw [yAt_setY, if_neg fun h => hj ⟨rfl, h⟩]) (fun _ _ _ => rfl)
    (fun _ => rfl) (fun _ => rfl) (fun _ _ => rfl) (fun _ _ => rfl) (fun _ => rfl) (fun _ => rfl)

/-! ### The statements -/

/-- Settles O33. -/
theorem ldxAndLdyReadOneEntry : Obligations.LdxAndLdyReadOneEntry :=
  fun _ rd _ ha => ⟨exec_ldx rd ha, exec_ldy rd ha⟩

/-- Settles O34: an element written reads back, and no other element, register or CSR is part of the write. -/
theorem stxAndStyWriteOneEntry : Obligations.StxAndStyWriteOneEntry := by
  intro s ra rb i hi ha hb
  subst hi
  constructor
  · exact ⟨_, exec_stx ha hb, by rw [xAt_setX, if_pos rfl], sameElementsBut_setX s _ _,
      sameRegsBut_of_regs rfl none, fun _ _ => rfl, ⟨rfl, rfl, rfl, rfl⟩⟩
  · exact ⟨_, exec_sty ha hb, by rw [yAt_setY, if_pos rfl], sameElementsBut_setY s _ _,
      sameRegsBut_of_regs rfl none, fun _ _ => rfl, ⟨rfl, rfl, rfl, rfl⟩⟩

end Sys2Proof.Machine
end

section
/-! The matrix MAT by rows (R61): what its elements are after whole rows were written, and a row's sums as the sums
of its cells. -/

namespace Sys2Proof.Machine

/-! ### Whole rows written (R61, R79) -/

theorem matAt_storeMat_inside (s : State) {start j : Nat} {vs : List Byte} {v : Byte} (h : vs[j]? = some v) :
    (s.storeMat start vs).matAt (start + j) = v := by
  obtain ⟨hj, -⟩ := List.getElem?_eq_some_iff.1 h
  have hin : start ≤ start + j ∧ start + j < start + vs.length := by omega
  simp only [State.matAt, storeMat_mat, read?_store, if_pos hin, Nat.add_sub_cancel_left, h, Option.getD_some]

theorem matAt_storeMat_outside (s : State) {start i : Nat} {vs : List Byte}
    (h : ¬ (start ≤ i ∧ i < start + vs.length)) : (s.storeMat start vs).matAt i = s.matAt i := by
  simp only [State.matAt, storeMat_mat, storeMat_resets, read?_store, if_neg h]

/-- Lists of one length `k` laid end to end: element `i*k + j` is element `j` of list `i`. -/
theorem getElem?_flatMap_of_length {α β : Type} {k j : Nat} {f : α → List β} (hj : j < k) (l : List α)
    (hlen : ∀ a, (f a).length = k) (i : Nat) : (l.flatMap f)[i * k + j]? = l[i]?.bind fun a => (f a)[j]? := by
  induction l generalizing i with
  | nil => rfl
  | cons a l ih =>
    rw [List.flatMap_cons]
    cases i with
    | zero => rw [List.getElem?_append_left (by rw [hlen]; omega)]; simp
    | succ i =>
      have hskip : (i + 1) * k + j = (f a).length + (i * k + j) := by rw [hlen, Nat.succ_mul]; omega
      rw [hskip, List.getElem?_append_right (Nat.le_add_right _ _), Nat.add_sub_cancel_left, ih]
      rfl

section Rows
variable (s : State) {a n : Nat} {f : Nat → List Byte} (hlen : ∀ y, (f y).length = s.k)
include hlen

/-- Rows `a` to `a + n - 1` written in one: cell `(y, x)` is cell `x` of the row written for `y`. -/
theorem matAt_storeMat_rows {y x : Nat} {v : Byte} (hlo : a ≤ y) (hhi : y < a + n) (hx : x < s.k)
    (hv : (f y)[x]? = some v) :
    (s.storeMat (a * s.k) ((List.range' a n).flatMap f)).matAt (y * s.k + x) = v := by
  have hrow : (List.range' a n)[y - a]? = some y := by
    rw [List.getElem?_range' (by omega)]
    exact congrArg some (by omega)
  have hcell : ((List.range' a n).flatMap f)[(y - a) * s.k + x]? = some v := by
    rw [getElem?_flatMap_of_length hx _ hlen, hrow, Option.bind_some, hv]
  have hindex : y * s.k + x = a * s.k + ((y - a) * s.k + x) := by
    rw [← Nat.add_assoc, ← Nat.add_mul, Nat.add_sub_cancel' hlo]
  rw [hindex]
  exact matAt_storeMat_inside s hcell

theorem matAt_storeMat_rows_outside {i : Nat} (h : ¬ (a * s.k ≤ i ∧ i < (a + n) * s.k)) :
    (s.storeMat (a * s.k) ((List.range' a n).flatMap f)).matAt i = s.matAt i := by
  refine matAt_storeMat_outside s ?_
  simpa only [List.length_flatMap, hlen, List.map_const', List.sum_replicate, List.length_range', smul_eq_mul,
    ← Nat.add_mul] using h

end Rows

/-- A write to MAT changes no element of another space. -/
theorem sameElementsBut_storeMat (s : State) {start : Nat} {vs : List Byte} {P : Config.Space → Nat → Prop}
    (h : ∀ i, ¬ P .mat i → (s.storeMat start vs).matAt i = s.matAt i) : SameElementsBut P s (s.storeMat start vs) :=
  sameElementsBut_of (fun _ _ _ => rfl) (fun _ _ _ => rfl) (fun i _ => h i) (fun _ => rfl) (fun _ => rfl)
    (fun _ _ => rfl) (fun _ _ => rfl) (fun _ => rfl) (fun _ => rfl)

/-! ### Sums over a row -/

theorem sum_map_range (n : Nat) (f : Nat → Nat) : ((List.range n).map f).sum = ∑ x ∈ Finset.range n, f x := rfl

theorem sum_map_range' (a b : Nat) (f : Nat → Nat) :
    ((List.range' a (b - a)).map f).sum = ∑ y ∈ Finset.Ico a b, f y := rfl

end Sys2Proof.Machine
end

section
/-! The commands of the CauchyMatrixBuilder (44_cauchy_builder.md): the matrix each leaves, cell by cell, and what
follows from the field laws (R209, R214, R216). -/

namespace Sys2Proof.Machine

open Sys2Proof.Claims

variable {s : State}

/-! ### Quotients of non-zero field values (R160) -/

section
variable (h : FieldTables s)
include h

theorem FieldTables.logAt_dblTimes (n : Nat) {a : Byte} (ha : a ≠ 0) :
    (s.logAt (s.dblTimes n a)).toNat = (n + (s.logAt a).toNat) % 255 := by
  conv_lhs => rw [← h.dblTimes_logAt ha, dblTimes_dblTimes, h.logAt_dblTimes_one]

variable (hmd : MulDivTables s)
include hmd

theorem FieldTables.divAt_one (a : Byte) : s.divAt 1 a = a := by
  conv_lhs => rw [← h.mulAt_one hmd a, h.divAt_mulAt hmd (by decide)]

theorem FieldTables.divAt_ne_zero {a b : Byte} (ha : a ≠ 0) (hb : b ≠ 0) : s.divAt b a ≠ 0 := by
  rw [h.divAt_eq_dblTimes hmd hb]
  exact h.dblTimes_ne_zero ha

/-- A quotient is 1 only of a value by itself: division by `b` is injective. -/
theorem FieldTables.eq_of_divAt_eq_one {a b : Byte} (hb : b ≠ 0) (hab : s.divAt b a = 1) : a = b := by
  refine (h.dblTimes_bijective (255 - (s.logAt b).toNat)).injective ?_
  rw [← h.divAt_eq_dblTimes hmd hb, ← h.divAt_eq_dblTimes hmd hb, hab, h.divAt_self hmd hb]

/-- A common divisor cancels, for dividing both by `p` is doubling both equally often. -/
theorem FieldTables.divAt_divAt {p a : Byte} (hp : p ≠ 0) (ha : a ≠ 0) (b : Byte) :
    s.divAt (s.divAt p a) (s.divAt p b) = s.divAt a b := by
  have hloga := h.logLt a ha
  simp only [h.divAt_eq_dblTimes hmd hp, h.divAt_eq_dblTimes hmd (h.dblTimes_ne_zero ha), dblTimes_dblTimes,
    h.divAt_eq_dblTimes hmd ha, h.logAt_dblTimes _ ha]
  conv_lhs => rw [← h.dblTimes_mod]
  conv_rhs => rw [← h.dblTimes_mod]
  congr 1
  omega

end

/-! ### CMONES (R215) -/

theorem rowWeight_take_matRow {y c : Nat} (hc : c ≤ s.k) :
    s.rowWeight ((s.matRow y).take c) = ∑ x ∈ Finset.range c, (s.weightAt (s.matAt (y * s.k + x))).toNat := by
  simp only [State.rowWeight, State.matRow, State.matIndex, ← List.map_take, List.take_range, min_eq_left hc,
    List.map_map]
  rfl

/-- Settles O39. -/
theorem cmonesSumsAColumnPrefix : Obligations.CmonesSumsAColumnPrefix := by
  intro s rd ra hd hweight hdim ha
  simp only [exec_cmones hd hdim rd hweight ha, rowWeight_take_matRow ha, sum_map_range]

/-! ### CMRAW (R206) -/

theorem exec_cmraw_of_rawReady (hd : DimsLegal s) (hr : rawReady s) :
    exec .cmraw s = .next (s.storeMat 0 (rawBytes s)) := by
  have hapart : ¬ s.vectorsMeet = true := fun hmeet => by
    obtain ⟨x, y, hx, hy, heq⟩ := vectorsMeet_eq_true_iff.1 hmeet
    exact hr.disjoint x y hx hy heq
  rw [exec_cmraw hd hr.dim hr.mulDiv hr.inv, if_neg hapart]

/-- The raw matrix is its rows from row 0 on. -/
theorem storeMat_rawBytes (s : State) :
    s.storeMat 0 (rawBytes s) = s.storeMat (0 * s.k) ((List.range' 0 s.m).flatMap s.rawRow) := by
  rw [rawBytes, List.range_eq_range', Nat.zero_mul]

theorem rawRow_length (s : State) (y : Nat) : (s.rawRow y).length = s.k := by simp [State.rawRow]

theorem matAt_rawMatrix {y x : Nat} (hy : y < s.m) (hx : x < s.k) :
    (s.storeMat 0 (rawBytes s)).matAt (y * s.k + x) = if y = 0 then 1 else s.rawCell y x := by
  rw [storeMat_rawBytes]
  exact matAt_storeMat_rows s (rawRow_length s) y.zero_le (by omega) hx (by simp [State.rawRow, hx])

theorem matAt_rawMatrix_row_zero (hm : 1 ≤ s.m) {x : Nat} (hx : x < s.k) :
    (s.storeMat 0 (rawBytes s)).matAt x = 1 := by
  simpa using matAt_rawMatrix hm hx

theorem matAt_rawMatrix_lower {y x : Nat} (hlo : 1 ≤ y) (hy : y < s.m) (hx : x < s.k) :
    (s.storeMat 0 (rawBytes s)).matAt (y * s.k + x) = s.rawCell y x := by
  rw [matAt_rawMatrix hy hx, if_neg (by omega)]

theorem sameElementsBut_rawMatrix (s : State) :
    SameElementsBut (fun sp i => sp = .mat ∧ i < s.m * s.k) s (s.storeMat 0 (rawBytes s)) := by
  refine sameElementsBut_storeMat s fun i hi => ?_
  have hout : ¬ i < s.m * s.k := fun h => hi ⟨rfl, h⟩
  rw [storeMat_rawBytes]
  exact matAt_storeMat_rows_outside s (rawRow_length s) (by simp [hout])

/-- Settles O37. -/
theorem cmrawBuildsTheRawMatrix : Obligations.CmrawBuildsTheRawMatrix := by
  intro s hd hr
  obtain ⟨-, hm, -⟩ := hd hr.dim
  exact ⟨_, exec_cmraw_of_rawReady hd hr, fun _ => matAt_rawMatrix_row_zero hm, fun _ _ => matAt_rawMatrix_lower,
    sameElementsBut_rawMatrix s, sameRegsBut_of_regs rfl none, fun _ _ => rfl, ⟨rfl, rfl, rfl, rfl⟩⟩

theorem xAt_xor_yAt_ne_zero (hr : rawReady s) {y x : Nat} (hy : y < s.m) (hx : x < s.k) :
    s.xAt x ^^^ s.yAt y ≠ 0 :=
  fun hzero => hr.disjoint x y hx hy (BitVec.xor_eq_zero_iff.1 hzero)

/-- The cell in closed form (R207): `X[x] XOR Y[0]` divided by `X[x] XOR Y[y]`. -/
theorem rawCell_eq_divAt (ht : TablesHold s) (hr : rawReady s) {y x : Nat} (hy : y < s.m) (hx : x < s.k) :
    s.rawCell y x = s.divAt (s.xAt x ^^^ s.yAt y) (s.xAt x ^^^ s.yAt 0) := by
  have hmd := ht.mulDiv hr.mulDiv
  have hne := xAt_xor_yAt_ne_zero hr hy hx
  rw [State.rawCell, ht.inv hr.inv _ hne, hmd.mulAt_comm, (ht.fieldTables hr.mulDiv).mulAt_divAt_one hmd hne,
    BitVec.xor_comm (s.yAt 0)]

/-- Settles O58: by the closed form a cell is a quotient of non-zero values, and it is 1 only if they are equal. -/
theorem rawMatrixHasNoZeroCell : Obligations.RawMatrixHasNoZeroCell := by
  intro s t ht hd hr hexec
  obtain rfl := Host.Outcome.next.inj ((exec_cmraw_of_rawReady hd hr).symm.trans hexec)
  obtain ⟨-, hm, -⟩ := hd hr.dim
  have h := ht.fieldTables hr.mulDiv
  have hmd := ht.mulDiv hr.mulDiv
  refine ⟨fun x => matAt_rawMatrix_row_zero hm, fun y x hlo hy hx => ?_, fun hdistinct y x hlo hy hx hone => ?_⟩
  · rw [matAt_rawMatrix_lower hlo hy hx, rawCell_eq_divAt ht hr hy hx]
    exact h.divAt_ne_zero hmd (xAt_xor_yAt_ne_zero hr hm hx) (xAt_xor_yAt_ne_zero hr hy hx)
  · rw [matAt_rawMatrix_lower hlo hy hx, rawCell_eq_divAt ht hr hy hx] at hone
    have hequal := h.eq_of_divAt_eq_one hmd (xAt_xor_yAt_ne_zero hr hy hx) hone
    exact hdistinct 0 y hlo hy ((BitVec.xor_right_inj _).1 hequal)

/-! ### The pivot of a row (R210, R212) -/

theorem bestPivot_append (best : Option Pivot) (cs ds : List Pivot) :
    bestPivot best (cs ++ ds) = bestPivot (bestPivot best cs) ds := by
  induction cs generalizing best with
  | nil => cases best <;> rfl
  | cons c cs ih => cases best <;> exact ih _

/-- Of the candidates of `n + 1` columns the one chosen is that of the first column with the least total. -/
theorem bestPivot_map_range (c : Nat → Pivot) (n : Nat) :
    ∃ x < n + 1, bestPivot none ((List.range (n + 1)).map c) = some (c x) ∧
      (∀ z < n + 1, (c x).total ≤ (c z).total) ∧ ∀ z < x, (c x).total < (c z).total := by
  induction n with
  | zero => exact ⟨0, by omega, rfl, fun z hz => by rw [Nat.lt_one_iff.1 hz], fun z hz => by omega⟩
  | succ n ih =>
    obtain ⟨x, hx, hbest, hleast, hfirst⟩ := ih
    have hnext : bestPivot none ((List.range (n + 2)).map c) =
        some (if (c (n + 1)).total < (c x).total then c (n + 1) else c x) := by
      rw [List.range_succ, List.map_append, bestPivot_append, hbest]
      rfl
    rw [hnext]
    by_cases hlt : (c (n + 1)).total < (c x).total
    · rw [if_pos hlt]
      have hall : ∀ z < n + 1, (c (n + 1)).total < (c z).total := fun z hz => hlt.trans_le (hleast z hz)
      refine ⟨n + 1, by omega, rfl, fun z hz => ?_, hall⟩
      rcases Nat.lt_succ_iff_lt_or_eq.1 hz with hz | rfl
      · exact (hall z hz).le
      · exact le_rfl
    · rw [if_neg hlt]
      refine ⟨x, by omega, rfl, fun z hz => ?_, hfirst⟩
      rcases Nat.lt_succ_iff_lt_or_eq.1 hz with hz | rfl
      · exact hleast z hz
      · exact Nat.le_of_not_lt hlt

/-- The candidate of column `x` has the total of R210. -/
theorem candidates_matRow (s : State) (y : Nat) : s.candidates (s.matRow y) =
    (List.range s.k).map fun x => { value := s.matAt (y * s.k + x), total := pivotTotal s y x } := by
  simp only [State.candidates, State.matRow, State.matIndex, State.scaleRow, State.rowWeight, List.map_map]
  rfl

theorem isPivot_unique {y x x' : Nat} (h : isPivot s y x) (h' : isPivot s y x') : x = x' := by
  obtain ⟨hx, hleast, hfirst⟩ := h
  obtain ⟨hx', hleast', hfirst'⟩ := h'
  rcases Nat.lt_trichotomy x x' with hlt | heq | hlt
  · exact absurd (hfirst' x hlt) (Nat.not_lt.2 (hleast x' hx'))
  · exact heq
  · exact absurd (hfirst x' hlt) (Nat.not_lt.2 (hleast' x hx))

/-- A row of at least one cell is divided by its pivot, and its total is the pivot's. -/
theorem exists_isPivot_canonRow (hk : 1 ≤ s.k) (y : Nat) : ∃ x, isPivot s y x ∧
    s.canonRow (s.matRow y) = (s.scaleRow (s.matAt (y * s.k + x)) (s.matRow y), pivotTotal s y x) := by
  obtain ⟨n, hn⟩ := Nat.exists_eq_add_of_le' hk
  obtain ⟨x, hx, hbest, hleast, hfirst⟩ := bestPivot_map_range
    (fun x => { value := s.matAt (y * s.k + x), total := pivotTotal s y x }) n
  rw [← hn] at hx hbest hleast
  exact ⟨x, ⟨hx, hleast, hfirst⟩, by rw [State.canonRow, candidates_matRow, hbest]⟩

/-- A choice of pivot columns for all rows. -/
theorem exists_pivots (hk : 1 ≤ s.k) : ∃ pivot : Nat → Nat, ∀ y, isPivot s y (pivot y) :=
  ⟨fun y => (exists_isPivot_canonRow hk y).choose, fun y => (exists_isPivot_canonRow hk y).choose_spec.1⟩

theorem canonRow_of_isPivot {y x : Nat} (h : isPivot s y x) :
    s.canonRow (s.matRow y) = (s.scaleRow (s.matAt (y * s.k + x)) (s.matRow y), pivotTotal s y x) := by
  have hk : 1 ≤ s.k := Nat.one_le_of_lt h.1
  obtain ⟨x', hx', hrow⟩ := exists_isPivot_canonRow hk y
  rw [isPivot_unique h hx', hrow]

/-! ### CMCANON (R210) -/

theorem exec_cmcanon_of_canonReady (hd : DimsLegal s) (hr : canonReady s) :
    exec .cmcanon s = .next (canonState s) := by
  have hnonzero : ¬ (!s.lowerRows.all fun row => row.all fun v => v != 0) = true := fun hzero => by
    obtain ⟨y, x, hlo, hy, hx, hcell⟩ := lowerRows_have_zero_iff.1 hzero
    exact hr.nonzero y x hlo hy hx hcell
  rw [exec_cmcanon hd hr.dim hr.mulDiv hr.weight, if_neg hnonzero]

@[simp] theorem canonState_k (s : State) : (canonState s).k = s.k := rfl
@[simp] theorem canonState_m (s : State) : (canonState s).m = s.m := rfl
@[simp] theorem canonState_reg (s : State) (r : Reg) : (canonState s).reg r = s.reg r := rfl
@[simp] theorem canonState_flag (s : State) (f : Flag) : (canonState s).flag f = s.flag f := rfl
@[simp] theorem canonState_divAt (s : State) (y x : Byte) : (canonState s).divAt y x = s.divAt y x := rfl
@[simp] theorem canonState_weightAt (s : State) (v : Byte) : (canonState s).weightAt v = s.weightAt v := rfl

theorem DimsLegal.canonState (hd : DimsLegal s) : DimsLegal (canonState s) := hd

theorem sameRest_canonState (s : State) : SameRest s (canonState s) := ⟨rfl, rfl, rfl, rfl⟩

/-- CMCANON's write to MAT is its rows from row 1 on. -/
theorem canonState_matAt_eq (s : State) (i : Nat) : (canonState s).matAt i =
    (s.storeMat (1 * s.k) ((List.range' 1 (s.m - 1)).flatMap fun y => (s.canonRow (s.matRow y)).1)).matAt i := by
  simp only [canonState, setScore_matAt, canonRows, State.lowerRows, List.map_map, List.flatMap_map, Nat.one_mul,
    Function.comp_def]

theorem canonRow_matRow_length (s : State) (y : Nat) : (s.canonRow (s.matRow y)).1.length = s.k := by
  simp [canonRow_length, State.matRow]

theorem canonState_matAt {y x z : Nat} (hlo : 1 ≤ y) (hy : y < s.m) (hx : isPivot s y x) (hz : z < s.k) :
    (canonState s).matAt (y * s.k + z) = s.divAt (s.matAt (y * s.k + x)) (s.matAt (y * s.k + z)) := by
  rw [canonState_matAt_eq]
  refine matAt_storeMat_rows s (canonRow_matRow_length s) hlo (by omega) hz ?_
  rw [canonRow_of_isPivot hx]
  simp [State.scaleRow, State.matRow, State.matIndex, hz]

theorem canonState_matAt_outside (hm : 1 ≤ s.m) {i : Nat} (hi : ¬ (s.k ≤ i ∧ i < s.m * s.k)) :
    (canonState s).matAt i = s.matAt i := by
  rw [canonState_matAt_eq]
  exact matAt_storeMat_rows_outside s (canonRow_matRow_length s)
    (by rwa [Nat.one_mul, Nat.add_sub_cancel' hm])

theorem sameElementsBut_canonState {P : Config.Space → Nat → Prop}
    (h : ∀ i, ¬ P .mat i → (canonState s).matAt i = s.matAt i) : SameElementsBut P s (canonState s) :=
  sameElementsBut_of (fun _ _ _ => rfl) (fun _ _ _ => rfl) (fun i _ => h i) (fun _ => rfl) (fun _ => rfl)
    (fun _ _ => rfl) (fun _ _ => rfl) (fun _ => rfl) (fun _ => rfl)

theorem canonState_score {pivot : Nat → Nat} (h : ∀ y, isPivot s y (pivot y)) :
    (canonState s).score = BitVec.ofNat 32 (∑ y ∈ Finset.Ico 1 s.m, pivotTotal s y (pivot y)) := by
  simp only [canonState, setScore_score, canonRows, State.lowerRows, List.map_map, Function.comp_def,
    canonRow_of_isPivot (h _), sum_map_range']

theorem sameCsrsBut_canonState {l : List Nat} (h : 4 ∉ l → (canonState s).score = s.score) :
    SameCsrsBut l s (canonState s) :=
  sameCsrsBut_of (fun _ => rfl) (fun _ => rfl) (fun _ => rfl) (fun _ => rfl) h (fun _ => rfl) (fun _ => rfl)

/-- Settles O38. -/
theorem cmcanonDividesEachRowByItsFirstCheapestPivot :
    Obligations.CmcanonDividesEachRowByItsFirstCheapestPivot := by
  intro s hd hr
  obtain ⟨hk, hm, -⟩ := hd hr.dim
  obtain ⟨pivot, hpivot⟩ := exists_pivots hk
  exact ⟨_, exec_cmcanon_of_canonReady hd hr, pivot,
    fun y hlo hy => ⟨hpivot y, fun z => canonState_matAt hlo hy (hpivot y)⟩, canonState_score hpivot,
    sameElementsBut_canonState fun i hi => canonState_matAt_outside hm fun h => hi ⟨rfl, h⟩,
    sameRegsBut_of_regs rfl none, sameCsrsBut_canonState fun h => absurd (by simp) h, sameRest_canonState s⟩

/-! ### A second CMCANON (R214) -/

section
variable (ht : TablesHold s) (hd : DimsLegal s) (hr : canonReady s)
include ht hd hr

/-- After CMCANON the cells of rows `1..M-1` are quotients of non-zero values. -/
theorem canonReady_canonState : canonReady (canonState s) where
  mulDiv := hr.mulDiv
  weight := hr.weight
  dim := hr.dim
  nonzero y z hlo hy hz := by
    obtain ⟨hk, -, -⟩ := hd hr.dim
    obtain ⟨pivot, hpivot⟩ := exists_pivots hk
    obtain ⟨hx, -, -⟩ := hpivot y
    rw [canonState_k, canonState_matAt (s := s) hlo hy (hpivot y) hz]
    exact (ht.fieldTables hr.mulDiv).divAt_ne_zero (ht.mulDiv hr.mulDiv) (hr.nonzero y z hlo hy hz)
      (hr.nonzero y _ hlo hy hx)

/-- The divisor of a row cancels from every quotient of two of its cells, so the candidate totals stay. -/
theorem pivotTotal_canonState {y x : Nat} (hlo : 1 ≤ y) (hy : y < s.m) (hx : x < s.k) :
    pivotTotal (canonState s) y x = pivotTotal s y x := by
  obtain ⟨hk, -, -⟩ := hd hr.dim
  obtain ⟨pivot, hpivot⟩ := exists_pivots hk
  obtain ⟨hp, -, -⟩ := hpivot y
  refine Finset.sum_congr rfl fun z hz => ?_
  have hz : z < s.k := Finset.mem_range.1 hz
  simp only [canonState_weightAt, canonState_divAt, canonState_k, canonState_matAt hlo hy (hpivot y) hx,
    canonState_matAt hlo hy (hpivot y) hz]
  rw [(ht.fieldTables hr.mulDiv).divAt_divAt (ht.mulDiv hr.mulDiv) (hr.nonzero y _ hlo hy hp)
    (hr.nonzero y x hlo hy hx)]

theorem isPivot_canonState_iff {y x : Nat} (hlo : 1 ≤ y) (hy : y < s.m) :
    isPivot (canonState s) y x ↔ isPivot s y x := by
  have htotal : ∀ {x}, x < s.k → pivotTotal (canonState s) y x = pivotTotal s y x :=
    pivotTotal_canonState ht hd hr hlo hy
  unfold isPivot
  simp only [canonState_k]
  refine and_congr_right fun hx => and_congr ?_ ?_
  · exact forall₂_congr fun z hz => by rw [htotal hx, htotal hz]
  · exact forall₂_congr fun z hz => by rw [htotal hx, htotal (hz.trans hx)]

/-- The pivot of a row is 1 already, so dividing by it again changes no cell. -/
theorem canonState_canonState_matAt (i : Nat) : (canonState (canonState s)).matAt i = (canonState s).matAt i := by
  obtain ⟨hk, hm, -⟩ := hd hr.dim
  by_cases hi : s.k ≤ i ∧ i < s.m * s.k
  · obtain ⟨hlow, hhigh⟩ := hi
    have hlo : 1 ≤ i / s.k := (Nat.one_le_div_iff hk).2 hlow
    have hy : i / s.k < s.m := Nat.div_lt_of_lt_mul (by rwa [Nat.mul_comm])
    have hz : i % s.k < s.k := Nat.mod_lt i hk
    obtain ⟨pivot, hpivot⟩ := exists_pivots hk
    obtain ⟨x, hx⟩ : ∃ x, x = pivot (i / s.k) := ⟨_, rfl⟩
    have hxs : isPivot s (i / s.k) x := hx ▸ hpivot _
    have hxt : isPivot (canonState s) (i / s.k) x := (isPivot_canonState_iff ht hd hr hlo hy).2 hxs
    have h := ht.fieldTables hr.mulDiv
    have hmd := ht.mulDiv hr.mulDiv
    have hone : (canonState s).matAt (i / s.k * s.k + x) = 1 := by
      rw [canonState_matAt hlo hy hxs hxs.1, h.divAt_self hmd (hr.nonzero _ x hlo hy hxs.1)]
    have hcell := canonState_matAt (s := canonState s) hlo hy hxt hz
    rw [canonState_k, hone, canonState_divAt, h.divAt_one hmd, Nat.div_add_mod'] at hcell
    exact hcell
  · exact canonState_matAt_outside (s := canonState s) hm hi

theorem canonState_canonState_score : (canonState (canonState s)).score = (canonState s).score := by
  obtain ⟨hk, -, -⟩ := hd hr.dim
  obtain ⟨pivot, hpivot⟩ := exists_pivots hk
  obtain ⟨pivot', hpivot'⟩ := exists_pivots (s := canonState s) hk
  rw [canonState_score hpivot, canonState_score hpivot', canonState_m]
  congr 1
  refine Finset.sum_congr rfl fun y hy => ?_
  obtain ⟨hlo, hy⟩ := Finset.mem_Ico.1 hy
  have hx := (isPivot_canonState_iff ht hd hr hlo hy).1 (hpivot' y)
  rw [pivotTotal_canonState ht hd hr hlo hy hx.1, isPivot_unique hx (hpivot y)]

end

/-- Settles O59. -/
theorem cmcanonIsIdempotent : Obligations.CmcanonIsIdempotent := by
  intro s t ht hd hr hexec
  obtain rfl := Host.Outcome.next.inj ((exec_cmcanon_of_canonReady hd hr).symm.trans hexec)
  have hready := canonReady_canonState ht hd hr
  have hmat := canonState_canonState_matAt ht hd hr
  have hscore := canonState_canonState_score ht hd hr
  refine ⟨hready, _, exec_cmcanon_of_canonReady hd.canonState hready, fun hrun => ?_, hmat, hscore,
    sameElementsBut_canonState fun i _ => hmat i, sameRegsBut_of_regs rfl none,
    sameCsrsBut_canonState fun _ => hscore, sameRest_canonState _⟩
  have hflag : (canonState (canonState s)).flag .fault = false := hrun
  exact ⟨hflag, fun hfault => absurd (flag_fault_of_entersFault hfault) (by simp [hflag])⟩

/-! ### The weight of all columns after CMCANON (R216) -/

/-- A row that was divided by its pivot weighs the pivot's total. -/
theorem sum_weightAt_canonState {y x : Nat} (hlo : 1 ≤ y) (hy : y < s.m) (hx : isPivot s y x) :
    ∑ z ∈ Finset.range s.k, (s.weightAt ((canonState s).matAt (y * s.k + z))).toNat = pivotTotal s y x :=
  Finset.sum_congr rfl fun z hz => by rw [canonState_matAt hlo hy hx (Finset.mem_range.1 hz)]

section
variable (ht : TablesHold s) (hr : canonReady s) (hm : 1 ≤ s.m) (hones : ∀ x < s.k, s.matAt x = 1)
include ht hr hm hones

/-- Row 0 stays all 1, and the weight of 1 is 8 (R172). -/
theorem sum_weightAt_canonState_row_zero :
    ∑ x ∈ Finset.range s.k, (s.weightAt ((canonState s).matAt (0 * s.k + x))).toNat = 8 * s.k := by
  have hcell : ∀ x ∈ Finset.range s.k, (s.weightAt ((canonState s).matAt (0 * s.k + x))).toNat = 8 := fun x hx => by
    have hx : x < s.k := Finset.mem_range.1 hx
    rw [Nat.zero_mul, Nat.zero_add, canonState_matAt_outside hm (by omega), hones x hx, ht.weight hr.weight,
      (ht.fieldTables hr.mulDiv).weightOf_one (ht.mulDiv hr.mulDiv)]
  rw [Finset.sum_congr rfl hcell, Finset.sum_const, Finset.card_range, smul_eq_mul, Nat.mul_comm]

theorem sum_weightAt_canonState_all {pivot : Nat → Nat} (hpivot : ∀ y, isPivot s y (pivot y)) :
    ∑ y ∈ Finset.range s.m, ∑ x ∈ Finset.range s.k, (s.weightAt ((canonState s).matAt (y * s.k + x))).toNat =
      (∑ y ∈ Finset.Ico 1 s.m, pivotTotal s y (pivot y)) + 8 * s.k := by
  rw [Finset.sum_range_eq_add_Ico _ hm, sum_weightAt_canonState_row_zero ht hr hm hones, Nat.add_comm]
  refine congrArg (· + 8 * s.k) (Finset.sum_congr rfl fun y hy => ?_)
  obtain ⟨hlo, hy⟩ := Finset.mem_Ico.1 hy
  exact sum_weightAt_canonState hlo hy (hpivot y)

end

/-- Settles O60: row 0 weighs 8 per column, and the rows below weigh what SCORE sums. -/
theorem cmonesIsScorePlusEightPerColumn : Obligations.CmonesIsScorePlusEightPerColumn := by
  intro s t rd ra ht hd hr hones hexec hra
  obtain rfl := Host.Outcome.next.inj ((exec_cmcanon_of_canonReady hd hr).symm.trans hexec)
  obtain ⟨hk, hm, -⟩ := hd hr.dim
  obtain ⟨pivot, hpivot⟩ := exists_pivots hk
  rw [cmonesSumsAColumnPrefix (canonState s) rd ra hd.canonState hr.weight hr.dim hra.le, hra,
    canonState_score hpivot, ← BitVec.ofNat_add]
  simp only [canonState_k, canonState_m, canonState_weightAt, sum_weightAt_canonState_all ht hr hm hones hpivot]

end Sys2Proof.Machine
end

section
/-! The move commands (R230 to R232): no readiness test, no operand test and no fault of their own, so each equation
holds in every state. -/

namespace Sys2Proof.Machine

theorem exec_nop (s : State) : exec .nop s = .next s := by
  simp only [exec, execNop, except_pure_eq, finish_ok]

theorem exec_li (rd : Reg) (imm : Imm16) (s : State) :
    exec (.li rd imm) s = .next (s.setReg rd (imm.setWidth 32)) := by
  simp only [exec, execLi, except_pure_eq, finish_ok]

theorem exec_mov (rd ra : Reg) (s : State) : exec (.mov rd ra) s = .next (s.setReg rd (s.reg ra)) := by
  simp only [exec, execMov, except_pure_eq, finish_ok]

/-- Settles O19: the three completions, and the law of register reads after a register write (R31, R32). -/
theorem nopLiMovComplete : Obligations.NopLiMovComplete := fun s rd ra imm =>
  ⟨exec_nop s, exec_li rd imm s, exec_mov rd ra s, fun v q => reg_setReg s rd q v⟩

end Sys2Proof.Machine
end

section
/-! The fault model (60_exceptions.md): the step that takes a word (R275, R276, R277, R295), the writes of fault entry
(R271, R275), and the order in which a command makes its checks (R272), from which NotReady (R273) and OperandRange
(R274) are read off. -/

namespace Sys2Proof.Machine

open Sys2Proof.Claims

/-! ### The order of the checks (R272) -/

/-- What may come of a rule whose readiness and operand checks have passed: it completes without touching FAULT, it
raises one of the other faults, or the model stops. -/
def AnswersLate (s : State) : Except Stop State → Prop
  | .ok t => t.flag .fault = s.flag .fault
  | .error (.engine f) => f ≠ .notReady ∧ f ≠ .operandRange
  | .error (.model _) => True

/-- A rule that begins with its operand checks: `ok` is what they ask. -/
def ChecksOperands (s : State) (ok : Prop) (c : Except Stop State) : Prop :=
  (¬ ok ∧ c = .error (.engine .operandRange)) ∨ (ok ∧ AnswersLate s c)

/-- A rule that tests the flags of R273 first and the operands of R274 next. -/
def ChecksInOrder (i : Instr) (s : State) (c : Except Stop State) : Prop :=
  (¬ ready i s ∧ c = .error (.engine .notReady)) ∨ (ready i s ∧ ChecksOperands s (operandsAccepted s i) c)

section
variable {s t : State} {c : Except Stop State}

theorem AnswersLate.completes (h : t.flag .fault = s.flag .fault) : AnswersLate s (pure t) := h

theorem AnswersLate.check (b : Bool) {f : EngineFault} (hready : f ≠ .notReady) (hrange : f ≠ .operandRange)
    (h : AnswersLate s c) : AnswersLate s (check b f >>= fun _ => c) := by
  cases b
  · exact ⟨hready, hrange⟩
  · exact h

theorem AnswersLate.needElements (n : Nat) (h : AnswersLate s c) :
    AnswersLate s (needElements n >>= fun _ => c) := by
  by_cases hn : n ≤ Config.matLen
  · rw [needElements_ok hn, except_bind_ok]
    exact h
  · rw [needElements_error_iff.2 ⟨Nat.not_le.1 hn, rfl⟩]
    trivial

end

section
variable {s : State} {ok : Prop} {c : Except Stop State}

theorem ChecksOperands.of_true (hok : ok) (h : AnswersLate s c) : ChecksOperands s ok c := .inr ⟨hok, h⟩

theorem ChecksOperands.upTo {r : Reg} {n : Nat} {k : Nat → Except Stop State}
    (h : ChecksOperands s ok (k (s.reg r).toNat)) :
    ChecksOperands s ((s.reg r).toNat ≤ n ∧ ok) (s.upTo r n >>= k) := by
  by_cases hr : (s.reg r).toNat ≤ n
  · simpa only [upTo_ok hr, except_bind_ok, hr, true_and] using h
  · exact .inl ⟨fun hok => hr hok.1, by rw [upTo_error hr, except_bind_error]⟩

theorem ChecksOperands.fv {r : Reg} {k : Byte → Except Stop State} (h : ChecksOperands s ok (k (byteOf s r))) :
    ChecksOperands s ((s.reg r).toNat ≤ 255 ∧ ok) (s.fv r >>= k) := by
  by_cases hr : (s.reg r).toNat ≤ 255
  · simpa only [fv_eq_byteOf hr, except_bind_ok, hr, true_and] using h
  · exact .inl ⟨fun hok => hr hok.1, by rw [fv_error hr, except_bind_error]⟩

theorem ChecksOperands.rowCol {ra rb : Reg} {k : Nat × Nat → Except Stop State}
    (h : ChecksOperands s ok (k ((s.reg ra).toNat, (s.reg rb).toNat))) :
    ChecksOperands s ((s.reg ra).toNat < s.m ∧ (s.reg rb).toNat < s.k ∧ ok) (s.rowCol ra rb >>= k) := by
  by_cases hrc : (s.reg ra).toNat < s.m ∧ (s.reg rb).toNat < s.k
  · obtain ⟨hrow, hcol⟩ := hrc
    simpa only [rowCol_ok hrow hcol, except_bind_ok, hrow, hcol, true_and] using h
  · exact .inl ⟨fun ⟨hrow, hcol, _⟩ => hrc ⟨hrow, hcol⟩, by rw [rowCol_error hrc, except_bind_error]⟩

theorem ChecksOperands.lastUpTo {r : Reg} {n : Nat} {k : Nat → Except Stop State}
    (h : AnswersLate s (k (s.reg r).toNat)) : ChecksOperands s ((s.reg r).toNat ≤ n) (s.upTo r n >>= k) := by
  simpa only [and_true] using upTo (n := n) (of_true trivial h)

theorem ChecksOperands.lastFv {r : Reg} {k : Byte → Except Stop State} (h : AnswersLate s (k (byteOf s r))) :
    ChecksOperands s ((s.reg r).toNat ≤ 255) (s.fv r >>= k) := by
  simpa only [and_true] using fv (of_true trivial h)

theorem ChecksOperands.lastRowCol {ra rb : Reg} {k : Nat × Nat → Except Stop State}
    (h : AnswersLate s (k ((s.reg ra).toNat, (s.reg rb).toNat))) :
    ChecksOperands s ((s.reg ra).toNat < s.m ∧ (s.reg rb).toNat < s.k) (s.rowCol ra rb >>= k) := by
  simpa only [and_true] using rowCol (of_true trivial h)

end

section
variable {i : Instr} {s : State} {c : Except Stop State}

theorem ChecksInOrder.of_noFlags (hi : requiredFlags i = []) (h : ChecksOperands s (operandsAccepted s i) c) :
    ChecksInOrder i s c := .inr ⟨by simp [ready, hi], h⟩

theorem ChecksInOrder.of_flags {b : Bool} (hb : b = true ↔ ready i s)
    (h : ChecksOperands s (operandsAccepted s i) c) : ChecksInOrder i s (needReady b >>= fun _ => c) := by
  cases b
  · exact .inl ⟨fun hready => absurd (hb.2 hready) Bool.false_ne_true, rfl⟩
  · exact .inr ⟨hb.1 rfl, h⟩

/-- The form most commands have: one flag is required. -/
theorem ChecksInOrder.of_flag {f : Flag} (hi : requiredFlags i = [f])
    (h : ChecksOperands s (operandsAccepted s i) c) :
    ChecksInOrder i s (needReady (s.flag f) >>= fun _ => c) :=
  of_flags (by simp [ready, hi]) h

end

/-- R272: every command makes its checks in the order of the spec, and nothing else raises NotReady or
OperandRange. -/
theorem exec_checks_in_order (i : Instr) (s : State) :
    ∃ c, exec i s = finish (encode i) s c ∧ ChecksInOrder i s c := by
  cases i with
  | nop => exact ⟨.ok s, rfl, .of_noFlags rfl (.of_true trivial rfl)⟩
  | li rd imm => exact ⟨.ok (s.setReg rd (imm.setWidth 32)), rfl, .of_noFlags rfl (.of_true trivial rfl)⟩
  | mov rd ra => exact ⟨.ok (s.setReg rd (s.reg ra)), rfl, .of_noFlags rfl (.of_true trivial rfl)⟩
  | rdcsr rd csr =>
    refine ⟨_, rfl, .of_noFlags rfl (.of_true trivial ?_)⟩
    split
    · exact .completes rfl
    · exact ⟨by decide, by decide⟩
  | gfbuild idx =>
    refine ⟨_, rfl, .of_noFlags rfl (.of_true trivial ?_)⟩
    split
    · exact ⟨by decide, by decide⟩
    · exact .check _ (by decide) (by decide) (.check _ (by decide) (by decide) (.completes (by simp)))
  | setdim imm =>
    exact ⟨_, rfl, .of_noFlags rfl (.of_true trivial (.check _ (by decide) (by decide) (.completes (by simp))))⟩
  | mdbuild | invbuild | wtbuild => exact ⟨_, rfl, .of_flag rfl (.of_true trivial (.completes (by simp)))⟩
  | popc rd ra => exact ⟨_, rfl, .of_noFlags rfl (.lastFv (.completes rfl))⟩
  | gfdbl rd ra | gflog rd ra | bwcalc rd ra | bwlut rd ra =>
    exact ⟨_, rfl, .of_flag rfl (.lastFv (.completes rfl))⟩
  | gfinv rd ra =>
    exact ⟨_, rfl, .of_flag rfl (.lastFv (.check _ (by decide) (by decide) (.completes rfl)))⟩
  | gfadd rd ra rb => exact ⟨_, rfl, .of_noFlags rfl (.fv (.lastFv (.completes rfl)))⟩
  | gfmul rd ra rb | gfmull rd ra rb => exact ⟨_, rfl, .of_flag rfl (.fv (.lastFv (.completes rfl)))⟩
  | gfdiv rd ra rb | gfdivl rd ra rb =>
    exact ⟨_, rfl, .of_flag rfl (.fv (.lastFv (.check _ (by decide) (by decide) (.completes rfl))))⟩
  | gfexp rd ra => exact ⟨_, rfl, .of_flag rfl (.lastUpTo (.completes rfl))⟩
  | ldx rd ra | ldy rd ra => exact ⟨_, rfl, .of_noFlags rfl (.lastUpTo (.completes rfl))⟩
  | stx ra rb | sty ra rb => exact ⟨_, rfl, .of_noFlags rfl (.upTo (.lastFv (.completes rfl)))⟩
  | ldm rd ra rb => exact ⟨_, rfl, .of_flag rfl (.lastRowCol (.needElements _ (.completes rfl)))⟩
  | stm ra rb rc => exact ⟨_, rfl, .of_flag rfl (.rowCol (.lastFv (.needElements _ (.completes rfl))))⟩
  | cmraw =>
    refine ⟨_, rfl, .of_flags (by simp [ready, requiredFlags, and_assoc]) (.of_true trivial ?_)⟩
    exact .check _ (by decide) (by decide) (.needElements _ (.completes rfl))
  | cmcanon =>
    refine ⟨_, rfl, .of_flags (by simp [ready, requiredFlags, and_assoc]) (.of_true trivial ?_)⟩
    exact .needElements _ (.check _ (by decide) (by decide) (.completes rfl))
  | cmones rd ra =>
    exact ⟨_, rfl, .of_flags (by simp [ready, requiredFlags]) (.lastUpTo (.needElements _ (.completes rfl)))⟩

/-! ### NotReady and OperandRange (R273, R274) -/

section
variable {i : Instr} {s : State} {c : Except Stop State}

theorem AnswersLate.flag_fault (h : AnswersLate s c) {t : State} (hc : c = .ok t) :
    t.flag .fault = s.flag .fault := by
  subst hc
  exact h

theorem AnswersLate.ne_notReady (h : AnswersLate s c) : c ≠ .error (.engine .notReady) := by
  rintro rfl
  exact h.1 rfl

theorem AnswersLate.ne_operandRange (h : AnswersLate s c) : c ≠ .error (.engine .operandRange) := by
  rintro rfl
  exact h.2 rfl

/-- From a running engine, the rule of a command decides which fault it is seen to enter. -/
theorem ChecksInOrder.exec_eq_raise_iff (h : ChecksInOrder i s c) (hexec : exec i s = finish (encode i) s c)
    (hrun : s.flag .fault = false) (f : EngineFault) :
    exec i s = .next (raise f (encode i) s) ↔ c = .error (.engine f) := by
  rw [hexec, finish_eq_raise]
  intro t hc
  rcases h with ⟨-, hbad⟩ | ⟨-, ⟨-, hbad⟩ | ⟨-, hlate⟩⟩
  · cases hbad.symm.trans hc
  · cases hbad.symm.trans hc
  · rw [hlate.flag_fault hc, hrun]

end

/-- Settles O15: the flags are tested first, so a ready command never raises NotReady and another always does. -/
theorem notReadyExactlyWhenARequiredFlagIsZero : Obligations.NotReadyExactlyWhenARequiredFlagIsZero := by
  intro i s hrun
  obtain ⟨c, hexec, h⟩ := exec_checks_in_order i s
  rw [h.exec_eq_raise_iff hexec hrun]
  rcases h with ⟨hunready, hc⟩ | ⟨hready, ⟨-, hc⟩ | ⟨-, hlate⟩⟩
  · exact iff_of_true hc hunready
  · exact iff_of_false (by simp [hc]) (not_not.2 hready)
  · exact iff_of_false hlate.ne_notReady (not_not.2 hready)

/-- Settles O16: of a ready command the operands are tested next. -/
theorem operandRangeExactlyWhenAnOperandIsOutside : Obligations.OperandRangeExactlyWhenAnOperandIsOutside := by
  intro i s hrun hready
  obtain ⟨c, hexec, h⟩ := exec_checks_in_order i s
  rw [h.exec_eq_raise_iff hexec hrun]
  rcases h with ⟨hunready, -⟩ | ⟨-, ⟨houtside, hc⟩ | ⟨haccepted, hlate⟩⟩
  · exact absurd hready hunready
  · exact iff_of_true hc houtside
  · exact iff_of_false hlate.ne_operandRange (not_not.2 haccepted)

/-! ### Fault entry (R271, R275) -/

theorem raise_status_bit (f : EngineFault) (cmd : Word) (s : State) {j : Nat} (hj : j ≠ 7) :
    (raise f cmd s).status.getLsbD j = s.status.getLsbD j :=
  setFlag_status_bit { s with fcode := f.code, fcmd := cmd } .fault true j hj

theorem sameCsrsBut_raise (f : EngineFault) (cmd : Word) (s : State) :
    SameCsrsBut [0, 5, 6] s (raise f cmd s) :=
  sameCsrsBut_of (by simp) (fun _ => rfl) (fun _ => rfl) (fun _ => rfl) (fun _ => rfl) (by simp) (by simp)

theorem sameElementsBut_raise (f : EngineFault) (cmd : Word) (s : State) (P : Config.Space → Nat → Prop) :
    SameElementsBut P s (raise f cmd s) := fun sp _ _ _ => by cases sp <;> rfl

/-- Settles O13. -/
theorem faultEntryMakesExactlyThreeWrites : Obligations.FaultEntryMakesExactlyThreeWrites := by
  refine ⟨⟨rfl, rfl, rfl, rfl, rfl, rfl⟩, fun f cmd s => ?_⟩
  exact ⟨rfl, rfl, by simp, fun j hj => raise_status_bit f cmd s hj, sameRegsBut_of_regs rfl none,
    sameCsrsBut_raise f cmd s, sameElementsBut_raise f cmd s _, ⟨rfl, rfl, rfl, rfl⟩⟩

/-! ### The step that takes a word (R275, R276, R277, R295) -/

theorem step_of_idle {s : State} (h : s.pending = []) : step s = .next s := by
  simp only [step, h]

/-- Settles O9. -/
theorem idleEngineDoesNotChange : Obligations.IdleEngineDoesNotChange := fun _ => step_of_idle

/-- Settles O7: `present` answers a faulted engine's state before it decodes the word. -/
theorem faultedEngineRefusesEveryCommand : Obligations.FaultedEngineRefusesEveryCommand := by
  intro s w rest hp hf
  rw [step_of_command hp]
  exact present_of_faulted w hf

/-- Settles O14: a word that has an effect leaves FAULT as it was, so what left FAULT at 1 is fault entry. -/
theorem faultsArePrecise : Obligations.FaultsArePrecise := by
  intro s t w rest hp hs hstep ht
  rw [step_of_command hp] at hstep
  have hrun : (s.withPending rest).flag .fault = false := hs
  rcases present_next hrun hstep with hraise | ⟨i, he⟩
  · exact hraise
  · rw [effect_fault he, hrun] at ht
    cases ht

/-- Settles O52, by what the host presents: nothing, reset or a word. -/
theorem stepAlwaysAnswersANextState : Obligations.StepAlwaysAnswersANextState := by
  intro s hd
  match hp : s.pending with
  | [] => exact ⟨s, step_of_idle hp⟩
  | .reset :: rest => exact ⟨_, step_of_reset hp⟩
  | .command w :: rest =>
    rw [step_of_command hp]
    exact present_answers (s := s.withPending rest) hd w

end Sys2Proof.Machine
end
